-- ==== Sys2Proof/Word.lean ====
section
/-! DEFINITION. The widths of the block: 32-bit registers, 8-bit symbols, bit strings, 10-bit window offsets. -/

namespace Sys2Proof

/-- A 32-bit register value (10_state.md section 2, 00_scope.md rule R11). -/
abbrev Word := BitVec 32

/-- One symbol of SYMMEM (10_state.md rule R43). -/
abbrev Sym := BitVec 8

/-- A bit string, its first bit first (00_scope.md rule R9). -/
abbrev Bits := List Bool

/-- A byte offset inside the block's 1 KiB window (20_memory.md rules R80, R81). -/
abbrev Offset := BitVec 10

/-- `NONE`, which is also the encoding of -1 (00_scope.md rule R11, 30_encoding.md rule R107). -/
def noneWord : Word := 0xFFFFFFFF

end Sys2Proof
end

