-- ==== Sys2Proof/Config.lean ====
section
/-! DEFINITION. The implementation parameters of 00_scope.md rule R7: the values the source or the spec decides, as
constants; the OPEN ones, which no source gives, as the fields of one opaque constant that no proof can look into. -/

namespace Sys2Proof

/-- Link-control-word sub-kinds, in the order of their codes 0..6 (44_dispatch.md rule R240). -/
inductive SubKind where
  | none | vo | ip | da | u3 | sy | unknown
  deriving DecidableEq, Repr, Inhabited

/-- The meaning of "bit index" in the BCH flip search (42_bch.md rule R172). -/
inductive FlipOrder where
  | coeff | string
  deriving DecidableEq, Repr, Inhabited

/-- A de-interleave table: the permutation `P` as the list `P(0), P(1), …` and its stream lengths
(41_bitutil.md rule R133). -/
structure PermTable where
  perm : List Nat
  streams : List Nat
  deriving DecidableEq, Repr, Inhabited

/-- The OPEN parameters of the table of 00_scope.md rule R7. The permutation families are lists of tables, one per length
that is present. The candidate parameters are those of 44_dispatch.md rules R250 to R255, from which the descriptors are
built. Constraints: `Machine.paramsValid` (rule R8). -/
structure Params where
  /-- `BASE`, the bus address of register offset 0. -/
  base : Nat
  /-- `POLY[0..7]`. -/
  poly : Vector Word 8
  /-- `PERM2(L)`. -/
  perm2 : List PermTable
  /-- `PERM3(L)`. -/
  perm3 : List PermTable
  /-- `PERM_LCW`. -/
  permLcw : List Nat
  /-- `LCW_W1`, `LCW_W2`, `LCW_W3`. -/
  lcwW1 : Nat
  lcwW2 : Nat
  lcwW3 : Nat
  /-- `CKSUM8_FN`, total into 0..255. -/
  cksum8 : List (BitVec 8) → BitVec 8
  /-- `CKSUM16_FN`, total into 0..65535. -/
  cksum16 : List (BitVec 8) → BitVec 16
  /-- `RS8.PRIM`, `RS8.GEN`, `RS8.FCR`. -/
  rs8Prim : Nat
  rs8Gen : Nat
  rs8Fcr : Nat
  /-- `RS6.PRIM`, `RS6.GEN`. -/
  rs6Prim : Nat
  rs6Gen : Nat
  /-- `ACC[0..3]`: downlink, uplink, next-generation downlink, next-generation uplink. -/
  accDl : Bits
  accUl : Bits
  accNxdl : Bits
  accNxul : Bits
  /-- `LEADOUT`, `FILLER`; an empty pattern is absent. -/
  leadout : Bits
  filler : Bits
  /-- `HDR_MS` and `HDR_TL`, the first pattern bit most significant. -/
  hdrMs : BitVec 32
  hdrTl : BitVec 96
  /-- `CAND[MS]`: MINLEN, MS_OFF and its LEN checks (44_dispatch.md rule R250). -/
  msMin : Nat
  msOff : Nat
  msLens : List (Nat × Nat)
  /-- `CAND[TL]`: MINLEN, TL_OFF and its LEN checks (44_dispatch.md rule R251). -/
  tlMin : Nat
  tlOff : Nat
  tlLens : List (Nat × Nat)
  /-- `CAND[BC]`: MINLEN, BC_HOFF, BC_ROFF, BC_RLEN, BC_B0, BC_B1 (44_dispatch.md rule R252). -/
  bcMin : Nat
  bcHoff : Nat
  bcRoff : Nat
  bcRlen : Nat
  bcB0 : Nat
  bcB1 : Nat
  /-- `CAND[LW]`: MINLEN, LW_OFF, LW_S1, LW_S2, LW_S3, LW_PAD (44_dispatch.md rule R253). -/
  lwMin : Nat
  lwOff : Nat
  lwS1 : Fin 8
  lwS2 : Fin 8
  lwS3 : Fin 8
  lwPad : Nat
  /-- `CAND[RA]`: MINLEN, RA_ROFF, RA_RLEN, RA_B0, RA_B1, RA_B2 (44_dispatch.md rule R254). -/
  raMin : Nat
  raRoff : Nat
  raRlen : Nat
  raB0 : Nat
  raB1 : Nat
  raB2 : Nat
  /-- `CAND[AQ]`: AQ_LO, AQ_HI (44_dispatch.md rule R255). -/
  aqLo : Nat
  aqHi : Nat
  /-- `LCW_FT_LOC = (f, o)`; field f counts from 0 here (44_dispatch.md rule R260). -/
  ftField : Fin 3
  ftOff : Nat
  /-- `LCW_FT_MAP`, by the 2-bit frame-type value (44_dispatch.md rule R260). -/
  ftMap : Vector SubKind 4
  deriving Inhabited

namespace Config

/-- The parameters of the chip at hand before the constraints of 00_scope.md rule R8 are imposed: a free value, with no
body, so that nothing can be proved of it (log entry 8). -/
opaque raw : Params

/-- `BITMEM_BITS`, decided (D6; log entry 9). -/
def bitmemBits : Nat := 2048
/-- `SYMMEM_SYMS`, decided (D7). -/
def symmemSyms : Nat := 256
/-- `OUTBUF_WORDS`, decided (D8). -/
def outbufWords : Nat := 64
/-- `N_MAX`, decided (D13; log entry 9). -/
def nMax : Nat := 64
/-- `FLIP_ORDER`, decided (D12; log entry 9). -/
def flipOrder : FlipOrder := .coeff
/-- `ID_VALUE`, decided (D39; log entry 9). -/
def idValue : Word := 0x42434807
/-- `ACC_FUZZ`, from the source. -/
def accFuzz : Nat := 3
/-- `TRAIL_TOL`, from the source. -/
def trailTol : Nat := 2
/-- `RS8.NSYM`, from the source. -/
def rs8Nsym : Nat := 16
/-- `RS6.NSYM`, from the source. -/
def rs6Nsym : Nat := 10
/-- `RS6.FCR`, from the source. -/
def rs6Fcr : Nat := 54
/-- `RS8.N`, the padded length, decided (D18). -/
def rs8N : Nat := 255
/-- `RS6.N`, the padded length, decided (D18). -/
def rs6N : Nat := 63

end Config

end Sys2Proof
end

