-- ==== Sys2Proof/Machine/Poly.lean ====
section
/-! DEFINITION. Polynomials over GF(2) held as natural numbers, bit k the coefficient of x^k (00_scope.md rule R12), and
their long division (42_bch.md rule R170). -/

namespace Sys2Proof.Machine

/-- `deg(g)`, the index of the highest set bit (00_scope.md rule R12); 0 for 0 and 1. -/
def deg (g : Nat) : Nat := g.log2

/-- Long division with a bound on the number of subtractions (42_bch.md rule R170). -/
def polyModSteps (g : Nat) : Nat → Nat → Nat
  | 0, a => a
  | k + 1, a => if a ≠ 0 ∧ deg g ≤ deg a then polyModSteps g k (a ^^^ (g <<< (deg a - deg g))) else a

/-- `a mod g` in GF(2)[x] (00_scope.md rule R12): each subtraction clears the highest bit, so `deg a + 1` of them are
enough. -/
def polyMod (g a : Nat) : Nat := polyModSteps g (deg a + 1) a

/-- The product in GF(2)[x] of `a` and the polynomial of the low `k` bits of `b`. -/
def polyMul (a b : Nat) : Nat → Nat
  | 0 => 0
  | k + 1 => polyMul a b k ^^^ (if b.testBit k then a <<< k else 0)

end Sys2Proof.Machine
end

