-- ==== Sys2Proof/Machine/Galois.lean ====
section
/-! DEFINITION. Arithmetic of GF(2^m) and its powers (43_rs.md rules R210, R211), and polynomials over the field as
coefficient lists, lowest power first. -/

namespace Sys2Proof.Machine

/-- The numbers of a Reed–Solomon code (43_rs.md rules R210 to R212): symbol width, parity symbols, first consecutive root,
field polynomial and generator element. -/
structure RsCode where
  m : Nat
  nsym : Nat
  fcr : Nat
  prim : Nat
  gen : Nat
  deriving DecidableEq, Repr

/-- `N = 2^m - 1`, the padded length and the order of the generator element (43_rs.md rules R211, R212). -/
def RsCode.n (f : RsCode) : Nat := 2 ^ f.m - 1

/-- `t = NSYM/2` (43_rs.md rule R212). -/
def RsCode.t (f : RsCode) : Nat := f.nsym / 2

/-- Multiplication in the field: the product of polynomials, reduced (43_rs.md rule R210). -/
def gfMul (f : RsCode) (a b : Nat) : Nat := polyMod f.prim (polyMul a b f.m)

/-- Binary exponentiation with `k` exponent bits. -/
def gfPowSteps (f : RsCode) : Nat → Nat → Nat → Nat
  | 0, _, _ => 1
  | k + 1, a, e =>
    let h := gfPowSteps f k (gfMul f a a) (e / 2)
    if e % 2 = 1 then gfMul f a h else h

/-- `a^e` for `e < 2^m`. -/
def gfPow (f : RsCode) (a e : Nat) : Nat := gfPowSteps f f.m a e

/-- The inverse of a non-zero element, `a^(2^m - 2)` (43_rs.md rule R210; log entry 12). -/
def gfInv (f : RsCode) (a : Nat) : Nat := gfPow f a (2 ^ f.m - 2)

/-- Division by a non-zero element (43_rs.md rule R210). -/
def gfDiv (f : RsCode) (a b : Nat) : Nat := gfMul f a (gfInv f b)

/-- `alpha^e` for any integer e, exponents modulo `2^m - 1` (43_rs.md rule R211). -/
def alphaPow (f : RsCode) (e : Int) : Nat := gfPow f f.gen (e % (f.n : Int)).toNat

/-- The value of a polynomial at x. -/
def gfEval (f : RsCode) (cs : List Nat) (x : Nat) : Nat := cs.foldr (fun c acc => c ^^^ gfMul f x acc) 0

/-- The sum of two polynomials: coefficients added by XOR (43_rs.md rule R210). -/
def gfPolyAdd : List Nat → List Nat → List Nat
  | [], bs => bs
  | as, [] => as
  | a :: as, b :: bs => (a ^^^ b) :: gfPolyAdd as bs

/-- `c * x^k * B` (43_rs.md rule R215). -/
def gfPolyScaleShift (f : RsCode) (c k : Nat) (b : List Nat) : List Nat :=
  List.replicate k 0 ++ b.map (gfMul f c)

/-- The product of two polynomials. -/
def gfPolyMul (f : RsCode) : List Nat → List Nat → List Nat
  | [], _ => []
  | a :: as, bs => gfPolyAdd (bs.map (gfMul f a)) (0 :: gfPolyMul f as bs)

/-- The powers `a^0, a^1, …` of an element, `k` of them from a given start. -/
def gfPowers (f : RsCode) (a : Nat) : Nat → Nat → List Nat
  | _, 0 => []
  | x, k + 1 => x :: gfPowers f a (gfMul f a x) k

end Sys2Proof.Machine
end

