-- ==== Sys2Proof/Syntax.lean ====
section
/-! DEFINITION. The commands of the block, one constructor per row of spec/opcode_table.json, and the command error
codes of 60_exceptions.md rule R291. -/

namespace Sys2Proof

/-- A command, by the opcode map of 30_encoding.md rule R105. The five BCH commands carry the whole four-bit SEL field of
the command word (rule R100); the values 8..15 are reserved (rule R102) and are not well-formed. Operands are never part
of a command: they are the latched ARG registers (rule R104). -/
inductive Instr where
  | nop
  | extract
  | slice
  | deint2
  | deint3
  | deintlcw
  | int2
  | int3
  | intlcw
  | hamming
  | cksum8
  | cksum16
  | bchDiv (sel : BitVec 4)
  | bchDecode (sel : BitVec 4)
  | bchDecode2p (sel : BitVec 4)
  | bchBlock32 (sel : BitVec 4)
  | bchBlockseq (sel : BitVec 4)
  | rsFix8
  | rsFix6
  | access
  | strip
  | classify
  deriving DecidableEq, Repr

/-- The command errors of 60_exceptions.md rule R291, all but OK. -/
inductive CmdError where
  /-- OP is not in the opcode map. -/
  | illegalOp
  /-- Bits 31:12 are not 0, or SEL is not one the command takes. -/
  | reservedBits
  /-- A bit or symbol region is outside its memory. -/
  | range
  /-- A length or width operand the command does not accept. -/
  | length
  /-- The POLY slot named by SEL is absent. -/
  | noPoly
  /-- No permutation table for the length. -/
  | noTable
  /-- A GF(2^6) input symbol above 63. -/
  | symbol
  /-- A slice of more than 64 groups. -/
  | capacity
  /-- Illegal forced-type fields in the latched CTRL. -/
  | param
  deriving DecidableEq, Repr

end Sys2Proof
end

