-- ==== Sys2Proof/WellFormed.lean ====
section
/-! DEFINITION. Well-formed commands: the SEL field of a BCH command names one of the eight POLY slots
(30_encoding.md rule R102). -/

namespace Sys2Proof

/-- The SEL field a command carries; 0 for a command that takes none (30_encoding.md rules R100, R102). -/
def Instr.sel : Instr → BitVec 4
  | .nop | .extract | .slice | .deint2 | .deint3 | .deintlcw | .int2 | .int3 | .intlcw | .hamming => 0
  | .cksum8 | .cksum16 | .rsFix8 | .rsFix6 | .access | .strip | .classify => 0
  | .bchDiv s | .bchDecode s | .bchDecode2p s | .bchBlock32 s | .bchBlockseq s => s

/-- A command is well-formed when its SEL names a slot 0..7; values 8..15 are reserved (30_encoding.md rule R102). -/
def Instr.wellFormed (i : Instr) : Bool := i.sel < 8

end Sys2Proof
end

