-- ==== Sys2Proof/Decode.lean ====
section
/-! DEFINITION. The command word: the encoder and the total decoder of 30_encoding.md rules R100 to R106. -/

namespace Sys2Proof

/-- What decoding a command word gives (30_encoding.md rules R101 to R103, R106): a command, or the command error the
engine completes with. -/
inductive Decoded where
  | instr (i : Instr)
  | reject (e : CmdError)
  deriving DecidableEq, Repr

/-- The opcode of a command (30_encoding.md rule R105). -/
def Instr.opcode : Instr → BitVec 8
  | .nop => 0x00
  | .extract => 0x10
  | .slice => 0x11
  | .deint2 => 0x12
  | .deint3 => 0x13
  | .deintlcw => 0x14
  | .int2 => 0x15
  | .int3 => 0x16
  | .intlcw => 0x17
  | .hamming => 0x18
  | .cksum8 => 0x19
  | .cksum16 => 0x1A
  | .bchDiv _ => 0x20
  | .bchDecode _ => 0x21
  | .bchDecode2p _ => 0x22
  | .bchBlock32 _ => 0x23
  | .bchBlockseq _ => 0x24
  | .rsFix8 => 0x30
  | .rsFix6 => 0x31
  | .access => 0x40
  | .strip => 0x41
  | .classify => 0x42

/-- The OP field, bits 7:0 (30_encoding.md rule R100). -/
def opField (v : Word) : BitVec 8 := v.extractLsb' 0 8

/-- The SEL field, bits 11:8 (30_encoding.md rule R100). -/
def selField (v : Word) : BitVec 4 := v.extractLsb' 8 4

/-- The reserved bits 31:12 (30_encoding.md rule R100). -/
def reservedField (v : Word) : BitVec 20 := v.extractLsb' 12 20

/-- The command an OP value names, with the SEL field handed to the BCH commands; none for an illegal OP
(30_encoding.md rules R101, R105, R106). -/
def commandOf (op : BitVec 8) (sel : BitVec 4) : Option Instr :=
  match op.toNat with
  | 0x00 => some .nop
  | 0x10 => some .extract
  | 0x11 => some .slice
  | 0x12 => some .deint2
  | 0x13 => some .deint3
  | 0x14 => some .deintlcw
  | 0x15 => some .int2
  | 0x16 => some .int3
  | 0x17 => some .intlcw
  | 0x18 => some .hamming
  | 0x19 => some .cksum8
  | 0x1A => some .cksum16
  | 0x20 => some (.bchDiv sel)
  | 0x21 => some (.bchDecode sel)
  | 0x22 => some (.bchDecode2p sel)
  | 0x23 => some (.bchBlock32 sel)
  | 0x24 => some (.bchBlockseq sel)
  | 0x30 => some .rsFix8
  | 0x31 => some .rsFix6
  | 0x40 => some .access
  | 0x41 => some .strip
  | 0x42 => some .classify
  | _ => none

/-- Decode a command word: ILLEGAL_OP is reported before RESERVED_BITS; RESERVED_BITS when bits 31:12 are not 0, when SEL
is not 0 on a command that takes none, or when SEL is 8..15 on a BCH command (30_encoding.md rules R101 to R103,
60_exceptions.md rule R293). -/
def decode (v : Word) : Decoded :=
  match commandOf (opField v) (selField v) with
  | none => .reject .illegalOp
  | some i =>
    if reservedField v = 0 ∧ selField v = i.sel ∧ i.wellFormed then .instr i else .reject .reservedBits

/-- The command word of a command, `OP | (SEL << 8)` (30_encoding.md rules R100, R105, R110). -/
def encode (i : Instr) : Word := (0 : BitVec 20) ++ (i.sel ++ i.opcode)

/-- What the decoder reads from a command word numbered as spec/opcode_table.json numbers it. A command is one 32-bit
word written whole to CMD, so there is no byte order to undo (20_memory.md rule R82, 30_encoding.md rule R100). -/
def decodeTableWord (nbits w : Nat) : Option Instr :=
  match decode (BitVec.ofNat 32 (w % 2 ^ nbits)) with
  | .instr i => some i
  | .reject _ => none

end Sys2Proof
end

