-- ==== Sys2Proof/Machine/State.lean ====
section
/-! DEFINITION. The architectural state of the block (10_state.md), the model's own bookkeeping of the host, the
reasons a step can stop, and the state after a hard reset (70_reset_and_hazards.md rule R320). -/

namespace Sys2Proof.Machine

/-- `ENG` (10_state.md rule R46). -/
inductive Engine where
  | idle | busy
  deriving DecidableEq, Repr

/-- The two agents that act on the block (10_state.md rule R30). -/
inductive Agent where
  | host | engine
  deriving DecidableEq, Repr

/-- The stored fields of CTRL (10_state.md rule R32). Reserved bits and SRST hold nothing. -/
structure Ctrl where
  harder : Bool
  irqEn : Bool
  forceEn : Bool
  forceTag : BitVec 4
  forceSub : BitVec 3
  deriving DecidableEq, Repr

/-- `L_CTRL`, the copy of the configuration fields latched at acceptance (10_state.md rules R46, R49). -/
structure CtrlLatch where
  harder : Bool
  forceEn : Bool
  forceTag : BitVec 4
  forceSub : BitVec 3
  deriving DecidableEq, Repr

/-- The stored fields of STATUS (10_state.md rule R34). BUSY is the mirror of `ENG` (rule R46) and is held once, there;
reserved bits hold nothing (log entry 4). -/
structure Status where
  done : Bool
  err : Bool
  ovr : Bool
  busErr : Bool
  errCode : BitVec 8
  lastOp : BitVec 8
  deriving DecidableEq, Repr

/-- What the host, or the platform on the reset input, does next (20_memory.md rules R80, R85; 30_encoding.md rule R111;
70_reset_and_hazards.md rules R320, R330). Accesses carry the offset from BASE and their size in bytes
(log entries 13, 14). -/
inductive HostAction where
  /-- `MemWrite(BASE + off, size, v)`. -/
  | write (off : Offset) (size : Nat) (v : Word)
  /-- `MemRead(BASE + off, size)`. -/
  | read (off : Offset) (size : Nat)
  /-- The WAIT pseudo-instruction: read STATUS until bit 0 is 0. -/
  | wait
  /-- The platform drives the reset input. -/
  | hardReset
  deriving DecidableEq, Repr

/-- The three memories with written marks (10_state.md rule R45). -/
inductive MemKind where
  | bitmem | symmem | outbuf
  deriving DecidableEq, Repr

/-- A memory: its written cells as (address, contents) pairs. A cell is listed exactly when its written mark is set
(10_state.md rule R45), so an unlisted cell has no value to read. With `α := BitVec 8` this is a list of `Host.Cell`. -/
abbrev Memory (α : Type) := List (Nat × α)

/-- The canonical form of a memory of `bound` cells: addresses strictly rising and below `bound`. -/
abbrev Memory.wf {α : Type} (bound : Nat) (m : Memory α) : Prop :=
  m.Pairwise (fun x y => x.1 < y.1) ∧ ∀ c ∈ m, c.1 < bound

/-- The whole state. The last three fields are the model's own: the host actions still to be performed, the choice of who
moves when both agents could, and the values returned to the host so far (log entries 1, 2, 3). -/
structure State where
  /-- CTRL (10_state.md rule R32). -/
  ctrl : Ctrl
  /-- STATUS (10_state.md rule R34). -/
  status : Status
  /-- ARG0..ARG3 (10_state.md rule R37). -/
  arg : Vector Word 4
  /-- RES0..RES7 (10_state.md rule R38). -/
  res : Vector Word 8
  /-- BITMEM, by bit address (10_state.md rule R42). -/
  bitmem : List (Nat × Bool)
  /-- SYMMEM, by symbol index (10_state.md rule R43). -/
  symmem : List Host.Cell
  /-- OUTBUF, by word number (10_state.md rule R44). -/
  outbuf : List (Nat × Word)
  /-- ENG (10_state.md rule R46). -/
  eng : Engine
  /-- L_CMD (10_state.md rule R46). -/
  lCmd : Word
  /-- L_ARG[0..3] (10_state.md rule R46). -/
  lArg : Vector Word 4
  /-- L_CTRL (10_state.md rule R46). -/
  lCtrl : CtrlLatch
  /-- The model's own: host actions still to be performed, the next one first. -/
  host : List HostAction
  /-- The model's own: who moves at the next steps at which both agents could; the engine when the list is empty. -/
  sched : List Agent
  /-- The model's own: the values returned to the host, the oldest first. -/
  reads : List Word
  deriving DecidableEq, Repr

/-- Why a step stops the machine. -/
inductive Fault where
  /-- UNINIT: a command, or a host read of a window word, reads a cell whose written mark is clear (10_state.md rule R45).
  Raised by every command that reads a region and by host reads. Safe: the hardware goes on with a value no source fixes,
  and the spec says the model has no result (92_eei_decisions.md D42; log entry 6). -/
  | uninit (mem : MemKind) (addr : Nat)
  deriving DecidableEq, Repr

/-- Why a step has no meaning. -/
inductive Refusal where
  /-- An instruction without a meaning, rejected by name in exec's arm. No arm raises it: every command has its meaning.
  Safe: the machine stops where the hardware goes on. -/
  | notModelled (mnemonic : String)
  deriving DecidableEq, Repr

/-- CTRL after reset (70_reset_and_hazards.md rule R320). -/
def Ctrl.zero : Ctrl := { harder := false, irqEn := false, forceEn := false, forceTag := 0, forceSub := 0 }

/-- STATUS after reset (70_reset_and_hazards.md rule R320). -/
def Status.zero : Status := { done := false, err := false, ovr := false, busErr := false, errCode := 0, lastOp := 0 }

/-- The state right after a hard reset (70_reset_and_hazards.md rule R320): registers 0, every written mark clear, the
engine IDLE. The latches have no defined value while IDLE and are 0 here (log entry 5); no host action is queued, no
choice is made and nothing has been read (log entries 1, 2, 3). -/
def State.reset : State where
  ctrl := Ctrl.zero
  status := Status.zero
  arg := Vector.replicate 4 0
  res := Vector.replicate 8 0
  bitmem := []
  symmem := []
  outbuf := []
  eng := .idle
  lCmd := 0
  lArg := Vector.replicate 4 0
  lCtrl := { harder := false, forceEn := false, forceTag := 0, forceSub := 0 }
  host := []
  sched := []
  reads := []

end Sys2Proof.Machine
end

