-- ==== Sys2Proof/Machine/Flags.lean ====
section
/-! DEFINITION. The error codes, the register views of CTRL, STATUS and the W1C write, and the interrupt line
(10_state.md rules R32 to R35, R51; 60_exceptions.md rule R291). -/

namespace Sys2Proof.Machine

/-- The code of a command error (60_exceptions.md rule R291). -/
def errorCode : CmdError → BitVec 8
  | .illegalOp => 0x01
  | .reservedBits => 0x02
  | .range => 0x03
  | .length => 0x04
  | .noPoly => 0x05
  | .noTable => 0x06
  | .symbol => 0x07
  | .capacity => 0x08
  | .param => 0x09

/-- CTRL as the host reads it: reserved bits and SRST read 0 (10_state.md rule R32). -/
def Ctrl.toWord (c : Ctrl) : Word :=
  (0 : BitVec 21) ++ c.forceSub ++ c.forceTag ++ (0 : BitVec 1) ++ BitVec.ofBool c.forceEn ++ BitVec.ofBool c.irqEn
    ++ BitVec.ofBool c.harder

/-- The fields a CTRL write with bit 31 = 0 stores (10_state.md rule R33). -/
def Ctrl.ofWord (v : Word) : Ctrl where
  harder := v.getLsbD 0
  irqEn := v.getLsbD 1
  forceEn := v.getLsbD 2
  forceTag := v.extractLsb' 4 4
  forceSub := v.extractLsb' 8 3

/-- STATUS as the host reads it (10_state.md rule R34). -/
def Status.toWord (t : Status) (busy : Bool) : Word :=
  (0 : BitVec 8) ++ t.lastOp ++ t.errCode ++ (0 : BitVec 3) ++ BitVec.ofBool t.busErr ++ BitVec.ofBool t.ovr
    ++ BitVec.ofBool t.err ++ BitVec.ofBool t.done ++ BitVec.ofBool busy

/-- A host write of v to STATUS clears the bits 1 to 4 that v has set (10_state.md rule R35). -/
def Status.clearW1C (t : Status) (v : Word) : Status :=
  { t with
    done := t.done && !v.getLsbD 1
    err := t.err && !v.getLsbD 2
    ovr := t.ovr && !v.getLsbD 3
    busErr := t.busErr && !v.getLsbD 4 }

/-- The STATUS update of completion with a code (10_state.md rule R50, 60_exceptions.md rule R292). -/
def Status.complete (t : Status) (code : BitVec 8) : Status :=
  { t with done := true, err := t.err || code != 0, errCode := code }

/-- The STATUS update of acceptance of the command word v (10_state.md rule R49). -/
def Status.accept (t : Status) (v : Word) : Status :=
  { t with done := false, errCode := 0, lastOp := opField v }

/-- `STATUS.BUSY`, the mirror of ENG (10_state.md rule R46). -/
def State.busy (s : State) : Bool := s.eng = .busy

/-- The STATUS register of a state (10_state.md rule R34). -/
def State.statusWord (s : State) : Word := s.status.toWord s.busy

/-- The interrupt output, a level (10_state.md rule R51). -/
def State.irq (s : State) : Bool := s.ctrl.irqEn && s.status.done

end Sys2Proof.Machine
end

