-- ==== Sys2Proof/Machine/Operands.lean ====
section
/-! DEFINITION. Bit strings and their values (00_scope.md rules R9, R10), the conversions to result registers
(30_encoding.md rule R107), latched operands (rule R104) and command regions (20_memory.md rule R96). -/

namespace Sys2Proof.Machine

/-- `val(s)`: the first bit is the most significant (00_scope.md rule R10). -/
def val (s : Bits) : Nat := s.foldl (fun acc b => 2 * acc + b.toNat) 0

/-- `bstr_w(v)`, the w-bit string of value v (00_scope.md rule R10). -/
def bstr (w v : Nat) : Bits := (List.range w).map fun i => v.testBit (w - 1 - i)

/-- `hd(s, t)` for strings of equal length: how many positions differ (00_scope.md rule R9). -/
def hd (s t : Bits) : Nat := (List.zipWith (fun a b => xor a b) s t).count true

/-- `par(s)`, the XOR of all bits (00_scope.md rule R9). -/
def par (s : Bits) : Bool := s.foldl xor false

/-- `s[i .. i+n-1]` (00_scope.md rule R9). -/
def sub (s : Bits) (i n : Nat) : Bits := (s.drop i).take n

/-- The first `g` consecutive groups of `w` bits (41_bitutil.md rule R132). -/
def groups (w : Nat) : Nat → Bits → List Bits
  | 0, _ => []
  | g + 1, x => x.take w :: groups w g (x.drop w)

/-- The byte view of a region: consecutive 8-bit groups, the first bit of each most significant
(41_bitutil.md rule R142). -/
def bytes (nbytes : Nat) (x : Bits) : List (BitVec 8) := (groups 8 nbytes x).map fun b => BitVec.ofNat 8 (val b)

/-- A number as a register value; every number the rules write fits 32 bits (00_scope.md rules R11, R15). -/
def wordOf (n : Nat) : Word := BitVec.ofNat 32 n

/-- An error count or a position: the number, or NONE where there is none (30_encoding.md rule R107). -/
def optWord : Option Nat → Word
  | some n => wordOf n
  | none => noneWord

/-- A Boolean as a register value (30_encoding.md rule R107). -/
def boolWord (b : Bool) : Word := if b then 1 else 0

/-- `L_ARG[i]`, read as an unsigned integer (30_encoding.md rule R104). -/
def State.operand (s : State) (i : Fin 4) : Nat := (s.lArg[i]).toNat

/-- A bit region is in range, on unbounded integers (20_memory.md rule R96). -/
abbrev bitsInRange (a n : Nat) : Prop := a + n ≤ Config.bitmemBits

/-- A symbol region is in range (20_memory.md rule R96). -/
abbrev symsInRange (i n : Nat) : Prop := i + n ≤ Config.symmemSyms

end Sys2Proof.Machine
end

