-- ==== Sys2Proof/Machine/Ops.lean ====
section
/-! DEFINITION. The shared operations: memories with written marks, region reads, acceptance, completion with success or
with a command error, soft and hard reset, and whose turn it is. -/

namespace Sys2Proof.Machine

/-! ### Memories (10_state.md rules R42 to R45) -/

/-- The contents of a cell; nothing when its written mark is clear (10_state.md rule R45). -/
def Memory.read {α : Type} : Memory α → Nat → Option α
  | [], _ => none
  | (k, v) :: m, a => if k = a then some v else Memory.read m a

/-- The cells of a region from address a on. -/
def Memory.cells {α : Type} : Nat → List α → Memory α
  | _, [] => []
  | a, v :: vs => (a, v) :: Memory.cells (a + 1) vs

/-- Read `n` consecutive cells; the address of the first unwritten one where there is one. -/
def Memory.readSeq {α : Type} (m : Memory α) : Nat → Nat → Except Nat (List α)
  | _, 0 => .ok []
  | a, n + 1 =>
    match Memory.read m a with
    | none => .error a
    | some v =>
      match Memory.readSeq m (a + 1) n with
      | .ok vs => .ok (v :: vs)
      | .error e => .error e

/-- Write consecutive cells and set their written marks (`BITSET`, `SYMSET`, `OUT` of 00_scope.md rule R13, 10_state.md
rule R45): the cells below the region, the region, the cells above it. -/
def Memory.writeSeq {α : Type} (m : Memory α) (a : Nat) (vs : List α) : Memory α :=
  match vs with
  | [] => m
  | _ :: _ => m.filter (fun c => c.1 < a) ++ (Memory.cells a vs ++ m.filter fun c => a + vs.length ≤ c.1)

/-! ### Outcomes of a command (10_state.md rule R50) -/

/-- Everything a successful command writes, together and at completion (00_scope.md rule R14): RES0, RES1, … in order, one
region of BITMEM, one of SYMMEM, and OUTBUF from word 0. -/
structure Effect where
  res : List Word := []
  bits : Nat × Bits := (0, [])
  syms : Nat × List Sym := (0, [])
  out : List Word := []
  deriving DecidableEq, Repr

/-- The outcome of a command, computed from the latches and the memories (10_state.md rule R50). -/
inductive CmdResult where
  | success (e : Effect)
  | error (c : CmdError)
  /-- A cell with a clear written mark was read (10_state.md rule R45). -/
  | uninit (mem : MemKind) (addr : Nat)
  deriving DecidableEq, Repr

/-- `BITS(a, n)` handed on, or UNINIT (00_scope.md rule R13, 10_state.md rule R45). -/
def readBits (s : State) (a n : Nat) (k : Bits → CmdResult) : CmdResult :=
  match Memory.readSeq s.bitmem a n with
  | .ok x => k x
  | .error e => .uninit .bitmem e

/-- `SYM(i) .. SYM(i+n-1)` handed on, or UNINIT (00_scope.md rule R13, 10_state.md rule R45). -/
def readSyms (s : State) (i n : Nat) (k : List Sym → CmdResult) : CmdResult :=
  match Memory.readSeq s.symmem i n with
  | .ok x => k x
  | .error e => .uninit .symmem e

/-- Write RES0, RES1, … with the listed values; the others keep theirs (10_state.md rule R38). -/
def writeRes (res : Vector Word 8) (ws : List Word) : Vector Word 8 :=
  Vector.ofFn fun i => (ws[i.val]?).getD res[i]

/-- Completion with success (10_state.md rule R50). -/
def State.finish (s : State) (e : Effect) : State :=
  { s with
    res := writeRes s.res e.res
    bitmem := Memory.writeSeq s.bitmem e.bits.1 e.bits.2
    symmem := Memory.writeSeq s.symmem e.syms.1 e.syms.2
    outbuf := Memory.writeSeq s.outbuf 0 e.out
    status := s.status.complete 0
    eng := .idle }

/-- Completion with a command error: STATUS and ENG change, nothing else (60_exceptions.md rules R292, R294). This is the
block's whole reaction to an error; it takes no trap (rule R300). -/
def State.fail (s : State) (c : CmdError) : State :=
  { s with status := s.status.complete (errorCode c), eng := .idle }

/-- The completion step (10_state.md rule R50): success, a command error, or the fault UNINIT. -/
def complete (s : State) : CmdResult → Host.Outcome State Fault Refusal
  | .success e => .next (s.finish e)
  | .error c => .next (s.fail c)
  | .uninit m a => .fault (.uninit m a)

/-! ### Acceptance and resets -/

/-- The configuration fields latched at acceptance (10_state.md rule R49). -/
def Ctrl.latch (c : Ctrl) : CtrlLatch :=
  { harder := c.harder, forceEn := c.forceEn, forceTag := c.forceTag, forceSub := c.forceSub }

/-- Acceptance of the command word v (10_state.md rule R49). -/
def State.accept (s : State) (v : Word) : State :=
  { s with
    lCmd := v
    lArg := s.arg
    lCtrl := s.ctrl.latch
    eng := .busy
    status := s.status.accept v }

/-- The soft reset (70_reset_and_hazards.md rule R321): CTRL, STATUS, ARG and RES to 0, the memories kept. -/
def State.softReset (s : State) : State :=
  { s with
    ctrl := Ctrl.zero
    status := Status.zero
    arg := Vector.replicate 4 0
    res := Vector.replicate 8 0 }

/-- The hard reset (70_reset_and_hazards.md rule R320): the block's state is the reset state, and a command in flight is
abandoned. The host's own actions, the schedule and what was read stay (log entry 15). -/
def State.hardReset (s : State) : State :=
  { State.reset with host := s.host, sched := s.sched, reads := s.reads }

/-! ### Whose turn it is (10_state.md rule R30, 60_exceptions.md rule R302; log entry 1) -/

/-- The agent that moves next: the only one that can, or, when both can, the one `sched` names (the engine when it names
none); nobody when the engine is IDLE and no host action is left. -/
def State.mover (s : State) : Option Agent :=
  match s.eng, s.host with
  | .idle, [] => none
  | .idle, _ :: _ => some .host
  | .busy, [] => some .engine
  | .busy, _ :: _ => some (s.sched.headD .engine)

/-- Use up one choice of `sched` when both agents could move. -/
def State.takeTurn (s : State) : State :=
  match s.eng, s.host with
  | .busy, _ :: _ => { s with sched := s.sched.tail }
  | _, _ => s

end Sys2Proof.Machine
end

