-- ==== Sys2Proof/Machine/Params.lean ====
section
/-! DEFINITION. The OPEN parameters at work: generators, permutation tables, field parameters and candidate descriptors
(44_dispatch.md rules R245, R250 to R255); their constraints (00_scope.md rules R7, R8); and `params`, the parameters of
the chip at hand, of which nothing is known but the constraints. -/

namespace Sys2Proof.Machine

/-! ### Generators, tables and codes -/

/-- `POLY[slot]` as a polynomial (10_state.md rule R39). -/
def generator (p : Params) (slot : Fin 8) : Nat := (p.poly[slot]).toNat

/-- A slot is present iff its degree is at least 1 (10_state.md rule R39). -/
def generatorPresent (p : Params) (slot : Fin 8) : Bool := 1 ≤ deg (generator p slot)

/-- The table of a permutation family for a length; none when it is absent (41_bitutil.md rule R133). -/
def findTable (tables : List PermTable) (len : Nat) : Option PermTable := tables.find? fun t => t.perm.length = len

/-- The code RS8 (43_rs.md rule R212). -/
def rs8Code (p : Params) : RsCode :=
  { m := 8, nsym := Config.rs8Nsym, fcr := p.rs8Fcr, prim := p.rs8Prim, gen := p.rs8Gen }

/-- The code RS6 (43_rs.md rule R212). -/
def rs6Code (p : Params) : RsCode :=
  { m := 6, nsym := Config.rs6Nsym, fcr := Config.rs6Fcr, prim := p.rs6Prim, gen := p.rs6Gen }

/-! ### Candidate descriptors (44_dispatch.md rules R245, R250 to R255) -/

/-- Directions (44_dispatch.md rule R240). -/
inductive Direction where
  | dl | ul
  deriving DecidableEq, Repr

/-- How the region of a BCH check is de-interleaved (44_dispatch.md rule R245). -/
inductive Perm where
  | none | p2 | p3 | lcw
  deriving DecidableEq, Repr

/-- One BCH block `(boff, n, s, p)` of a check (44_dispatch.md rule R245). -/
structure Block where
  boff : Nat
  n : Nat
  slot : Fin 8
  pad : Option Nat
  deriving DecidableEq, Repr

/-- The three kinds of checks (44_dispatch.md rule R245). -/
inductive Check where
  | pat (off : Nat) (t : Bits)
  | bch (perm : Perm) (roff rlen : Nat) (blocks : List Block)
  | len (lo hi : Nat)
  deriving DecidableEq, Repr

/-- A candidate descriptor `(MINLEN, DIRS, checks)` (44_dispatch.md rule R245). -/
structure Candidate where
  minLen : Nat
  dirs : List Direction
  checks : List Check
  deriving DecidableEq, Repr

/-- The six candidates (44_dispatch.md rules R245, R256). -/
inductive Cand where
  | ms | tl | bc | lw | ra | aq
  deriving DecidableEq, Repr

/-- The candidates in precedence order (44_dispatch.md rule R256). -/
def precedence : List Cand := [.ms, .tl, .bc, .lw, .ra, .aq]

/-- The three BCH fields of the link-control word (44_dispatch.md rule R253). -/
def lcwBlocks (p : Params) : List Block :=
  [ { boff := 0, n := p.lcwW1, slot := p.lwS1, pad := none },
    { boff := p.lcwW1, n := p.lcwW2 + 1, slot := p.lwS2, pad := some p.lwPad },
    { boff := p.lcwW1 + p.lcwW2, n := p.lcwW3, slot := p.lwS3, pad := none } ]

/-- `CAND[X]` (44_dispatch.md rules R250 to R255). -/
def candidate (p : Params) : Cand → Candidate
  | .ms =>
    { minLen := p.msMin, dirs := [.dl, .ul]
      checks := .pat p.msOff (bstr 32 p.hdrMs.toNat) :: p.msLens.map fun l => .len l.1 l.2 }
  | .tl =>
    { minLen := p.tlMin, dirs := [.dl, .ul]
      checks := .pat p.tlOff (bstr 96 p.hdrTl.toNat) :: p.tlLens.map fun l => .len l.1 l.2 }
  | .bc =>
    { minLen := p.bcMin, dirs := [.dl]
      checks :=
        [ .bch .none p.bcHoff 6 [{ boff := 0, n := 6, slot := 0, pad := none }],
          .bch .p2 p.bcRoff p.bcRlen
            [ { boff := p.bcB0, n := 31, slot := 2, pad := none },
              { boff := p.bcB1, n := 31, slot := 2, pad := none } ] ] }
  | .lw =>
    { minLen := p.lwMin, dirs := [.dl, .ul], checks := [.bch .lcw p.lwOff 46 (lcwBlocks p)] }
  | .ra =>
    { minLen := p.raMin, dirs := [.dl]
      checks :=
        [ .bch .p3 p.raRoff p.raRlen
            [ { boff := p.raB0, n := 31, slot := 2, pad := none },
              { boff := p.raB1, n := 31, slot := 2, pad := none },
              { boff := p.raB2, n := 31, slot := 2, pad := none } ] ] }
  | .aq => { minLen := p.aqLo, dirs := [.ul], checks := [.len p.aqLo p.aqHi] }

/-- The permutation a BCH check names, for its region length; none when its table is absent (44_dispatch.md rule R245). -/
def permFor (p : Params) (perm : Perm) (rlen : Nat) : Option (List Nat) :=
  match perm with
  | .none => some (List.range rlen)
  | .p2 => (findTable p.perm2 rlen).map (·.perm)
  | .p3 => (findTable p.perm3 rlen).map (·.perm)
  | .lcw => if rlen = 46 then some p.permLcw else none

/-! ### Constraints (00_scope.md rules R7, R8; 44_dispatch.md rules R245, R260) -/

/-- A bijection on 0..L-1, as a list of length L. -/
def isBijection (perm : List Nat) : Bool :=
  perm.Nodup && perm.all (fun j => j < perm.length) && (List.range perm.length).all fun j => perm.contains j

/-- A table with `k` streams whose lengths sum to L (41_bitutil.md rule R133). -/
def tableOk (k : Nat) (t : PermTable) : Bool :=
  isBijection t.perm && t.streams.length = k && t.streams.sum = t.perm.length

/-- Slots 0 to 3 are generators, slot 2 of degree at most 30; slots 4 to 7 are 0 or generators (00_scope.md rule R7). -/
def polysOk (p : Params) : Bool :=
  generatorPresent p 0 && generatorPresent p 1 && generatorPresent p 2 && generatorPresent p 3
    && deg (generator p 2) ≤ 30
    && [4, 5, 6, 7].all fun slot => generator p slot = 0 || generatorPresent p slot

/-- `a` is an element of multiplicative order `2^m - 1`, that is a primitive element (43_rs.md rule R211). -/
def primitiveElement (f : RsCode) (a : Nat) : Bool :=
  a < 2 ^ f.m && (gfPowers f a a (f.n - 1)).all (· ≠ 1) && (gfPowers f a a f.n).getLast? = some 1

/-- PRIM has degree m and z is a primitive element modulo it, so PRIM is primitive; GEN is a primitive element
(00_scope.md rule R7, 43_rs.md rules R210, R211). -/
def rsCodeOk (f : RsCode) : Bool := deg f.prim = f.m && primitiveElement f 2 && primitiveElement f f.gen

/-- Access patterns of length 1..64, trailing patterns of length 0..64 (00_scope.md rule R7). -/
def patternsOk (p : Params) : Bool :=
  [p.accDl, p.accUl, p.accNxdl, p.accNxul].all (fun t => 1 ≤ t.length && t.length ≤ 64)
    && p.leadout.length ≤ 64 && p.filler.length ≤ 64

/-- A block decodes with a present generator of degree below n and lies in its region (44_dispatch.md rule R245). -/
def blockOk (p : Params) (rlen : Nat) (b : Block) : Bool :=
  generatorPresent p b.slot && deg (generator p b.slot) < b.n &&
    match b.pad with
    | none => b.boff + b.n ≤ rlen
    | some q => q ≤ b.n - 1 && b.boff + b.n - 1 ≤ rlen

/-- The constraints on one check (44_dispatch.md rule R245). -/
def checkOk (p : Params) (minLen : Nat) : Check → Bool
  | .pat off t => off + t.length ≤ minLen
  | .bch perm roff rlen blocks =>
    roff + rlen ≤ minLen && (permFor p perm rlen).isSome && blocks.all (blockOk p rlen)
  | .len _ _ => true

/-- The constraints on one candidate (44_dispatch.md rule R245). -/
def candidateOk (p : Params) (c : Candidate) : Bool := c.checks.all (checkOk p c.minLen)

/-- The frame-type field lies in the data part of its field (44_dispatch.md rule R260). -/
def frameTypeOk (p : Params) : Bool :=
  match (lcwBlocks p)[p.ftField.val]? with
  | some b => p.ftOff + 2 ≤ b.n - deg (generator p b.slot)
  | none => false

/-- A configuration of this block: every constraint of the table of 00_scope.md rule R7 and of 44_dispatch.md rules R245
and R260. Those on HDR_MS, HDR_TL, the checksum functions, LCW_FT_MAP and the shapes of the candidates hold by the types
and by construction. -/
def paramsValid (p : Params) : Bool :=
  p.base % 0x400 = 0
    && polysOk p
    && p.perm2.all (tableOk 2) && p.perm3.all (tableOk 3)
    && (p.permLcw.length = 46 && isBijection p.permLcw)
    && (1 ≤ p.lcwW1 && 1 ≤ p.lcwW2 && 1 ≤ p.lcwW3 && p.lcwW1 + p.lcwW2 + p.lcwW3 ≤ 46)
    && (rsCodeOk (rs8Code p) && p.rs8Fcr ≤ 254)
    && rsCodeOk (rs6Code p)
    && patternsOk p
    && precedence.all (fun x => candidateOk p (candidate p x))
    && frameTypeOk p

/-! ### TESTCFG and the parameters at hand -/

/-- The bit positions of two-bit symbols, in the order listed. -/
def symbolBits (ts : List Nat) : List Nat := ts.flatMap fun t => [2 * t, 2 * t + 1]

/-- PERM2 of TESTCFG (95_test_vectors.md section 0). -/
def testPerm2 (len : Nat) : PermTable :=
  let ts := (List.range (len / 2)).reverse
  { perm := symbolBits (ts.filter (· % 2 = 1)) ++ symbolBits (ts.filter (· % 2 = 0)), streams := [len / 2, len / 2] }

/-- PERM3 of TESTCFG (95_test_vectors.md section 0). -/
def testPerm3 (len : Nat) : PermTable :=
  let q3 := len / 2
  let ts := (List.range q3).reverse
  { perm := (List.range 3).flatMap fun k => symbolBits (ts.filter (· % 3 = (q3 - 1 - k) % 3))
    streams := [len / 3, len / 3, len / 3] }

/-- TESTCFG of 95_test_vectors.md section 0, with the permutation tables of the lengths its vectors use. It is the spec's
own test choice and not the hardware's configuration; the model uses it only where `Config.raw` is no configuration of
this block (log entry 8). -/
def testCfg : Params where
  base := 0
  poly := #v[0x1D, 0x769, 0x4B7, 0xDD9, 0x1D, 0x1D1, 0x29, 0]
  perm2 := [8, 12, 64].map testPerm2
  perm3 := [6, 12, 96].map testPerm3
  permLcw := [39, 38, 35, 34, 31, 30, 27, 26, 23, 22, 19, 18, 15, 14, 11, 10, 7, 6, 3, 2, 40, 37, 36, 33, 32, 29, 28, 25,
    24, 21, 20, 17, 16, 13, 12, 9, 8, 5, 4, 1, 0, 45, 44, 43, 42, 41]
  lcwW1 := 7
  lcwW2 := 13
  lcwW3 := 26
  cksum8 := fun bs => BitVec.ofNat 8 (bs.map BitVec.toNat).sum
  cksum16 := fun bs => BitVec.ofNat 16 (bs.map BitVec.toNat).sum
  rs8Prim := 0x11D
  rs8Gen := 2
  rs8Fcr := 0
  rs6Prim := 0x43
  rs6Gen := 2
  accDl := bstr 12 0xF0F
  accUl := bstr 12 0x0F0
  accNxdl := bstr 12 0xCCC
  accNxul := bstr 12 0x333
  leadout := bstr 12 0xFF0
  filler := bstr 12 0xAAA
  hdrMs := 0x5A5A0FF0
  hdrTl := 0x0123456789ABCDEF0F1E2D3C
  msMin := 64
  msOff := 0
  msLens := []
  tlMin := 96
  tlOff := 0
  tlLens := []
  bcMin := 70
  bcHoff := 0
  bcRoff := 6
  bcRlen := 64
  bcB0 := 0
  bcB1 := 32
  lwMin := 46
  lwOff := 0
  lwS1 := 4
  lwS2 := 5
  lwS3 := 6
  lwPad := 13
  raMin := 96
  raRoff := 0
  raRlen := 96
  raB0 := 0
  raB1 := 32
  raB2 := 64
  aqLo := 24
  aqHi := 96
  ftField := 0
  ftOff := 0
  ftMap := #v[.vo, .da, .u3, .sy]

/-- The parameters of the chip at hand: any configuration of this block, and none in particular. `Config.raw` has no value
to look at; where it breaks a constraint it is no configuration of this block (00_scope.md rule R8) and TESTCFG, which is
one, stands in, so that `paramsValid params` is a theorem and nothing more about `params` is (log entry 8). -/
def params : Params := if paramsValid Config.raw then Config.raw else testCfg

end Sys2Proof.Machine
end

