-- ==== Sys2Proof/Machine/Bus.lean ====
section
/-! DEFINITION. The host bus: the register map (10_state.md section 2), the window packings, refused, ignored and dropped
accesses (20_memory.md rules R80 to R98). -/

namespace Sys2Proof.Machine

/-! ### The map -/

/-- What stands at a word of the window (10_state.md section 2). -/
inductive Port where
  | id | ctrl | status | cmd
  | arg (i : Fin 4)
  | res (i : Fin 8)
  | poly (i : Fin 8)
  | caps
  | reserved
  | bitWin (j : Nat)
  | symWin (j : Nat)
  | outWin (j : Nat)
  deriving DecidableEq, Repr

/-- The port of an aligned offset (10_state.md section 2 and rule R41). -/
def portOf (off : Offset) : Port :=
  let w := off.toNat / 4
  if w = 0 then .id
  else if w = 1 then .ctrl
  else if w = 2 then .status
  else if w = 3 then .cmd
  else if w < 8 then .arg (Fin.ofNat 4 (w - 4))
  else if w < 16 then .res (Fin.ofNat 8 (w - 8))
  else if w < 24 then .poly (Fin.ofNat 8 (w - 16))
  else if w = 24 then .caps
  else if w < 64 then .reserved
  else if w < 128 then (if 32 * (w - 64) < Config.bitmemBits then .bitWin (w - 64) else .reserved)
  else if w < 192 then .symWin (w - 128)
  else .outWin (w - 192)

/-- The bus address of an offset (20_memory.md rules R80, R81). -/
def busAddress (p : Params) (off : Offset) : Nat := p.base + off.toNat

/-- The offset of a bus address inside the window; none for an address that is not the block's (20_memory.md rule R81). -/
def busOffset (p : Params) (addr : Nat) : Option Offset :=
  if p.base ≤ addr ∧ addr < p.base + 0x400 then some (BitVec.ofNat 10 (addr - p.base)) else none

/-! ### Packings -/

/-- The four symbols of a SYMMEM window word, lowest-numbered least significant (20_memory.md rule R84). -/
def symsOfWord (v : Word) : List Sym :=
  [v.extractLsb' 0 8, v.extractLsb' 8 8, v.extractLsb' 16 8, v.extractLsb' 24 8]

/-- A SYMMEM window word from its symbols (20_memory.md rule R84). -/
def wordOfSyms (ss : List Sym) : Word := wordOf (ss.foldr (fun x acc => x.toNat + 256 * acc) 0)

/-- CAPS (10_state.md rule R40). -/
def capsWord (p : Params) : Word :=
  let mask := (List.finRange 8).foldl (fun acc i => acc + if generatorPresent p i then 2 ^ i.val else 0) 0
  BitVec.ofNat 8 mask ++ BitVec.ofNat 8 Config.nMax ++ BitVec.ofNat 16 Config.bitmemBits

/-! ### Writes -/

/-- The refusal of an access (20_memory.md rules R85, R86). -/
def State.refuse (s : State) : State := { s with status := { s.status with busErr := true } }

/-- The drop of a write while BUSY (20_memory.md rule R98). -/
def State.drop (s : State) : State := { s with status := { s.status with ovr := true } }

/-- The write takes effect only while the engine is IDLE (20_memory.md rule R98). -/
def State.whenIdle (s t : State) : State := if s.busy then s.drop else t

/-- A write of CTRL while IDLE (10_state.md rule R33). -/
def State.writeCtrl (s : State) (v : Word) : State :=
  if v.getLsbD 31 then s.softReset else { s with ctrl := Ctrl.ofWord v }

/-- A write of BITMEM window word j (20_memory.md rule R83). -/
def State.writeBitWord (s : State) (j : Nat) (v : Word) : State :=
  { s with bitmem := Memory.writeSeq s.bitmem (32 * j) (bstr 32 v.toNat) }

/-- A write of SYMMEM window word j (20_memory.md rule R84). -/
def State.writeSymWord (s : State) (j : Nat) (v : Word) : State :=
  { s with symmem := Memory.writeSeq s.symmem (4 * j) (symsOfWord v) }

/-- `MemWrite(BASE + off, size, v)` (20_memory.md rules R80, R85 to R87, R98). -/
def hostWrite (s : State) (off : Offset) (size : Nat) (v : Word) : State :=
  if size ≠ 4 ∨ off.toNat % 4 ≠ 0 then s.refuse
  else
    match portOf off with
    | .reserved => s.refuse
    | .id | .res _ | .poly _ | .caps | .outWin _ => s
    | .status => { s with status := s.status.clearW1C v }
    | .ctrl => s.whenIdle (s.writeCtrl v)
    | .cmd => s.whenIdle (s.accept v)
    | .arg i => s.whenIdle { s with arg := s.arg.set i v }
    | .bitWin j => s.whenIdle (s.writeBitWord j v)
    | .symWin j => s.whenIdle (s.writeSymWord j v)

/-! ### Reads -/

/-- The value an aligned word read returns (10_state.md section 2, 20_memory.md rules R83, R84, R86, R87), or UNINIT where
the word covers a cell with a clear written mark (10_state.md rule R45). -/
def portValue (p : Params) (s : State) : Port → Except Fault Word
  | .id => .ok Config.idValue
  | .ctrl => .ok s.ctrl.toWord
  | .status => .ok s.statusWord
  | .cmd => .ok 0
  | .arg i => .ok s.arg[i]
  | .res i => .ok s.res[i]
  | .poly i => .ok p.poly[i]
  | .caps => .ok (capsWord p)
  | .reserved => .ok 0
  | .bitWin j =>
    match Memory.readSeq s.bitmem (32 * j) 32 with
    | .ok x => .ok (wordOf (val x))
    | .error a => .error (.uninit .bitmem a)
  | .symWin j =>
    match Memory.readSeq s.symmem (4 * j) 4 with
    | .ok x => .ok (wordOfSyms x)
    | .error a => .error (.uninit .symmem a)
  | .outWin j =>
    match Memory.read s.outbuf j with
    | some w => .ok w
    | none => .error (.uninit .outbuf j)

/-- `MemRead(BASE + off, size)`: the value returned and the state after (20_memory.md rules R80, R85, R86, R88). -/
def hostRead (p : Params) (s : State) (off : Offset) (size : Nat) : Except Fault (Word × State) :=
  if size ≠ 4 ∨ off.toNat % 4 ≠ 0 ∨ portOf off = .reserved then .ok (0, s.refuse)
  else
    match portValue p s (portOf off) with
    | .ok v => .ok (v, s)
    | .error e => .error e

end Sys2Proof.Machine
end

