-- ==== Sys2Proof/Machine/Bch.lean ====
section
/-! DEFINITION. The BCH unit: remainder, flip search, pad decoding, parity blocks (42_bch.md rules R170 to R178) and the
five commands (rules R176 to R181). -/

namespace Sys2Proof.Machine

/-! ### Functions -/

/-- `rem(g, c)` (42_bch.md rule R170); `poly(c) = val(c)` (00_scope.md rule R12). -/
def rem (g : Nat) (c : Bits) : Nat := polyMod g (val c)

/-- `pos(j)` (42_bch.md rule R172). -/
def flipPos (ord : FlipOrder) (n j : Nat) : Nat :=
  match ord with
  | .coeff => n - 1 - j
  | .string => j

/-- `flip(c, i)` (42_bch.md rule R172). -/
def flip (c : Bits) (i : Nat) : Bits := c.modify i not

/-- The flips tried, in order, each as the list of string positions inverted: none, every single position, every pair
`j1 < j2` in lexicographic order (42_bch.md rules R172, R173). -/
def flipSets (ord : FlipOrder) (n : Nat) : List (List Nat) :=
  [] :: ((List.range n).map (fun j => [flipPos ord n j]) ++
    (List.range n).flatMap fun j1 =>
      (List.range' (j1 + 1) (n - 1 - j1)).map fun j2 => [flipPos ord n j1, flipPos ord n j2])

/-- What a decode gives: the error count (none for -1), the corrected codeword, and the positions flipped, the smaller
first (42_bch.md rule R173). -/
structure BchDecoded where
  errs : Option Nat
  word : Bits
  p1 : Option Nat
  p2 : Option Nat
  deriving DecidableEq, Repr

/-- `bch_decode(g, c)`: the first flip that gives a valid codeword wins; the input unchanged with -1 when none does
(42_bch.md rules R171, R173). -/
def bchDecode (ord : FlipOrder) (g : Nat) (c : Bits) : BchDecoded :=
  match (flipSets ord c.length).find? fun ps => rem g (ps.foldl flip c) = 0 with
  | some [] => { errs := some 0, word := c, p1 := none, p2 := none }
  | some [i] => { errs := some 1, word := flip c i, p1 := some i, p2 := none }
  | some (i :: j :: _) =>
    { errs := some 2, word := flip (flip c i) j, p1 := some (min i j), p2 := some (max i j) }
  | none => { errs := none, word := c, p1 := none, p2 := none }

/-- The candidate with the pad bit b at position p (42_bch.md rule R175). -/
def padded (x : Bits) (p : Nat) (b : Bool) : Bits := x.take p ++ b :: x.drop p

/-- `rank(e)`: an uncorrectable candidate ranks below every correctable one (42_bch.md rule R175). -/
def rank (e : Option Nat) : Nat := e.getD 3

/-- `pad_decode(g, x, p)`: the result and the pad bit chosen, 0 on a tie (42_bch.md rule R175). -/
def padDecode (ord : FlipOrder) (g : Nat) (x : Bits) (p : Nat) : BchDecoded × Bool :=
  let r0 := bchDecode ord g (padded x p false)
  let r1 := bchDecode ord g (padded x p true)
  if rank r0.errs ≤ rank r1.errs then (r0, false) else (r1, true)

/-- What the 32-bit block function gives; `parity` is 0 for a match or not evaluated, 1 for a mismatch flagged, 2 for a
mismatch counted (42_bch.md rule R178). -/
structure BlockDecoded where
  errs : Option Nat
  word : Bits
  p1 : Option Nat
  p2 : Option Nat
  parity : Nat
  deriving DecidableEq, Repr

/-- `block32(g, blk, h)` (42_bch.md rule R178). -/
def block32 (ord : FlipOrder) (g : Nat) (blk : Bits) (harder : Bool) : BlockDecoded :=
  let r := bchDecode ord g (blk.take 31)
  let q := blk.getD 31 false
  match r.errs with
  | none => { errs := none, word := blk, p1 := none, p2 := none, parity := 0 }
  | some e =>
    if xor (par r.word) q = false then { errs := some e, word := r.word ++ [q], p1 := r.p1, p2 := r.p2, parity := 0 }
    else if harder = false then
      { errs := some e, word := r.word ++ [q], p1 := r.p1, p2 := r.p2, parity := 1 }
    else { errs := some (e + 1), word := r.word ++ [!q], p1 := r.p1, p2 := r.p2, parity := 2 }

/-- What decoding a sequence of blocks gives (42_bch.md rule R181). -/
structure SeqDecoded where
  out : Bits
  good : Nat
  total : Nat
  flagged : Nat
  trunc : Bool
  deriving DecidableEq, Repr

/-- The loop of BCH_BLOCKSEQ: it ends at the first uncorrectable block, which is copied with all after it
(42_bch.md rule R181). -/
def blockSeq (ord : FlipOrder) (g : Nat) (harder : Bool) : List Bits → SeqDecoded
  | [] => { out := [], good := 0, total := 0, flagged := 0, trunc := false }
  | blk :: rest =>
    let r := block32 ord g blk harder
    match r.errs with
    | none => { out := (blk :: rest).flatten, good := 0, total := 0, flagged := 0, trunc := true }
    | some e =>
      let q := blockSeq ord g harder rest
      { out := r.word ++ q.out
        good := q.good + 1
        total := q.total + e
        flagged := q.flagged + (if r.parity = 1 then 1 else 0)
        trunc := q.trunc }

/-! ### Commands -/

/-- The slot a SEL value names; none for the reserved values 8..15 (30_encoding.md rule R102). -/
def slotOf (sel : BitVec 4) : Option (Fin 8) :=
  if h : sel.toNat < 8 then some ⟨sel.toNat, h⟩ else none

/-- The common checks of the BCH commands: RESERVED_BITS for a reserved SEL, NO_POLY for an absent slot; then the generator
is handed on (42_bch.md introduction, 10_state.md rule R39). -/
def withPoly (p : Params) (sel : BitVec 4) (k : Nat → CmdResult) : CmdResult :=
  match slotOf sel with
  | none => .error .reservedBits
  | some slot => if generatorPresent p slot then k (generator p slot) else .error .noPoly

/-- `val` of the first 32 bits, at most, of the data part of a codeword with k data bits (42_bch.md rules R174, R177). -/
def dataWord (c : Bits) (k : Nat) : Word := wordOf (val (c.take (min k 32)))

/-- BCH_DIV (42_bch.md rule R176). -/
def bchDivResult (p : Params) (sel : BitVec 4) (s : State) : CmdResult :=
  withPoly p sel fun g =>
    let a := s.operand 0
    let n := s.operand 1
    if n < 1 ∨ n > Config.nMax then .error .length
    else if ¬ bitsInRange a n then .error .range
    else readBits s a n fun c => .success { res := [wordOf (rem g c), wordOf (deg g)] }

def execBchDiv (sel : BitVec 4) (s : State) : Host.Outcome State Fault Refusal :=
  complete s (bchDivResult params sel s)

/-- BCH_DECODE (42_bch.md rule R177). -/
def bchDecodeResult (p : Params) (ord : FlipOrder) (sel : BitVec 4) (s : State) : CmdResult :=
  withPoly p sel fun g =>
    let src := s.operand 0
    let n := s.operand 1
    let dst := s.operand 2
    if n ≤ deg g ∨ n > Config.nMax then .error .length
    else if ¬ bitsInRange src n ∨ ¬ bitsInRange dst n then .error .range
    else readBits s src n fun c =>
      let r := bchDecode ord g c
      .success
        { res := [optWord r.errs, optWord r.p1, optWord r.p2, wordOf (n - deg g), dataWord r.word (n - deg g),
            wordOf (rem g c)]
          bits := (dst, r.word) }

def execBchDecode (sel : BitVec 4) (s : State) : Host.Outcome State Fault Refusal :=
  complete s (bchDecodeResult params Config.flipOrder sel s)

/-- BCH_DECODE2P (42_bch.md rule R179). -/
def bchDecode2pResult (p : Params) (ord : FlipOrder) (sel : BitVec 4) (s : State) : CmdResult :=
  withPoly p sel fun g =>
    let src := s.operand 0
    let n := s.operand 1
    let dst := s.operand 2
    let pad := s.operand 3
    if n ≤ deg g ∨ n > Config.nMax ∨ pad > n - 1 then .error .length
    else if ¬ bitsInRange src (n - 1) ∨ ¬ bitsInRange dst n then .error .range
    else readBits s src (n - 1) fun x =>
      let r := (padDecode ord g x pad).1
      let b := (padDecode ord g x pad).2
      .success
        { res := [optWord r.errs, optWord r.p1, optWord r.p2, wordOf (n - deg g), dataWord r.word (n - deg g),
            wordOf (rem g (padded x pad b)), boolWord b]
          bits := (dst, r.word) }

def execBchDecode2p (sel : BitVec 4) (s : State) : Host.Outcome State Fault Refusal :=
  complete s (bchDecode2pResult params Config.flipOrder sel s)

/-- BCH_BLOCK32 (42_bch.md rule R180). -/
def bchBlock32Result (p : Params) (ord : FlipOrder) (sel : BitVec 4) (s : State) : CmdResult :=
  withPoly p sel fun g =>
    let src := s.operand 0
    let dst := s.operand 1
    if deg g ≥ 31 then .error .length
    else if ¬ bitsInRange src 32 ∨ ¬ bitsInRange dst 32 then .error .range
    else readBits s src 32 fun blk =>
      let r := block32 ord g blk s.lCtrl.harder
      .success
        { res := [optWord r.errs, wordOf r.parity, optWord r.p1, optWord r.p2,
            wordOf (val (r.word.take (31 - deg g))), wordOf (rem g (blk.take 31))]
          bits := (dst, r.word) }

def execBchBlock32 (sel : BitVec 4) (s : State) : Host.Outcome State Fault Refusal :=
  complete s (bchBlock32Result params Config.flipOrder sel s)

/-- BCH_BLOCKSEQ (42_bch.md rule R181). -/
def bchBlockseqResult (p : Params) (ord : FlipOrder) (sel : BitVec 4) (s : State) : CmdResult :=
  withPoly p sel fun g =>
    let src := s.operand 0
    let nb := s.operand 1
    let dst := s.operand 2
    if deg g ≥ 31 ∨ nb > 64 then .error .length
    else if ¬ bitsInRange src (32 * nb) ∨ ¬ bitsInRange dst (32 * nb) then .error .range
    else readBits s src (32 * nb) fun x =>
      let r := blockSeq ord g s.lCtrl.harder (groups 32 nb x)
      .success
        { res := [wordOf r.good, wordOf r.total, wordOf r.flagged, wordOf (32 * r.good), boolWord r.trunc]
          bits := (dst, r.out) }

def execBchBlockseq (sel : BitVec 4) (s : State) : Host.Outcome State Fault Refusal :=
  complete s (bchBlockseqResult params Config.flipOrder sel s)

end Sys2Proof.Machine
end

