-- ==== Sys2Proof/Machine/BitUtil.lean ====
section
/-! DEFINITION. The bit slicer and field extractor commands (41_bitutil.md). Each command is a function from the latched
state to its outcome, with the OPEN parameters as an argument, and a meaning that completes with that outcome. -/

namespace Sys2Proof.Machine

/-! ### Extraction and slicing -/

/-- EXTRACT (41_bitutil.md rule R131). -/
def extractResult (s : State) : CmdResult :=
  let a := s.operand 0
  let w := s.operand 1
  if w < 1 ∨ w > 32 then .error .length
  else if ¬ bitsInRange a w then .error .range
  else readBits s a w fun x => .success { res := [wordOf (val x)] }

def execExtract (s : State) : Host.Outcome State Fault Refusal := complete s (extractResult s)

/-- SLICE (41_bitutil.md rule R132). -/
def sliceResult (s : State) : CmdResult :=
  let a := s.operand 0
  let len := s.operand 1
  let w := s.operand 2
  if w < 1 ∨ w > 32 then .error .length
  else if ¬ bitsInRange a len then .error .range
  else if len / w > Config.outbufWords then .error .capacity
  else readBits s a len fun x =>
    .success
      { res := [wordOf (len / w), wordOf (val (x.drop (len / w * w))), wordOf (len % w)]
        out := (groups w (len / w) x).map fun y => wordOf (val y) }

def execSlice (s : State) : Host.Outcome State Fault Refusal := complete s (sliceResult s)

/-! ### Interleave and de-interleave -/

/-- De-interleaving: `y[i] = x[P(i)]` (41_bitutil.md rule R133). -/
def deinterleave (perm : List Nat) (x : Bits) : Bits := perm.map fun j => x.getD j false

/-- Interleaving: `x[P(i)] = y[i]`; for a bijection, bit j of x is bit i of y for the i with `P(i) = j`
(41_bitutil.md rule R133). -/
def interleave (perm : List Nat) (y : Bits) : Bits :=
  (List.range perm.length).map fun j => y.getD (perm.idxOf j) false

/-- The shared body of the 2-way and 3-way commands (41_bitutil.md rules R134, R135, R137, R138). -/
def permuteResult (tables : List PermTable) (f : List Nat → Bits → Bits) (s : State) : CmdResult :=
  let src := s.operand 0
  let dst := s.operand 1
  let len := s.operand 2
  if ¬ bitsInRange src len ∨ ¬ bitsInRange dst len then .error .range
  else
    match findTable tables len with
    | none => .error .noTable
    | some t => readBits s src len fun x => .success { res := t.streams.map wordOf, bits := (dst, f t.perm x) }

/-- The shared body of the 46-bit link-control-word commands (41_bitutil.md rules R136, R139). -/
def permuteLcwResult (p : Params) (f : List Nat → Bits → Bits) (s : State) : CmdResult :=
  let src := s.operand 0
  let dst := s.operand 1
  if s.operand 2 ≠ 46 then .error .length
  else if ¬ bitsInRange src 46 ∨ ¬ bitsInRange dst 46 then .error .range
  else readBits s src 46 fun x =>
    .success { res := [wordOf p.lcwW1, wordOf p.lcwW2, wordOf p.lcwW3], bits := (dst, f p.permLcw x) }

/-- DEINT2 (41_bitutil.md rule R134). -/
def execDeint2 (s : State) : Host.Outcome State Fault Refusal :=
  complete s (permuteResult params.perm2 deinterleave s)

/-- DEINT3 (41_bitutil.md rule R135). -/
def execDeint3 (s : State) : Host.Outcome State Fault Refusal :=
  complete s (permuteResult params.perm3 deinterleave s)

/-- DEINTLCW (41_bitutil.md rule R136). -/
def execDeintlcw (s : State) : Host.Outcome State Fault Refusal :=
  complete s (permuteLcwResult params deinterleave s)

/-- INT2 (41_bitutil.md rule R137). -/
def execInt2 (s : State) : Host.Outcome State Fault Refusal :=
  complete s (permuteResult params.perm2 interleave s)

/-- INT3 (41_bitutil.md rule R138). -/
def execInt3 (s : State) : Host.Outcome State Fault Refusal :=
  complete s (permuteResult params.perm3 interleave s)

/-- INTLCW (41_bitutil.md rule R139). -/
def execIntlcw (s : State) : Host.Outcome State Fault Refusal :=
  complete s (permuteLcwResult params interleave s)

/-! ### Hamming distance and checksums -/

/-- HAMMING (41_bitutil.md rule R141). -/
def hammingResult (s : State) : CmdResult :=
  let a := s.operand 0
  let b := s.operand 1
  let len := s.operand 2
  if ¬ bitsInRange a len ∨ ¬ bitsInRange b len then .error .range
  else readBits s a len fun x => readBits s b len fun y => .success { res := [wordOf (hd x y)] }

def execHamming (s : State) : Host.Outcome State Fault Refusal := complete s (hammingResult s)

/-- The shared body of the checksum commands (41_bitutil.md rules R142 to R144). -/
def checksumResult (f : List (BitVec 8) → Nat) (s : State) : CmdResult :=
  let a := s.operand 0
  let nbytes := s.operand 1
  if ¬ bitsInRange a (8 * nbytes) then .error .range
  else readBits s a (8 * nbytes) fun x => .success { res := [wordOf (f (bytes nbytes x))] }

/-- CKSUM8 (41_bitutil.md rule R143). -/
def execCksum8 (s : State) : Host.Outcome State Fault Refusal :=
  complete s (checksumResult (fun bs => (params.cksum8 bs).toNat) s)

/-- CKSUM16 (41_bitutil.md rule R144). -/
def execCksum16 (s : State) : Host.Outcome State Fault Refusal :=
  complete s (checksumResult (fun bs => (params.cksum16 bs).toNat) s)

end Sys2Proof.Machine
end

