-- ==== Sys2Proof/Machine/Control.lean ====
section
/-! DEFINITION. The control command (40_control.md). -/

namespace Sys2Proof.Machine

/-- NOP completes with success and writes nothing (40_control.md rule R120). -/
def execNop (s : State) : Host.Outcome State Fault Refusal := complete s (.success {})

end Sys2Proof.Machine
end

