-- ==== Sys2Proof/Machine/FrameDispatch.lean ====
section
/-! DEFINITION. The dispatch unit: access detection, trailer stripping, the candidate checks and classification
(44_dispatch.md rules R240 to R263). -/

namespace Sys2Proof.Machine

/-! ### Result codes (44_dispatch.md rule R240) -/

/-- Access kinds. -/
inductive AccessKind where
  | dl | ul | nxdl | nxul
  deriving DecidableEq, Repr

/-- Variant tags. -/
inductive Variant where
  | rejected | ms | tl | bc | lw | ra | aq | sy | nx
  deriving DecidableEq, Repr

/-- Reasons. -/
inductive Reason where
  | ok | noAccess | tooShort | noCandidate
  deriving DecidableEq, Repr

/-- Trailer kinds. -/
inductive Trailer where
  | none | filler | leadout
  deriving DecidableEq, Repr

def AccessKind.code : AccessKind → Nat
  | .dl => 0 | .ul => 1 | .nxdl => 2 | .nxul => 3

def Direction.code : Direction → Nat
  | .dl => 0 | .ul => 1

def Variant.code : Variant → Nat
  | .rejected => 0 | .ms => 1 | .tl => 2 | .bc => 3 | .lw => 4 | .ra => 5 | .aq => 6 | .sy => 7 | .nx => 8

def subKindCode : SubKind → Nat
  | .none => 0 | .vo => 1 | .ip => 2 | .da => 3 | .u3 => 4 | .sy => 5 | .unknown => 6

def Reason.code : Reason → Nat
  | .ok => 0 | .noAccess => 1 | .tooShort => 2 | .noCandidate => 3

def Trailer.code : Trailer → Nat
  | .none => 0 | .filler => 1 | .leadout => 2

/-- The direction of an access kind: DL for DL and NXDL, UL for UL and NXUL (44_dispatch.md rule R240). -/
def AccessKind.direction : AccessKind → Direction
  | .dl | .nxdl => .dl
  | .ul | .nxul => .ul

/-- The tag of a winning candidate (44_dispatch.md rules R240, R256). -/
def candVariant : Cand → Variant
  | .ms => .ms | .tl => .tl | .bc => .bc | .lw => .lw | .ra => .ra | .aq => .aq

/-! ### Access detection (44_dispatch.md rule R241) -/

/-- `ACC[k]`. -/
def accessPattern (p : Params) : AccessKind → Bits
  | .dl => p.accDl
  | .ul => p.accUl
  | .nxdl => p.accNxdl
  | .nxul => p.accNxul

/-- The access kinds in the order of the source's list. -/
def accessKinds : List AccessKind := [.dl, .ul, .nxdl, .nxul]

/-- An element of least distance, the earliest among equals. -/
def nearest {α : Type} : List (Nat × α) → Option (Nat × α)
  | [] => none
  | x :: xs =>
    match nearest xs with
    | none => some x
    | some y => if x.1 ≤ y.1 then some x else some y

/-- What access detection gives: the kind, the match distance and the payload offset. -/
structure AccessMatch where
  kind : AccessKind
  dist : Nat
  off : Nat
  deriving DecidableEq, Repr

/-- `access(x, h)`: every exact match first, in order; in harder mode the closest pattern within ACC_FUZZ, the earlier
among equals (44_dispatch.md rule R241). -/
def accessDetect (p : Params) (x : Bits) (harder : Bool) : Option AccessMatch :=
  let fits := accessKinds.filter fun k => (accessPattern p k).length ≤ x.length
  let dist (k : AccessKind) : Nat := hd (x.take (accessPattern p k).length) (accessPattern p k)
  match fits.find? fun k => x.take (accessPattern p k).length = accessPattern p k with
  | some k => some { kind := k, dist := 0, off := (accessPattern p k).length }
  | none =>
    if harder then
      match nearest (fits.map fun k => (dist k, k)) with
      | some (d, k) =>
        if d ≤ Config.accFuzz then some { kind := k, dist := d, off := (accessPattern p k).length } else none
      | none => none
    else none

/-- RES0..RES3 of ACCESS (44_dispatch.md rule R242). -/
def accessWords : Option AccessMatch → List Word
  | none => [noneWord, noneWord, noneWord, noneWord]
  | some r => [wordOf r.kind.code, wordOf r.dist, wordOf r.off, wordOf r.kind.direction.code]

/-- ACCESS (44_dispatch.md rule R242). -/
def accessResult (p : Params) (s : State) : CmdResult :=
  let a := s.operand 0
  let len := s.operand 1
  if ¬ bitsInRange a len then .error .range
  else readBits s a len fun x => .success { res := accessWords (accessDetect p x s.lCtrl.harder) }

def execAccess (s : State) : Host.Outcome State Fault Refusal := complete s (accessResult params s)

/-! ### Trailing patterns (44_dispatch.md rule R243) -/

/-- What stripping gives: the new payload length, the trailer kind and the match distance. -/
structure Stripped where
  len : Nat
  kind : Trailer
  dist : Nat
  deriving DecidableEq, Repr

/-- The trailing patterns in the order they are tried, the absent ones left out. -/
def trailers (p : Params) : List (Trailer × Bits) :=
  [(Trailer.leadout, p.leadout), (Trailer.filler, p.filler)].filter fun t => 0 < t.2.length

/-- `strip(y)`: an exact match first, the lead-out before the filler; else the closest within TRAIL_TOL, the earlier among
equals; one strip at most (44_dispatch.md rule R243). -/
def stripTrailer (p : Params) (y : Bits) : Stripped :=
  let fits := (trailers p).filter fun t => t.2.length ≤ y.length
  let tail (t : Bits) : Bits := y.drop (y.length - t.length)
  match fits.find? fun t => tail t.2 = t.2 with
  | some t => { len := y.length - t.2.length, kind := t.1, dist := 0 }
  | none =>
    match nearest (fits.map fun t => (hd (tail t.2) t.2, t)) with
    | some (d, t) =>
      if d ≤ Config.trailTol then { len := y.length - t.2.length, kind := t.1, dist := d }
      else { len := y.length, kind := .none, dist := 0 }
    | none => { len := y.length, kind := .none, dist := 0 }

/-- RES0..RES2 of STRIP (44_dispatch.md rule R244). -/
def stripWords (r : Stripped) : List Word := [wordOf r.len, wordOf r.kind.code, wordOf r.dist]

/-- STRIP (44_dispatch.md rule R244). -/
def stripResult (p : Params) (s : State) : CmdResult :=
  let a := s.operand 0
  let len := s.operand 1
  if ¬ bitsInRange a len then .error .range
  else readBits s a len fun x => .success { res := stripWords (stripTrailer p x) }

def execStrip (s : State) : Host.Outcome State Fault Refusal := complete s (stripResult params s)

/-! ### Candidate checks (44_dispatch.md rules R246 to R249) -/

/-- The two classification passes (44_dispatch.md rule R257). -/
inductive Pass where
  | exact | corrected
  deriving DecidableEq, Repr

/-- What a passing check contributes: its error total, and the corrected data of its BCH blocks. -/
structure CheckPassed where
  errs : Nat
  data : List Bits
  deriving DecidableEq, Repr

/-- Decode one block of the de-interleaved region (44_dispatch.md rule R245). -/
def decodeBlock (p : Params) (ord : FlipOrder) (z : Bits) (b : Block) : BchDecoded :=
  match b.pad with
  | none => bchDecode ord (generator p b.slot) (sub z b.boff b.n)
  | some q => (padDecode ord (generator p b.slot) (sub z b.boff (b.n - 1)) q).1

/-- The blocks of a BCH check all decode, with no error in the exact pass (44_dispatch.md rule R247). -/
def decodeBlocks (p : Params) (ord : FlipOrder) (q : Pass) (z : Bits) : List Block → Option CheckPassed
  | [] => some { errs := 0, data := [] }
  | b :: bs =>
    let r := decodeBlock p ord z b
    match r.errs with
    | none => none
    | some e =>
      if q = .exact ∧ e ≠ 0 then none
      else
        match decodeBlocks p ord q z bs with
        | none => none
        | some c =>
          some { errs := e + c.errs, data := r.word.take (b.n - deg (generator p b.slot)) :: c.data }

/-- One check on the payload y (44_dispatch.md rules R246 to R248). -/
def runCheck (p : Params) (ord : FlipOrder) (q : Pass) (y : Bits) : Check → Option CheckPassed
  | .pat off t =>
    if off + t.length ≤ y.length ∧ sub y off t.length = t then some { errs := 0, data := [] } else none
  | .bch perm roff rlen blocks =>
    if roff + rlen ≤ y.length then
      match permFor p perm rlen with
      | none => none
      | some tbl => decodeBlocks p ord q (deinterleave tbl (sub y roff rlen)) blocks
    else none
  | .len lo hi => if lo ≤ y.length ∧ y.length ≤ hi then some { errs := 0, data := [] } else none

/-- All checks of a list pass; their totals are added and their data kept in order (44_dispatch.md rule R249). -/
def runChecks (p : Params) (ord : FlipOrder) (q : Pass) (y : Bits) : List Check → Option CheckPassed
  | [] => some { errs := 0, data := [] }
  | c :: cs =>
    match runCheck p ord q y c with
    | none => none
    | some r =>
      match runChecks p ord q y cs with
      | none => none
      | some r' => some { errs := r.errs + r'.errs, data := r.data ++ r'.data }

/-- `passes(X, y, dir, q)` (44_dispatch.md rule R249). -/
def passes (p : Params) (ord : FlipOrder) (x : Cand) (y : Bits) (dir : Direction) (q : Pass) : Option CheckPassed :=
  let c := candidate p x
  if dir ∈ c.dirs ∧ c.minLen ≤ y.length then runChecks p ord q y c.checks else none

/-! ### Classification (44_dispatch.md rules R256 to R262) -/

/-- The tag and sub-kind of a winner: link-control words are refined by the 2-bit frame-type field of the corrected data
(44_dispatch.md rule R260). -/
def refine (p : Params) (x : Cand) (r : CheckPassed) : Variant × SubKind :=
  match x with
  | .lw =>
    let ft := val (sub (r.data.getD p.ftField.val []) p.ftOff 2)
    let kind := p.ftMap.toList.getD ft .none
    if kind = .sy then (.sy, .sy) else (.lw, kind)
  | .ms | .tl | .bc | .ra | .aq => (candVariant x, .none)

/-- The first candidate that passes, in precedence order (44_dispatch.md rule R256). -/
def firstPassing (p : Params) (ord : FlipOrder) (y : Bits) (dir : Direction) (q : Pass) : Option (Cand × CheckPassed) :=
  precedence.findSome? fun x => (passes p ord x y dir q).map fun r => (x, r)

/-- The winner: pass 1 over all candidates, then, in harder mode, pass 2 (44_dispatch.md rule R257). -/
def winner (p : Params) (ord : FlipOrder) (y : Bits) (dir : Direction) (harder : Bool) :
    Option (Pass × Cand × CheckPassed) :=
  match firstPassing p ord y dir .exact with
  | some w => some (.exact, w)
  | none => if harder then (firstPassing p ord y dir .corrected).map fun w => (.corrected, w) else none

/-- The reason of a rejection after access (44_dispatch.md rule R262). -/
def rejectReason (p : Params) (y : Bits) (dir : Direction) : Reason :=
  if (precedence.map (candidate p)).all (fun c => !decide (dir ∈ c.dirs) || decide (y.length < c.minLen)) then .tooShort
  else .noCandidate

/-- The forced tag a FORCE_TAG value names: 1..8 (44_dispatch.md rules R240, R259). -/
def forcedVariant (tag : BitVec 4) : Option Variant :=
  match tag.toNat with
  | 1 => some .ms
  | 2 => some .tl
  | 3 => some .bc
  | 4 => some .lw
  | 5 => some .ra
  | 6 => some .aq
  | 7 => some .sy
  | 8 => some .nx
  | _ => none

/-- The forced sub-kind a FORCE_SUB value names: 0..6 (44_dispatch.md rules R240, R259). -/
def forcedSubKind (k : BitVec 3) : Option SubKind :=
  match k.toNat with
  | 0 => some .none
  | 1 => some .vo
  | 2 => some .ip
  | 3 => some .da
  | 4 => some .u3
  | 5 => some .sy
  | 6 => some .unknown
  | _ => none

/-- The forced tag and sub-kind of the latch; nothing when they are illegal (44_dispatch.md rule R259). -/
def forced (c : CtrlLatch) : Option (Variant × SubKind) :=
  match forcedVariant c.forceTag, forcedSubKind c.forceSub with
  | some v, some k => if k = .none ∨ v = .lw ∨ v = .sy then some (v, k) else none
  | _, _ => none

/-- The results of CLASSIFY, before they are written as words (44_dispatch.md rule R261). Lengths, kind and offset are
absent when access detection fails. -/
structure Classified where
  tag : Variant
  reason : Reason
  errs : Nat
  off : Option Nat
  len : Option Nat
  kind : Option AccessKind
  subKind : SubKind
  corrected : Bool
  forced : Bool
  trailer : Trailer
  fuzzy : Bool
  deriving DecidableEq, Repr

/-- RES7: bit 0 pass 2 won, bit 1 forced, bits 3:2 the trailer, bit 4 fuzzy access (44_dispatch.md rule R261). -/
def Classified.flags (c : Classified) : Nat :=
  (if c.corrected then 1 else 0) + (if c.forced then 2 else 0) + 4 * c.trailer.code + (if c.fuzzy then 16 else 0)

/-- RES0..RES7 of CLASSIFY (44_dispatch.md rule R261). -/
def classifyWords (c : Classified) : List Word :=
  [ wordOf c.tag.code, wordOf c.reason.code, wordOf c.errs, optWord c.off, optWord c.len,
    optWord (c.kind.map AccessKind.code), wordOf (subKindCode c.subKind), wordOf c.flags ]

/-- Classification of a burst x: access, strip, then NX, a forced type or the candidates. `force` is the forced tag and
sub-kind when FORCE_EN is set (44_dispatch.md rules R258, R259, R261, R262). -/
def classifyBurst (p : Params) (ord : FlipOrder) (x : Bits) (harder : Bool) (force : Option (Variant × SubKind)) :
    Classified :=
  match accessDetect p x harder with
  | none =>
    { tag := .rejected, reason := .noAccess, errs := 0, off := none, len := none, kind := none, subKind := .none
      corrected := false, forced := false, trailer := .none, fuzzy := false }
  | some r =>
    let t := stripTrailer p (x.drop r.off)
    let y := sub x r.off t.len
    let base : Classified :=
      { tag := .rejected, reason := .ok, errs := 0, off := some r.off, len := some t.len, kind := some r.kind
        subKind := .none, corrected := false, forced := false, trailer := t.kind, fuzzy := decide (0 < r.dist) }
    match r.kind, force with
    | .nxdl, _ => { base with tag := .nx }
    | .nxul, _ => { base with tag := .nx }
    | _, some (v, k) => { base with tag := v, subKind := k, forced := true }
    | _, none =>
      match winner p ord y r.kind.direction harder with
      | some (q, c, e) =>
        { base with tag := (refine p c e).1, subKind := (refine p c e).2, errs := e.errs, corrected := decide (q = .corrected) }
      | none => { base with reason := rejectReason p y r.kind.direction }

/-- CLASSIFY (44_dispatch.md rule R261). -/
def classifyResult (p : Params) (ord : FlipOrder) (s : State) : CmdResult :=
  let a := s.operand 0
  let len := s.operand 1
  if ¬ bitsInRange a len then .error .range
  else if s.lCtrl.forceEn ∧ forced s.lCtrl = none then .error .param
  else readBits s a len fun x =>
    .success
      { res := classifyWords
          (classifyBurst p ord x s.lCtrl.harder (if s.lCtrl.forceEn then forced s.lCtrl else none)) }

def execClassify (s : State) : Host.Outcome State Fault Refusal :=
  complete s (classifyResult params Config.flipOrder s)

end Sys2Proof.Machine
end

