-- ==== Sys2Proof/Machine/ReedSolomon.lean ====
section
/-! DEFINITION. The Reed–Solomon unit: syndromes, Berlekamp–Massey, Chien search, Forney and the check (43_rs.md rules R213
to R219), and the two commands (rules R220, R221). -/

namespace Sys2Proof.Machine

/-- The padded word: N - L zeros after the input (43_rs.md rule R213). -/
def rsPad (f : RsCode) (r : List Nat) : List Nat := r ++ List.replicate (f.n - r.length) 0

/-- `S_j = R(alpha^(FCR + j))`; position 0 is the coefficient of the highest power (43_rs.md rules R213, R214). -/
def syndrome (f : RsCode) (c : List Nat) (j : Nat) : Nat := gfEval f c.reverse (alphaPow f (f.fcr + j : Nat))

/-- `S_0 .. S_(NSYM-1)` (43_rs.md rule R214). -/
def syndromes (f : RsCode) (c : List Nat) : List Nat := (List.range f.nsym).map (syndrome f c)

/-- The variables of the Berlekamp–Massey iteration (43_rs.md rule R215). -/
structure BmState where
  lam : List Nat
  prev : List Nat
  nu : Nat
  k : Nat
  b : Nat
  deriving DecidableEq, Repr

/-- The discrepancy `delta` of iteration r (43_rs.md rule R215). -/
def bmDelta (f : RsCode) (synd : List Nat) (st : BmState) (r : Nat) : Nat :=
  (List.range st.nu).foldl (fun acc i => acc ^^^ gfMul f (st.lam.getD (i + 1) 0) (synd.getD (r - (i + 1)) 0))
    (synd.getD r 0)

/-- One iteration (43_rs.md rule R215). -/
def bmStep (f : RsCode) (synd : List Nat) (st : BmState) (r : Nat) : BmState :=
  let delta := bmDelta f synd st r
  let lam := gfPolyAdd st.lam (gfPolyScaleShift f (gfDiv f delta st.b) st.k st.prev)
  if delta = 0 then { st with k := st.k + 1 }
  else if 2 * st.nu ≤ r then { lam := lam, prev := st.lam, nu := r + 1 - st.nu, k := 1, b := delta }
  else { st with lam := lam, k := st.k + 1 }

/-- Berlekamp–Massey: the locator polynomial and its length (43_rs.md rule R215). -/
def berlekampMassey (f : RsCode) (synd : List Nat) : BmState :=
  (List.range f.nsym).foldl (bmStep f synd) { lam := [1], prev := [1], nu := 0, k := 1, b := 1 }

/-- The locator exponent of position i: `X_i = alpha^(N-1-i)` (43_rs.md rule R213). -/
def locatorExp (f : RsCode) (i : Nat) : Int := (f.n : Int) - 1 - i

/-- Chien search: the positions with `Lambda(X_i^(-1)) = 0` (43_rs.md rule R216). -/
def errorPositions (f : RsCode) (lam : List Nat) : List Nat :=
  (List.range f.n).filter fun i => gfEval f lam (alphaPow f (-locatorExp f i)) = 0

/-- The formal derivative in characteristic 2: the odd coefficients, one power lower (43_rs.md rule R217). -/
def gfDerivative (lam : List Nat) : List Nat :=
  (List.range (lam.length - 1)).map fun j => if j % 2 = 0 then lam.getD (j + 1) 0 else 0

/-- Forney: the error value at position i; nothing when `Lambda'(X^(-1)) = 0` (43_rs.md rule R217). -/
def errorValue (f : RsCode) (lam omega : List Nat) (i : Nat) : Option Nat :=
  let e := locatorExp f i
  let d := gfEval f (gfDerivative lam) (alphaPow f (-e))
  if d = 0 then none
  else some (gfDiv f (gfMul f (alphaPow f (e * (1 - (f.fcr : Int)))) (gfEval f omega (alphaPow f (-e)))) d)

/-- Add the error values at the listed positions (43_rs.md rule R217). -/
def correctAt (f : RsCode) (lam omega : List Nat) : List Nat → List Nat → Option (List Nat)
  | c, [] => some c
  | c, i :: is =>
    match errorValue f lam omega i with
    | none => none
    | some e => correctAt f lam omega (c.modify i (· ^^^ e)) is

/-- What `rs_fix_m` gives (43_rs.md rule R219). -/
structure RsFixed where
  ok : Bool
  word : List Nat
  ncorr : Nat
  deriving DecidableEq, Repr

/-- Location, correction and verification of an input of L symbols with a non-zero syndrome; nothing when decoding fails
(43_rs.md rules R215 to R218). -/
def rsCorrect (f : RsCode) (r : List Nat) : Option RsFixed :=
  let c := rsPad f r
  let synd := syndromes f c
  let bm := berlekampMassey f synd
  let at_ := errorPositions f bm.lam
  if bm.nu > f.t then none
  else if at_.length ≠ bm.nu ∨ at_.any (fun i => r.length ≤ i) then none
  else
    match correctAt f bm.lam ((gfPolyMul f synd bm.lam).take f.nsym) c at_ with
    | none => none
    | some c' =>
      if (syndromes f c').all (· = 0) then some { ok := true, word := c'.take r.length, ncorr := bm.nu } else none

/-- `rs_fix_m(r)` (43_rs.md rule R219). -/
def rsFix (f : RsCode) (r : List Nat) : RsFixed :=
  if (syndromes f (rsPad f r)).all (· = 0) then { ok := true, word := r, ncorr := 0 }
  else (rsCorrect f r).getD { ok := false, word := r, ncorr := 0 }

/-- The effect of an RS command on the symbols r, with dst (43_rs.md rules R220, R221). -/
def rsEffect (f : RsCode) (dst : Nat) (r : List Sym) : Effect :=
  let q := rsFix f (r.map BitVec.toNat)
  { res := [boolWord q.ok, wordOf q.ncorr, wordOf (r.length - f.nsym), wordOf f.nsym]
    syms := (dst, q.word.map (BitVec.ofNat 8)) }

/-- RS_FIX8 (43_rs.md rule R220). -/
def rsFix8Result (p : Params) (s : State) : CmdResult :=
  let src := s.operand 0
  let len := s.operand 1
  let dst := s.operand 2
  if len ≤ 16 ∨ len > 255 then .error .length
  else if ¬ symsInRange src len ∨ ¬ symsInRange dst len then .error .range
  else readSyms s src len fun r => .success (rsEffect (rs8Code p) dst r)

def execRsFix8 (s : State) : Host.Outcome State Fault Refusal := complete s (rsFix8Result params s)

/-- RS_FIX6 (43_rs.md rule R221). -/
def rsFix6Result (p : Params) (s : State) : CmdResult :=
  let src := s.operand 0
  let len := s.operand 1
  let dst := s.operand 2
  if len ≤ 10 ∨ len > 63 then .error .length
  else if ¬ symsInRange src len ∨ ¬ symsInRange dst len then .error .range
  else readSyms s src len fun r =>
    if r.any (fun v => 63 < v.toNat) then .error .symbol else .success (rsEffect (rs6Code p) dst r)

def execRsFix6 (s : State) : Host.Outcome State Fault Refusal := complete s (rsFix6Result params s)

end Sys2Proof.Machine
end

