-- ==== Sys2Proof/Machine/Dispatch.lean ====
section
/-! DEFINITION. The dispatch of the engine: one arm per command, each the completion step of that command
(10_state.md rule R50). -/

namespace Sys2Proof.Machine

def exec (i : Instr) (s : State) : Host.Outcome State Fault Refusal :=
  match i with
  | .nop => Sys2Proof.Machine.execNop s
  | .extract => Sys2Proof.Machine.execExtract s
  | .slice => Sys2Proof.Machine.execSlice s
  | .deint2 => Sys2Proof.Machine.execDeint2 s
  | .deint3 => Sys2Proof.Machine.execDeint3 s
  | .deintlcw => Sys2Proof.Machine.execDeintlcw s
  | .int2 => Sys2Proof.Machine.execInt2 s
  | .int3 => Sys2Proof.Machine.execInt3 s
  | .intlcw => Sys2Proof.Machine.execIntlcw s
  | .hamming => Sys2Proof.Machine.execHamming s
  | .cksum8 => Sys2Proof.Machine.execCksum8 s
  | .cksum16 => Sys2Proof.Machine.execCksum16 s
  | .bchDiv sel => Sys2Proof.Machine.execBchDiv sel s
  | .bchDecode sel => Sys2Proof.Machine.execBchDecode sel s
  | .bchDecode2p sel => Sys2Proof.Machine.execBchDecode2p sel s
  | .bchBlock32 sel => Sys2Proof.Machine.execBchBlock32 sel s
  | .bchBlockseq sel => Sys2Proof.Machine.execBchBlockseq sel s
  | .rsFix8 => Sys2Proof.Machine.execRsFix8 s
  | .rsFix6 => Sys2Proof.Machine.execRsFix6 s
  | .access => Sys2Proof.Machine.execAccess s
  | .strip => Sys2Proof.Machine.execStrip s
  | .classify => Sys2Proof.Machine.execClassify s

end Sys2Proof.Machine
end

