-- ==== Sys2Proof/Machine/Engine.lean ====
section
/-! DEFINITION. The moves of the two agents: the completion step of the engine (10_state.md rule R50) and the next action
of the host (70_reset_and_hazards.md rule R330); and how a command is placed for the next step. -/

namespace Sys2Proof.Machine

/-- The completion step: the latched command word is decoded and its command executed; a word that decodes to no command
completes with its command error (10_state.md rule R50, 30_encoding.md rules R101 to R103). -/
def engineMove (s : State) : Host.Outcome State Fault Refusal :=
  match decode s.lCmd with
  | .instr i => exec i s
  | .reject e => complete s (.error e)

/-- A value is returned to the host (70_reset_and_hazards.md rule R331). -/
def State.record (s : State) (v : Word) : State := { s with reads := s.reads ++ [v] }

/-- One host action, on the state from which it has been taken off the list. WAIT is one read of STATUS, and stays the next
action while bit 0 is 1 (30_encoding.md rule R111). -/
def perform (p : Params) (s : State) : HostAction → Host.Outcome State Fault Refusal
  | .write off size v => .next (hostWrite s off size v)
  | .read off size =>
    match hostRead p s off size with
    | .ok (v, t) => .next (t.record v)
    | .error e => .fault e
  | .wait =>
    if s.statusWord.getLsbD 0 then .next { s.record s.statusWord with host := .wait :: s.host }
    else .next (s.record s.statusWord)
  | .hardReset => .next s.hardReset

/-- The host's move: its next action (20_memory.md rule R89). -/
def hostMove (p : Params) (s : State) : Host.Outcome State Fault Refusal :=
  match s.host with
  | [] => .next s
  | a :: rest => perform p { s with host := rest } a

/-- The move of the agent whose turn it is; the state stays as it is when nobody can move (log entries 1, 2). -/
def move (s : State) : Host.Outcome State Fault Refusal :=
  match s.mover with
  | none => .next s
  | some .engine => engineMove s.takeTurn
  | some .host => hostMove params s.takeTurn

/-- The command word v is accepted, and the engine moves next: the choices left in `sched` are dropped, so the very next step
is its completion (10_state.md rule R49; log entry 17). -/
def State.placeCommand (s : State) (v : Word) : State := { s.accept v with sched := [] }

end Sys2Proof.Machine
end

