-- ==== Sys2Proof/Machine/Step.lean ====
section
/-! DEFINITION. One step of the block with its host: the agent whose turn it is moves (10_state.md rule R30). -/

namespace Sys2Proof.Machine

/-- One step. -/
def step (s : State) : Host.Outcome State Fault Refusal := move s

/-- The state with the command word `w` in flight and the engine to move. The block fetches nothing: a command comes by a
write to CMD, and acceptance is where the next step takes it from (10_state.md rules R36, R47, R49). -/
def State.withFetchWord (s : State) (nbits w : Nat) : State := s.placeCommand (BitVec.ofNat 32 (w % 2 ^ nbits))

end Sys2Proof.Machine
end

