-- ==== Sys2Proof/Machine/HostProgram.lean ====
section
/-! DEFINITION. Host programs: the statements and pseudo-instructions of 30_encoding.md rules R109 to R111, as syntax
trees, and their expansion into host actions. -/

namespace Sys2Proof.Machine

/-- One statement (30_encoding.md rules R109, R111). -/
inductive Stmt where
  /-- `W off, v`. -/
  | w (off : Nat) (v : Word)
  /-- `R off`. -/
  | r (off : Nat)
  /-- `MNEMONIC[.s] x0, …`. -/
  | cmd (i : Instr) (xs : List Word)
  /-- `WAIT`. -/
  | wait
  /-- `RUN MNEMONIC[.s] x0, …`. -/
  | run (i : Instr) (xs : List Word)
  /-- `LOADBITS a, "s"`. -/
  | loadBits (a : Nat) (bits : Bits)
  /-- `LOADSYMS i, v0, v1, …`. -/
  | loadSyms (i : Nat) (vs : List Sym)
  /-- `CLEAR`. -/
  | clear
  /-- `SETCTRL v`. -/
  | setCtrl (v : Word)
  deriving DecidableEq, Repr

/-- A number as a window offset; none outside the window (20_memory.md rule R80). -/
def offsetOf (n : Nat) : Option Offset := if n < 0x400 then some (BitVec.ofNat 10 n) else none

/-- Word writes at consecutive offsets. -/
def writesFrom : Nat → List Word → Option (List HostAction)
  | _, [] => some []
  | off, v :: vs =>
    match offsetOf off, writesFrom (off + 4) vs with
    | some o, some rest => some (.write o 4 v :: rest)
    | _, _ => none

/-- The expansion of a command statement: the operands into ARG0.. in order, then the command word; at most four operands
(30_encoding.md rules R109, R110). -/
def expandCmd (i : Instr) (xs : List Word) : Option (List HostAction) :=
  if xs.length ≤ 4 then (writesFrom 0x010 xs).map (· ++ [.write 0x00C 4 (encode i)]) else none

/-- The expansion of a statement; none for what is no statement of the syntax (30_encoding.md rules R109 to R111). -/
def expand : Stmt → Option (List HostAction)
  | .w off v => writesFrom off [v]
  | .r off => (offsetOf off).map fun o => [.read o 4]
  | .cmd i xs => expandCmd i xs
  | .wait => some [.wait]
  | .run i xs => (expandCmd i xs).map (· ++ [.wait])
  | .loadBits a bits =>
    let q := (bits.length + 31) / 32
    if a % 32 = 0 then
      writesFrom (0x100 + a / 8)
        ((groups 32 q (bits ++ List.replicate (32 * q - bits.length) false)).map fun x => wordOf (val x))
    else none
  | .loadSyms i vs =>
    let q := (vs.length + 3) / 4
    if i % 4 = 0 then
      writesFrom (0x200 + i)
        ((List.range q).map fun t => wordOfSyms ((List.range 4).map fun u => vs.getD (4 * t + u) 0))
    else none
  | .clear => writesFrom 0x008 [0x1E]
  | .setCtrl v => writesFrom 0x004 [v]

/-- The expansion of a program (30_encoding.md rule R109). -/
def expandAll : List Stmt → Option (List HostAction)
  | [] => some []
  | t :: ts =>
    match expand t, expandAll ts with
    | some xs, some ys => some (xs ++ ys)
    | _, _ => none

/-- A state whose host has a program to perform (70_reset_and_hazards.md rule R331). -/
def State.withProgram (s : State) (prog : List Stmt) : Option State :=
  (expandAll prog).map fun acts => { s with host := s.host ++ acts }

end Sys2Proof.Machine
end

