-- ==== Sys2Proof/Safety.lean ====
section
/-! DEFINITION. What claims speak of: the invariant of the block, states that hold a string of cells, the end of a run. -/

namespace Sys2Proof.Machine

/-- What every step keeps. -/
structure Inv (s : State) : Prop where
  /-- BITMEM is in canonical form and within its 2048 bits (10_state.md rules R42, R45). -/
  bitmem : Memory.wf Config.bitmemBits s.bitmem
  /-- SYMMEM is in canonical form and within its 256 symbols (10_state.md rules R43, R45). -/
  symmem : Memory.wf Config.symmemSyms s.symmem
  /-- OUTBUF is in canonical form and within its 64 words (10_state.md rules R44, R45). -/
  outbuf : Memory.wf Config.outbufWords s.outbuf
  /-- No code above 0x09 is ever in ERRCODE (60_exceptions.md rule R291). -/
  errCode : s.status.errCode ≤ 9
  /-- While BUSY, DONE and ERRCODE are 0 (10_state.md rules R34, R49). -/
  busyStatus : s.eng = .busy → s.status.done = false ∧ s.status.errCode = 0
  /-- While BUSY, LASTOP is the low byte of the command in flight (10_state.md rule R49). -/
  busyLastOp : s.eng = .busy → s.status.lastOp = opField s.lCmd
  /-- While BUSY, the operand latches equal the ARG registers: host writes to them are dropped (20_memory.md rules R90,
  R98). -/
  busyArg : s.eng = .busy → s.lArg = s.arg
  /-- While BUSY, the configuration latch equals CTRL (10_state.md rules R33, R49). -/
  busyCtrl : s.eng = .busy → s.lCtrl = s.ctrl.latch

/-- The memory holds the listed contents from address a on, all written. -/
def Holds {α : Type} (m : Memory α) (a : Nat) (xs : List α) : Prop :=
  ∀ i, ∀ h : i < xs.length, Memory.read m (a + i) = some xs[i]

/-- The two memories agree at every address outside `a .. a+n-1`. -/
def SameOutside {α : Type} (m m' : Memory α) (a n : Nat) : Prop :=
  ∀ b, ¬ (a ≤ b ∧ b < a + n) → Memory.read m' b = Memory.read m b

/-- BITMEM reads the same everywhere. -/
def KeepsBits (s t : State) : Prop := ∀ a, Memory.read t.bitmem a = Memory.read s.bitmem a

/-- SYMMEM reads the same everywhere. -/
def KeepsSyms (s t : State) : Prop := ∀ a, Memory.read t.symmem a = Memory.read s.symmem a

/-- OUTBUF reads the same everywhere. -/
def KeepsOut (s t : State) : Prop := ∀ a, Memory.read t.outbuf a = Memory.read s.outbuf a

/-- What no completion changes: CTRL, the ARG registers, the latches, the bits of STATUS that are not the completion's, and
the model's own fields. -/
structure KeepsRest (s t : State) : Prop where
  ctrl : t.ctrl = s.ctrl
  arg : t.arg = s.arg
  lCmd : t.lCmd = s.lCmd
  lArg : t.lArg = s.lArg
  lCtrl : t.lCtrl = s.lCtrl
  ovr : t.status.ovr = s.status.ovr
  busErr : t.status.busErr = s.status.busErr
  lastOp : t.status.lastOp = s.status.lastOp
  host : t.host = s.host
  sched : t.sched = s.sched
  reads : t.reads = s.reads

/-- A successful completion that leaves `ws` in RES0, RES1, … and every other RES register as it was: ENG is IDLE, DONE is
1, ERRCODE is 0, ERR is as it was (10_state.md rules R38, R50). The memories are spoken of apart. -/
structure Succeeds (s t : State) (ws : List Word) : Prop where
  eng : t.eng = .idle
  done : t.status.done = true
  errCode : t.status.errCode = 0
  err : t.status.err = s.status.err
  res : ∀ i : Fin 8, t.res[i] = ws.getD i s.res[i]
  rest : KeepsRest s t

/-- The state after a completion with the error code `code`: ENG, DONE, ERR and ERRCODE, and nothing else
(60_exceptions.md rules R292, R294). -/
def failedWith (s : State) (code : BitVec 8) : State :=
  { s with eng := .idle, status := { s.status with done := true, err := true, errCode := code } }

/-- The state after a successful completion that writes no register and no memory (40_control.md rule R120). -/
def doneState (s : State) : State :=
  { s with eng := .idle, status := { s.status with done := true, errCode := 0 } }

/-- The run is over: every host action performed and the engine IDLE (70_reset_and_hazards.md rule R331). -/
def State.finished (s : State) : Prop := s.host = [] ∧ s.eng = .idle

end Sys2Proof.Machine

namespace Sys2Proof.Claims

open Sys2Proof.Machine

/-- The BITMEM region a successful command writes: its address and length in bits, from the latched operands
(30_encoding.md rule R105). -/
def bitDestination (i : Instr) (s : State) : Option (Nat × Nat) :=
  match i with
  | .deint2 | .deint3 | .int2 | .int3 => some (s.operand 1, s.operand 2)
  | .deintlcw | .intlcw => some (s.operand 1, 46)
  | .bchDecode _ | .bchDecode2p _ => some (s.operand 2, s.operand 1)
  | .bchBlock32 _ => some (s.operand 1, 32)
  | .bchBlockseq _ => some (s.operand 2, 32 * s.operand 1)
  | .nop | .extract | .slice | .hamming | .cksum8 | .cksum16 | .bchDiv _ | .rsFix8 | .rsFix6 | .access | .strip
  | .classify => none

/-- The SYMMEM region a successful command writes (30_encoding.md rule R105). -/
def symDestination (i : Instr) (s : State) : Option (Nat × Nat) :=
  match i with
  | .rsFix8 | .rsFix6 => some (s.operand 2, s.operand 1)
  | .nop | .extract | .slice | .deint2 | .deint3 | .deintlcw | .int2 | .int3 | .intlcw | .hamming | .cksum8 | .cksum16
  | .bchDiv _ | .bchDecode _ | .bchDecode2p _ | .bchBlock32 _ | .bchBlockseq _ | .access | .strip | .classify => none

/-- How many OUTBUF words a successful command writes, from word 0 (30_encoding.md rule R105). -/
def outCount (i : Instr) (s : State) : Nat :=
  match i with
  | .slice => s.operand 1 / s.operand 2
  | .nop | .extract | .deint2 | .deint3 | .deintlcw | .int2 | .int3 | .intlcw | .hamming | .cksum8 | .cksum16 | .bchDiv _
  | .bchDecode _ | .bchDecode2p _ | .bchBlock32 _ | .bchBlockseq _ | .rsFix8 | .rsFix6 | .access | .strip | .classify => 0

/-- How many RES registers a successful command writes, from RES0 (30_encoding.md rule R105). -/
def resCount : Instr → Nat
  | .nop => 0
  | .extract | .hamming | .cksum8 | .cksum16 => 1
  | .deint2 | .int2 | .bchDiv _ => 2
  | .slice | .deint3 | .int3 | .deintlcw | .intlcw | .strip => 3
  | .rsFix8 | .rsFix6 | .access => 4
  | .bchBlockseq _ => 5
  | .bchDecode _ | .bchBlock32 _ => 6
  | .bchDecode2p _ => 7
  | .classify => 8

end Sys2Proof.Claims
end

