-- ==== Sys2Proof/Certificates/Slice0/Obligations.lean ====
section
/-! DEFINITION. The statements for the provers, from the numbered rules of the spec. -/

open Sys2Proof Sys2Proof.Machine

/-! ### Words of the statements -/

/-- The legal opcodes of 30_encoding.md rule R105. -/
def Sys2Proof.Claims.legalOps : List Nat :=
  [0x00, 0x10, 0x11, 0x12, 0x13, 0x14, 0x15, 0x16, 0x17, 0x18, 0x19, 0x1A, 0x20, 0x21, 0x22, 0x23, 0x24, 0x30, 0x31, 0x40,
    0x41, 0x42]

/-- The BCH opcodes, the ones that take a slot in SEL (30_encoding.md rule R102). -/
def Sys2Proof.Claims.bchOps : List Nat := [0x20, 0x21, 0x22, 0x23, 0x24]

/-- The SEL field of a slot. -/
def Sys2Proof.Claims.selOf (slot : Fin 8) : BitVec 4 := BitVec.ofNat 4 slot.val

/-- POLY[slot] of the chip, as an integer (10_state.md rule R39). -/
def Sys2Proof.Claims.polyAt (slot : Fin 8) : Nat := (params.poly[slot]).toNat

/-- What DEINT2, DEINT3, INT2 and INT3 need to execute normally, for the tables of a configuration: a table for the length,
both regions in range, and the source written (41_bitutil.md rules R134, R135, R137, R138). -/
def Sys2Proof.Claims.PermuteReady (tables : List PermTable) (s : State) (t : PermTable) (x : Bits) : Prop :=
  findTable tables (s.operand 2) = some t ∧ s.operand 0 + s.operand 2 ≤ 2048 ∧ s.operand 1 + s.operand 2 ≤ 2048 ∧
    x.length = s.operand 2 ∧ Holds s.bitmem (s.operand 0) x

/-- The step performs the host action `a`: it is the next one, and it is the host's turn (log entries 1, 2). -/
def Sys2Proof.Claims.Performs (s : State) (a : HostAction) : Prop :=
  ∃ rest, s.host = a :: rest ∧ (s.eng = .idle ∨ s.sched.head? = some .host)

open Sys2Proof.Claims

/-- The BITMEM regions a command reads, as address and length (the pseudocode of each command's rule, 00_scope.md rule R13).
That it reads the whole of them is deduced (log entry 6). -/
def Sys2Proof.Claims.sourceBits (i : Instr) (s : State) : List (Nat × Nat) :=
  match i with
  | .nop | .rsFix8 | .rsFix6 => []
  | .extract | .slice | .bchDiv _ | .bchDecode _ | .access | .strip | .classify => [(s.operand 0, s.operand 1)]
  | .deint2 | .deint3 | .int2 | .int3 => [(s.operand 0, s.operand 2)]
  | .deintlcw | .intlcw => [(s.operand 0, 46)]
  | .hamming => [(s.operand 0, s.operand 2), (s.operand 1, s.operand 2)]
  | .cksum8 | .cksum16 => [(s.operand 0, 8 * s.operand 1)]
  | .bchDecode2p _ => [(s.operand 0, s.operand 1 - 1)]
  | .bchBlock32 _ => [(s.operand 0, 32)]
  | .bchBlockseq _ => [(s.operand 0, 32 * s.operand 1)]

/-- The SYMMEM regions a command reads (43_rs.md rules R220, R221); that it reads the whole of them is deduced (log
entry 6). -/
def Sys2Proof.Claims.sourceSyms (i : Instr) (s : State) : List (Nat × Nat) :=
  match i with
  | .rsFix8 | .rsFix6 => [(s.operand 0, s.operand 1)]
  | .nop | .extract | .slice | .deint2 | .deint3 | .deintlcw | .int2 | .int3 | .intlcw | .hamming | .cksum8 | .cksum16
  | .bchDiv _ | .bchDecode _ | .bchDecode2p _ | .bchBlock32 _ | .bchBlockseq _ | .access | .strip | .classify => []

/-- SEL names a present slot whose generator has a degree that `ok` accepts. -/
def Sys2Proof.Claims.SlotPasses (sel : BitVec 4) (ok : Nat → Prop) : Prop :=
  ∃ slot : Fin 8, sel = selOf slot ∧ 2 ≤ polyAt slot ∧ ok (deg (polyAt slot))

/-- The operands pass every check a command makes before it reads its source (the checks of each command's rule). -/
def Sys2Proof.Claims.OperandsPass (i : Instr) (s : State) : Prop :=
  match i with
  | .nop => True
  | .extract => 1 ≤ s.operand 1 ∧ s.operand 1 ≤ 32 ∧ s.operand 0 + s.operand 1 ≤ 2048
  | .slice =>
    1 ≤ s.operand 2 ∧ s.operand 2 ≤ 32 ∧ s.operand 0 + s.operand 1 ≤ 2048 ∧ s.operand 1 / s.operand 2 ≤ 64
  | .deint2 | .int2 =>
    s.operand 0 + s.operand 2 ≤ 2048 ∧ s.operand 1 + s.operand 2 ≤ 2048 ∧ findTable params.perm2 (s.operand 2) ≠ none
  | .deint3 | .int3 =>
    s.operand 0 + s.operand 2 ≤ 2048 ∧ s.operand 1 + s.operand 2 ≤ 2048 ∧ findTable params.perm3 (s.operand 2) ≠ none
  | .deintlcw | .intlcw => s.operand 2 = 46 ∧ s.operand 0 + 46 ≤ 2048 ∧ s.operand 1 + 46 ≤ 2048
  | .hamming => s.operand 0 + s.operand 2 ≤ 2048 ∧ s.operand 1 + s.operand 2 ≤ 2048
  | .cksum8 | .cksum16 => s.operand 0 + 8 * s.operand 1 ≤ 2048
  | .bchDiv sel =>
    SlotPasses sel fun _ => 1 ≤ s.operand 1 ∧ s.operand 1 ≤ 64 ∧ s.operand 0 + s.operand 1 ≤ 2048
  | .bchDecode sel =>
    SlotPasses sel fun d =>
      d < s.operand 1 ∧ s.operand 1 ≤ 64 ∧ s.operand 0 + s.operand 1 ≤ 2048 ∧ s.operand 2 + s.operand 1 ≤ 2048
  | .bchDecode2p sel =>
    SlotPasses sel fun d =>
      d < s.operand 1 ∧ s.operand 1 ≤ 64 ∧ s.operand 3 < s.operand 1 ∧ s.operand 0 + (s.operand 1 - 1) ≤ 2048 ∧
      s.operand 2 + s.operand 1 ≤ 2048
  | .bchBlock32 sel => SlotPasses sel fun d => d < 31 ∧ s.operand 0 + 32 ≤ 2048 ∧ s.operand 1 + 32 ≤ 2048
  | .bchBlockseq sel =>
    SlotPasses sel fun d =>
      d < 31 ∧ s.operand 1 ≤ 64 ∧ s.operand 0 + 32 * s.operand 1 ≤ 2048 ∧ s.operand 2 + 32 * s.operand 1 ≤ 2048
  | .rsFix8 =>
    16 < s.operand 1 ∧ s.operand 1 ≤ 255 ∧ s.operand 0 + s.operand 1 ≤ 256 ∧ s.operand 2 + s.operand 1 ≤ 256
  | .rsFix6 =>
    10 < s.operand 1 ∧ s.operand 1 ≤ 63 ∧ s.operand 0 + s.operand 1 ≤ 256 ∧ s.operand 2 + s.operand 1 ≤ 256
  | .access | .strip => s.operand 0 + s.operand 1 ≤ 2048
  | .classify =>
    s.operand 0 + s.operand 1 ≤ 2048 ∧
    (s.lCtrl.forceEn = true →
      1 ≤ s.lCtrl.forceTag.toNat ∧ s.lCtrl.forceTag.toNat ≤ 8 ∧ s.lCtrl.forceSub.toNat ≤ 6 ∧
      (s.lCtrl.forceSub.toNat = 0 ∨ s.lCtrl.forceTag.toNat = 4 ∨ s.lCtrl.forceTag.toNat = 7))

/-! The numbers of 44_dispatch.md rule R240, written out. -/

/-- Access kinds. -/
def Sys2Proof.Claims.kindNumber : AccessKind → Nat
  | .dl => 0 | .ul => 1 | .nxdl => 2 | .nxul => 3

/-- Variant tags. -/
def Sys2Proof.Claims.tagNumber : Variant → Nat
  | .rejected => 0 | .ms => 1 | .tl => 2 | .bc => 3 | .lw => 4 | .ra => 5 | .aq => 6 | .sy => 7 | .nx => 8

/-- Link-control-word sub-kinds. -/
def Sys2Proof.Claims.subKindNumber : SubKind → Nat
  | .none => 0 | .vo => 1 | .ip => 2 | .da => 3 | .u3 => 4 | .sy => 5 | .unknown => 6

/-- Reasons. -/
def Sys2Proof.Claims.reasonNumber : Reason → Nat
  | .ok => 0 | .noAccess => 1 | .tooShort => 2 | .noCandidate => 3

/-- Trailer kinds. -/
def Sys2Proof.Claims.trailerNumber : Trailer → Nat
  | .none => 0 | .filler => 1 | .leadout => 2

/-! When a check passes (44_dispatch.md rules R245 to R248). -/

/-- POLY[slot] of a configuration, as an integer. -/
def Sys2Proof.Claims.polyOf (p : Params) (slot : Fin 8) : Nat := (p.poly[slot]).toNat

/-- `r` is the decode of block `b` of the string `z`: `bch_decode` of its bits, or, with a pad position, of the better of
the two padded words, pad bit 0 on a tie (44_dispatch.md rule R245, 42_bch.md rule R175). -/
def Sys2Proof.Claims.DecodesTo (p : Params) (ord : FlipOrder) (z : Bits) (b : Block) (r : BchDecoded) : Prop :=
  match b.pad with
  | none => r = bchDecode ord (polyOf p b.slot) ((z.drop b.boff).take b.n)
  | some k =>
    ∃ x r0 r1, x = (z.drop b.boff).take (b.n - 1) ∧
      r0 = bchDecode ord (polyOf p b.slot) (x.take k ++ [false] ++ x.drop k) ∧
      r1 = bchDecode ord (polyOf p b.slot) (x.take k ++ [true] ++ x.drop k) ∧
      ((r = r0 ∧ r0.errs.getD 3 ≤ r1.errs.getD 3) ∨ (r = r1 ∧ r1.errs.getD 3 < r0.errs.getD 3))

/-- `z` is the de-interleaved region `x` of a BCH check; its table is present (44_dispatch.md rules R245, R247). -/
def Sys2Proof.Claims.RegionIs (p : Params) (perm : Perm) (x z : Bits) : Prop :=
  match perm with
  | .none => z = x
  | .p2 => ∃ tbl, findTable p.perm2 x.length = some tbl ∧ z = deinterleave tbl.perm x
  | .p3 => ∃ tbl, findTable p.perm3 x.length = some tbl ∧ z = deinterleave tbl.perm x
  | .lcw => x.length = 46 ∧ z = deinterleave p.permLcw x

/-- The check passes on the payload `y` in pass `q`, with the error total `errs` and the corrected data `data` of its blocks
(44_dispatch.md rules R246 to R248, 42_bch.md rule R174). -/
def Sys2Proof.Claims.CheckPasses (p : Params) (ord : FlipOrder) (q : Pass) (y : Bits) (c : Check) (errs : Nat)
    (data : List Bits) : Prop :=
  match c with
  | .pat off t => off + t.length ≤ y.length ∧ (y.drop off).take t.length = t ∧ errs = 0 ∧ data = []
  | .len lo hi => lo ≤ y.length ∧ y.length ≤ hi ∧ errs = 0 ∧ data = []
  | .bch perm roff rlen blocks =>
    roff + rlen ≤ y.length ∧
    ∃ (z : Bits) (rs : List BchDecoded) (es : List Nat), RegionIs p perm ((y.drop roff).take rlen) z ∧
      List.Forall₂ (DecodesTo p ord z) blocks rs ∧ rs.map (fun r => r.errs) = es.map some ∧
      (q = .exact → ∀ e ∈ es, e = 0) ∧ errs = es.sum ∧
      data = List.zipWith (fun (b : Block) (r : BchDecoded) => r.word.take (b.n - deg (polyOf p b.slot))) blocks rs

/-! ### Encoding and the step -/

/-- Decoding a word gives a command exactly when the command is well-formed and the word is its encoding: no bit of a
command word is dropped and none is let through (30_encoding.md rules R100, R102, R105, R106). -/
def Obligations.DecodeExactlyInvertsEncode : Prop :=
  ∀ (v : Word) (i : Instr), decode v = .instr i ↔ (i.wellFormed = true ∧ encode i = v)

/-- A sanity check of a few words written out from the opcode map (30_encoding.md rules R100, R105). -/
def Obligations.SampleWordsDecode : Prop :=
  decode 0x00000000 = .instr .nop ∧ decode 0x00000010 = .instr .extract ∧ decode 0x0000001A = .instr .cksum16 ∧
  decode 0x00000121 = .instr (.bchDecode 1) ∧ decode 0x00000724 = .instr (.bchBlockseq 7) ∧
  decode 0x00000031 = .instr .rsFix6 ∧ decode 0x00000042 = .instr .classify ∧
  decode 0x00000921 = .reject .reservedBits ∧ decode 0x00001005 = .reject .illegalOp

/-- When the engine is BUSY and it is its turn, the step is `exec` of the command the latch decodes to, and for a latch that
decodes to no command it is the completion with that error; a contested turn uses up one entry of the schedule (log
entries 1, 2). -/
def Obligations.StepRunsDecodedCommand : Prop :=
  ∀ (s : State), s.eng = .busy →
    (∀ i, decode s.lCmd = .instr i →
      (s.host = [] → step s = exec i s) ∧
      (s.host ≠ [] → s.sched.head? ≠ some .host → step s = exec i { s with sched := s.sched.tail })) ∧
    (∀ e, decode s.lCmd = .reject e →
      (s.host = [] → step s = .next (failedWith s (errorCode e))) ∧
      (s.host ≠ [] → s.sched.head? ≠ some .host →
        step s = .next (failedWith { s with sched := s.sched.tail } (errorCode e))))

/-- The host's next action is performed when the engine is IDLE, and when the schedule gives a contested turn to the host;
it is taken off the list first. An IDLE block with nothing to perform stays as it is (log entries 1, 2). -/
def Obligations.HostActsInItsTurn : Prop :=
  (∀ (s : State) (a : HostAction) (rest : List HostAction), s.host = a :: rest →
    (s.eng = .idle → step s = perform params { s with host := rest } a) ∧
    (s.eng = .busy → s.sched.head? = some .host →
      step s = perform params { s with host := rest, sched := s.sched.tail } a)) ∧
  (∀ s : State, s.finished → step s = .next s)

/-- An illegal opcode written to CMD is accepted and completes with ILLEGAL_OP and no other effect (30_encoding.md rule
R101). -/
def Obligations.IllegalOpcodeCompletesWithError : Prop :=
  ∀ (s : State) (v : Word), s.eng = .idle → v.toNat % 256 ∉ legalOps →
    (hostWrite s 0x00C 4 v).eng = .busy ∧ (hostWrite s 0x00C 4 v).lCmd = v ∧
    engineMove (hostWrite s 0x00C 4 v) = .next (failedWith (hostWrite s 0x00C 4 v) 0x01)

/-- Reserved bits of the command word, and SEL: a set bit among 31:12 completes with RESERVED_BITS, with ILLEGAL_OP when OP
is illegal; SEL 8..15 on a BCH command and a non-zero SEL on any other complete with RESERVED_BITS; a legal SEL naming an
absent slot completes with NO_POLY (30_encoding.md rules R102, R103). -/
def Obligations.ReservedBitsAndSelectorErrors : Prop :=
  ∀ (s : State) (op sel high : Nat), s.lCmd.toNat % 256 = op → s.lCmd.toNat / 256 % 16 = sel → s.lCmd.toNat / 4096 = high →
    (op ∉ legalOps → engineMove s = .next (failedWith s 0x01)) ∧
    (op ∈ legalOps → high ≠ 0 → engineMove s = .next (failedWith s 0x02)) ∧
    (op ∈ bchOps → 8 ≤ sel → engineMove s = .next (failedWith s 0x02)) ∧
    (op ∈ legalOps → op ∉ bchOps → sel ≠ 0 → engineMove s = .next (failedWith s 0x02)) ∧
    (op ∈ bchOps → high = 0 → ∀ slot : Fin 8, sel = slot.val → polyAt slot < 2 →
      engineMove s = .next (failedWith s 0x05))

/-! ### Invariants, reset, liveness -/

/-- The invariant holds at reset. -/
def Obligations.InvariantHoldsAtReset : Prop := Inv State.reset

/-- Every step keeps the invariant: memories in canonical form and in range, no unlisted error code, DONE and ERRCODE clear
while BUSY, and the latches equal to ARG and CTRL while BUSY. -/
def Obligations.StepKeepsInvariant : Prop :=
  ∀ s t : State, Inv s → step s = .next t → Inv t

/-- The hard reset, from every state (70_reset_and_hazards.md rule R320). -/
def Obligations.HardResetValues : Prop :=
  ∀ s : State, ∃ t, perform params s .hardReset = .next t ∧
    t.ctrl.toWord = 0 ∧ t.statusWord = 0 ∧ (∀ i : Fin 4, t.arg[i] = 0) ∧ (∀ i : Fin 8, t.res[i] = 0) ∧
    (∀ a, Memory.read t.bitmem a = none) ∧ (∀ a, Memory.read t.symmem a = none) ∧ (∀ a, Memory.read t.outbuf a = none) ∧
    t.eng = .idle ∧ t.irq = false ∧ hostRead params t 0x000 4 = .ok (0x42434807, t) ∧
    (∀ i : Fin 8, hostRead params t (BitVec.ofNat 10 (0x040 + 4 * i.val)) 4 = .ok (params.poly[i], t)) ∧
    (∃ w, hostRead params t 0x060 4 = .ok (w, t) ∧ hostRead params s 0x060 4 = .ok (w, s))

/-- The soft reset (70_reset_and_hazards.md rule R321). -/
def Obligations.SoftResetKeepsMemories : Prop :=
  ∀ (s : State) (v : Word), v.getLsbD 31 = true →
    (s.eng = .idle →
      (hostWrite s 0x004 4 v).ctrl.toWord = 0 ∧ (hostWrite s 0x004 4 v).statusWord = 0 ∧
      (∀ i : Fin 4, (hostWrite s 0x004 4 v).arg[i] = 0) ∧ (∀ i : Fin 8, (hostWrite s 0x004 4 v).res[i] = 0) ∧
      (hostWrite s 0x004 4 v).bitmem = s.bitmem ∧ (hostWrite s 0x004 4 v).symmem = s.symmem ∧
      (hostWrite s 0x004 4 v).outbuf = s.outbuf ∧ (hostWrite s 0x004 4 v).eng = .idle) ∧
    (s.eng = .busy → hostWrite s 0x004 4 v = { s with status := { s.status with ovr := true } })

/-- A BUSY engine completes after at most as many host actions as the schedule still gives: the run faults on an unwritten
cell, or the engine is IDLE, with DONE set unless the host's actions hold a hard reset. And a step ends BUSY only by a
completion, which sets DONE, or by a hard reset (70_reset_and_hazards.md rules R322, R328; the schedule is log entry 1). -/
def Obligations.BusyEngineCompletes : Prop :=
  ∀ s : State, s.eng = .busy →
    (∃ n ≤ s.sched.length + 1,
      (∃ f, Sys2Proof.core.run n s = .fault f) ∨
      (∃ t : State, Sys2Proof.core.run n s = .next t ∧ t.eng = .idle ∧
        (HostAction.hardReset ∉ s.host → t.status.done = true))) ∧
    (∀ t, step s = .next t → t.eng = .idle →
      Performs s .hardReset ∨ ((s.host = [] ∨ s.sched.head? ≠ some .host) ∧ t.status.done = true))

/-- The engine becomes BUSY only by a word write to CMD while IDLE, and then holds the word written (10_state.md rules R36,
R48, R49). -/
def Obligations.OnlyCmdWriteStartsEngine : Prop :=
  ∀ s t : State, step s = .next t → s.eng = .idle → t.eng = .busy →
    ∃ v rest, s.host = .write 0x00C 4 v :: rest ∧ t.lCmd = v

/-! ### The host bus -/

/-- Acceptance (10_state.md rule R49). -/
def Obligations.AcceptanceLatches : Prop :=
  ∀ (s : State) (v : Word), s.eng = .idle →
    hostWrite s 0x00C 4 v =
      { s with
        lCmd := v
        lArg := s.arg
        lCtrl :=
          { harder := s.ctrl.harder, forceEn := s.ctrl.forceEn, forceTag := s.ctrl.forceTag, forceSub := s.ctrl.forceSub }
        eng := .busy
        status := { s.status with done := false, errCode := 0, lastOp := v.setWidth 8 } }

/-- While BUSY, writes to CTRL, CMD, ARG, BITMEM and SYMMEM only set OVR; STATUS is written as ever; read-only ports ignore
writes without OVR; reads are performed (20_memory.md rule R98). -/
def Obligations.BusyWritesAreDropped : Prop :=
  ∀ (s : State) (off : Offset), s.eng = .busy → off.toNat % 4 = 0 →
    (∀ v : Word,
      (off.toNat = 0x004 ∨ off.toNat = 0x00C ∨ (0x010 ≤ off.toNat ∧ off.toNat < 0x020) ∨
          (0x100 ≤ off.toNat ∧ off.toNat < 0x300) →
        hostWrite s off 4 v = { s with status := { s.status with ovr := true } }) ∧
      (off.toNat = 0x008 → hostWrite s off 4 v = { s with status := s.status.clearW1C v }) ∧
      (off.toNat = 0x000 ∨ (0x020 ≤ off.toNat ∧ off.toNat < 0x064) ∨ 0x300 ≤ off.toNat → hostWrite s off 4 v = s)) ∧
    (off.toNat ≠ 0x008 → (off.toNat < 0x064 ∨ 0x100 ≤ off.toNat) →
      ∀ w, hostRead params { s with eng := .idle } off 4 = .ok (w, { s with eng := .idle }) →
        hostRead params s off 4 = .ok (w, s))

/-- Misaligned and non-word accesses, and accesses to reserved offsets, only set BUSERR, and their reads return 0; writes to
read-only ports change nothing, and CMD reads 0 (20_memory.md rules R85, R86, R87). -/
def Obligations.RefusedAndIgnoredAccesses : Prop :=
  ∀ (s : State) (off : Offset) (size : Nat) (v : Word),
    (off.toNat % 4 ≠ 0 ∨ size ≠ 4 ∨ (0x064 ≤ off.toNat ∧ off.toNat < 0x100) →
      hostWrite s off size v = { s with status := { s.status with busErr := true } } ∧
      hostRead params s off size = .ok (0, { s with status := { s.status with busErr := true } })) ∧
    (off.toNat % 4 = 0 → off.toNat = 0x000 ∨ (0x020 ≤ off.toNat ∧ off.toNat < 0x064) ∨ 0x300 ≤ off.toNat →
      hostWrite s off 4 v = s) ∧
    hostRead params s 0x00C 4 = .ok (0, s)

/-- A read leaves the state as it is, or sets BUSERR and returns 0 where it is refused; read again at once it returns the
same value and changes nothing (20_memory.md rule R88). -/
def Obligations.ReadsAreIdempotent : Prop :=
  ∀ (s t : State) (off : Offset) (size : Nat) (w : Word), hostRead params s off size = .ok (w, t) →
    (t = s ∨ (w = 0 ∧ t = { s with status := { s.status with busErr := true } })) ∧
    hostRead params t off size = .ok (w, t)

/-- Writes and reads of CTRL and of the operand and result registers: the fields of CTRL are stored, its reserved bits read
0, bit 31 resets; ARGi is stored whole; while BUSY a write is dropped; the latched copies never change; each register reads
as what it holds (10_state.md rules R33, R37, R38). -/
def Obligations.CtrlAndOperandWrites : Prop :=
  (∀ (s : State) (v : Word),
    (s.eng = .idle → v.getLsbD 31 = false →
      ∃ c : Ctrl, hostWrite s 0x004 4 v = { s with ctrl := c } ∧ c.toWord = v &&& 0x000007F7) ∧
    (s.eng = .idle → v.getLsbD 31 = true →
      hostWrite s 0x004 4 v = s.softReset ∧ (hostWrite s 0x004 4 v).ctrl.toWord = 0) ∧
    (s.eng = .busy → hostWrite s 0x004 4 v = { s with status := { s.status with ovr := true } }) ∧
    (hostWrite s 0x004 4 v).lCtrl = s.lCtrl ∧ hostRead params s 0x004 4 = .ok (s.ctrl.toWord, s)) ∧
  (∀ (s : State) (v : Word) (off : Offset),
    (∀ i : Fin 4, off.toNat = 0x010 + 4 * i.val →
      (s.eng = .idle → ∃ a : Vector Word 4, hostWrite s off 4 v = { s with arg := a } ∧ a[i] = v ∧
        ∀ j : Fin 4, j ≠ i → a[j] = s.arg[j]) ∧
      (s.eng = .busy → hostWrite s off 4 v = { s with status := { s.status with ovr := true } }) ∧
      (hostWrite s off 4 v).lArg = s.lArg ∧ hostRead params s off 4 = .ok (s.arg[i], s)) ∧
    (∀ i : Fin 8, off.toNat = 0x020 + 4 * i.val →
      hostWrite s off 4 v = s ∧ hostRead params s off 4 = .ok (s.res[i], s)))

/-- A write of STATUS clears the bits 1 to 4 it has set, IDLE or BUSY, and nothing else; a read has no side effect
(10_state.md rule R35). -/
def Obligations.StatusWriteClearsBits : Prop :=
  ∀ (s : State) (v : Word),
    (∃ st : Status, hostWrite s 0x008 4 v = { s with status := st }) ∧
    (hostWrite s 0x008 4 v).statusWord = s.statusWord &&& ~~~(v &&& 0x0000001E) ∧
    hostRead params s 0x008 4 = .ok (s.statusWord, s)

/-- BITMEM window word j: the first bit is the most significant; a write sets all 32 bits and no other
(20_memory.md rule R83). -/
def Obligations.BitWindowPacking : Prop :=
  ∀ (s : State) (j : Nat) (off : Offset), j < 64 → off.toNat = 0x100 + 4 * j →
    (∀ x : Bits, x.length = 32 → Holds s.bitmem (32 * j) x →
      ∃ w : Word, hostRead params s off 4 = .ok (w, s) ∧ ∀ k, k < 32 → x[k]? = some (w.getLsbD (31 - k))) ∧
    (s.eng = .idle → ∀ v : Word, ∃ m, hostWrite s off 4 v = { s with bitmem := m } ∧
      (∀ k, k < 32 → Memory.read m (32 * j + k) = some (v.getLsbD (31 - k))) ∧ SameOutside s.bitmem m (32 * j) 32)

/-- SYMMEM window word j: the lowest-numbered symbol is the least significant byte (20_memory.md rule R84). -/
def Obligations.SymWindowPacking : Prop :=
  ∀ (s : State) (j : Nat) (off : Offset), j < 64 → off.toNat = 0x200 + 4 * j →
    (∀ x : List Sym, x.length = 4 → Holds s.symmem (4 * j) x →
      ∃ w : Word, hostRead params s off 4 = .ok (w, s) ∧ ∀ k, k < 4 → x[k]? = some (w.extractLsb' (8 * k) 8)) ∧
    (s.eng = .idle → ∀ v : Word, ∃ m, hostWrite s off 4 v = { s with symmem := m } ∧
      (∀ k, k < 4 → Memory.read m (4 * j + k) = some (v.extractLsb' (8 * k) 8)) ∧ SameOutside s.symmem m (4 * j) 4)

/-- The read-only ports ID, CAPS, POLY0..POLY7 and the OUTBUF window: what each reads as in every state, and that a write
changes nothing (10_state.md rules R31, R39, R40, R44; 20_memory.md rule R87). -/
def Obligations.ReadOnlyPortsRead : Prop :=
  ∀ (s : State) (v : Word), hostRead params s 0x000 4 = .ok (0x42434807, s) ∧
    (∃ w : Word, hostRead params s 0x060 4 = .ok (w, s) ∧ w.toNat % 2 ^ 24 = 0x400800 ∧
      ∀ slot : Fin 8, w.getLsbD (24 + slot.val) = decide (2 ≤ polyAt slot)) ∧
    hostWrite s 0x000 4 v = s ∧ hostWrite s 0x060 4 v = s ∧
    (∀ (slot : Fin 8) (off : Offset), off.toNat = 0x040 + 4 * slot.val →
      hostRead params s off 4 = .ok (params.poly[slot], s) ∧ hostWrite s off 4 v = s) ∧
    (∀ (k : Nat) (off : Offset), k < 64 → off.toNat = 0x300 + 4 * k →
      (∀ w, Memory.read s.outbuf k = some w → hostRead params s off 4 = .ok (w, s)) ∧ hostWrite s off 4 v = s)

/-- A host read of a window word that covers a cell with a clear written mark is the fault UNINIT (10_state.md rule R45). So
is every command whose operands pass its checks and whose source holds such a cell; that a command reads the whole of its
source region is deduced (log entry 6), and that RS_FIX6 does so before it checks the symbols is the model's choice (log
entry 7). -/
def Obligations.UnwrittenReadsFault : Prop :=
  (∀ (s : State) (j : Nat) (off : Offset), j < 64 →
    (off.toNat = 0x100 + 4 * j → (∃ k, k < 32 ∧ Memory.read s.bitmem (32 * j + k) = none) →
      ∃ a, hostRead params s off 4 = .error (.uninit .bitmem a)) ∧
    (off.toNat = 0x200 + 4 * j → (∃ k, k < 4 ∧ Memory.read s.symmem (4 * j + k) = none) →
      ∃ a, hostRead params s off 4 = .error (.uninit .symmem a)) ∧
    (off.toNat = 0x300 + 4 * j → Memory.read s.outbuf j = none →
      hostRead params s off 4 = .error (.uninit .outbuf j))) ∧
  (∀ (i : Instr) (s : State) (a n k : Nat), OperandsPass i s → k < n →
    ((a, n) ∈ sourceBits i s → Memory.read s.bitmem (a + k) = none → ∃ b, exec i s = .fault (.uninit .bitmem b)) ∧
    ((a, n) ∈ sourceSyms i s → Memory.read s.symmem (a + k) = none → ∃ b, exec i s = .fault (.uninit .symmem b)))

/-- A command faults only on an unwritten cell of its memory, and never has no meaning (10_state.md rule R45). -/
def Obligations.FaultsOnlyOnUnwrittenCells : Prop :=
  ∀ (i : Instr) (s : State),
    (∀ f, exec i s = .fault f →
      (∃ a, a < 2048 ∧ f = .uninit .bitmem a ∧ Memory.read s.bitmem a = none) ∨
      (∃ a, a < 256 ∧ f = .uninit .symmem a ∧ Memory.read s.symmem a = none)) ∧
    (∀ r, exec i s ≠ .refused r)

/-- The interrupt line is IRQ_EN and DONE: a completion raises it where enabled, acceptance and clearing DONE lower it, a
CTRL write switches it at once (10_state.md rule R51, 60_exceptions.md rules R298, R299). -/
def Obligations.IrqFollowsEnableAndDone : Prop :=
  ∀ (s : State) (v : Word),
    (∀ i t, exec i s = .next t → t.irq = s.ctrl.irqEn) ∧
    (s.eng = .idle → (hostWrite s 0x00C 4 v).irq = false) ∧
    (s.eng = .idle → v.getLsbD 31 = false → (hostWrite s 0x004 4 v).irq = (v.getLsbD 1 && s.status.done)) ∧
    (s.eng = .busy → (hostWrite s 0x004 4 v).irq = s.irq) ∧
    (hostWrite s 0x008 4 v).irq = (s.irq && !v.getLsbD 1)

/-- ERR, OVR and BUSERR stay 1 until the host writes 1 to them or a reset clears them (60_exceptions.md rule R297): a step
that lowers one performs a hard reset, a CTRL write with bit 31 set while IDLE, or a STATUS write with its bit set. -/
def Obligations.StickyBitsStay : Prop :=
  ∀ s t : State, step s = .next t →
    Performs s .hardReset ∨
    (s.eng = .idle ∧ ∃ v, Performs s (.write 0x004 4 v) ∧ v.getLsbD 31 = true) ∨
    ((s.status.err = true → t.status.err = true ∨ ∃ v, Performs s (.write 0x008 4 v) ∧ v.getLsbD 2 = true) ∧
     (s.status.ovr = true → t.status.ovr = true ∨ ∃ v, Performs s (.write 0x008 4 v) ∧ v.getLsbD 3 = true) ∧
     (s.status.busErr = true → t.status.busErr = true ∨ ∃ v, Performs s (.write 0x008 4 v) ∧ v.getLsbD 4 = true))

/-! ### Frames of the commands -/

/-- A command that completes with an error changes STATUS and ENG only, and its code is one of 0x01..0x09: for `exec` of
every command, and for the completion step, which also completes words that decode to no command (60_exceptions.md rules
R291, R292, R294). -/
def Obligations.ErrorsChangeOnlyStatus : Prop :=
  (∀ (i : Instr) (s t : State), exec i s = .next t → t.status.errCode ≠ 0 →
    t.status.errCode ≤ 0x09 ∧ t = failedWith s t.status.errCode) ∧
  (∀ s t : State, engineMove s = .next t → t.status.errCode ≠ 0 →
    t.status.errCode ≤ 0x09 ∧ t = failedWith s t.status.errCode)

/-- Every completion, of every command: ENG is IDLE, DONE is 1, ERR is the old ERR or an error, and CTRL, ARG, the latches,
OVR, BUSERR, LASTOP and the host's own fields are unchanged (10_state.md rules R37, R50, 60_exceptions.md rule R297). -/
def Obligations.CompletionFrame : Prop :=
  ∀ (i : Instr) (s t : State), exec i s = .next t →
    t.eng = .idle ∧ t.status.done = true ∧ t.status.err = (s.status.err || decide (t.status.errCode ≠ 0)) ∧ KeepsRest s t

/-- The RES registers a command does not list keep their values (10_state.md rule R38, 30_encoding.md rule R105). -/
def Obligations.ResultRegisterFrame : Prop :=
  ∀ (i : Instr) (s t : State), exec i s = .next t → ∀ k : Fin 8, resCount i ≤ k.val → t.res[k] = s.res[k]

/-- Every cell of BITMEM, SYMMEM and OUTBUF outside the region the command writes reads as before, for every command
(30_encoding.md rule R105, 10_state.md rules R42 to R45). -/
def Obligations.MemoryFrame : Prop :=
  ∀ (i : Instr) (s t : State), exec i s = .next t →
    (∀ b, (∀ d n, bitDestination i s = some (d, n) → ¬ (d ≤ b ∧ b < d + n)) →
      Memory.read t.bitmem b = Memory.read s.bitmem b) ∧
    (∀ b, (∀ d n, symDestination i s = some (d, n) → ¬ (d ≤ b ∧ b < d + n)) →
      Memory.read t.symmem b = Memory.read s.symmem b) ∧
    (∀ b, outCount i s ≤ b → Memory.read t.outbuf b = Memory.read s.outbuf b)

/-! ### Control and bit utilities -/

/-- NOP (40_control.md rule R120). -/
def Obligations.NopCompletes : Prop :=
  (∀ s : State, exec .nop s = .next (doneState s)) ∧
  (∀ s : State, s.lCmd.toNat % 256 = 0 → s.lCmd.toNat / 256 ≠ 0 → engineMove s = .next (failedWith s 0x02))

/-- EXTRACT (41_bitutil.md rule R131): the field's first bit is the most significant of the w low bits of RES0. -/
def Obligations.ExtractReadsField : Prop :=
  ∀ (s : State) (a w : Nat), s.operand 0 = a → s.operand 1 = w →
    (w < 1 ∨ 32 < w → exec .extract s = .next (failedWith s 0x04)) ∧
    (1 ≤ w → w ≤ 32 → 2048 < a + w → exec .extract s = .next (failedWith s 0x03)) ∧
    (1 ≤ w → w ≤ 32 → a + w ≤ 2048 → ∀ x : Bits, x.length = w → Holds s.bitmem a x →
      ∃ t, exec .extract s = .next t ∧ Succeeds s t [t.res[0]] ∧
        (∀ k, k < w → x[k]? = some (t.res[0].getLsbD (w - 1 - k))) ∧ t.res[0].toNat < 2 ^ w ∧
        KeepsBits s t ∧ KeepsSyms s t ∧ KeepsOut s t)

/-- SLICE (41_bitutil.md rule R132): the groups in OUTBUF, the remainder in RES1. -/
def Obligations.SliceWritesGroups : Prop :=
  ∀ (s : State) (a len w : Nat), s.operand 0 = a → s.operand 1 = len → s.operand 2 = w →
    (w < 1 ∨ 32 < w → exec .slice s = .next (failedWith s 0x04)) ∧
    (1 ≤ w → w ≤ 32 → 2048 < a + len → exec .slice s = .next (failedWith s 0x03)) ∧
    (1 ≤ w → w ≤ 32 → a + len ≤ 2048 → 64 < len / w → exec .slice s = .next (failedWith s 0x08)) ∧
    (1 ≤ w → w ≤ 32 → a + len ≤ 2048 → len / w ≤ 64 → ∀ x : Bits, x.length = len → Holds s.bitmem a x →
      ∃ t, exec .slice s = .next t ∧ Succeeds s t [wordOf (len / w), t.res[1], wordOf (len % w)] ∧
        (∀ k, k < len / w →
          ∃ v : Word, Memory.read t.outbuf k = some v ∧ v.toNat = val ((x.drop (k * w)).take w)) ∧
        (∀ k, len / w ≤ k → Memory.read t.outbuf k = Memory.read s.outbuf k) ∧
        t.res[1].toNat = val (x.drop (len / w * w)) ∧ KeepsBits s t ∧ KeepsSyms s t)

/-- DEINT2 and DEINT3 (41_bitutil.md rules R134, R135): bit i of the destination is bit P(i) of the source, read before any
bit is written; RANGE and NO_TABLE. -/
def Obligations.DeinterleaveMovesBits : Prop :=
  (∀ (s : State) (tbl : PermTable) (x : Bits), PermuteReady params.perm2 s tbl x →
    ∃ t s0 s1, exec .deint2 s = .next t ∧ tbl.streams = [s0, s1] ∧ Succeeds s t [wordOf s0, wordOf s1] ∧
      (∀ i, i < s.operand 2 →
        ∃ j b, tbl.perm[i]? = some j ∧ x[j]? = some b ∧ Memory.read t.bitmem (s.operand 1 + i) = some b) ∧
      SameOutside s.bitmem t.bitmem (s.operand 1) (s.operand 2) ∧ KeepsSyms s t ∧ KeepsOut s t) ∧
  (∀ (s : State) (tbl : PermTable) (x : Bits), PermuteReady params.perm3 s tbl x →
    ∃ t s0 s1 s2, exec .deint3 s = .next t ∧ tbl.streams = [s0, s1, s2] ∧
      Succeeds s t [wordOf s0, wordOf s1, wordOf s2] ∧
      (∀ i, i < s.operand 2 →
        ∃ j b, tbl.perm[i]? = some j ∧ x[j]? = some b ∧ Memory.read t.bitmem (s.operand 1 + i) = some b) ∧
      SameOutside s.bitmem t.bitmem (s.operand 1) (s.operand 2) ∧ KeepsSyms s t ∧ KeepsOut s t) ∧
  (∀ s : State, 2048 < s.operand 0 + s.operand 2 ∨ 2048 < s.operand 1 + s.operand 2 →
    exec .deint2 s = .next (failedWith s 0x03) ∧ exec .deint3 s = .next (failedWith s 0x03)) ∧
  (∀ s : State, s.operand 0 + s.operand 2 ≤ 2048 → s.operand 1 + s.operand 2 ≤ 2048 →
    (findTable params.perm2 (s.operand 2) = none → exec .deint2 s = .next (failedWith s 0x06)) ∧
    (findTable params.perm3 (s.operand 2) = none → exec .deint3 s = .next (failedWith s 0x06)))

/-- INT2 and INT3 (41_bitutil.md rules R137, R138): bit P(i) of the destination is bit i of the source. -/
def Obligations.InterleaveMovesBits : Prop :=
  (∀ (s : State) (tbl : PermTable) (y : Bits), PermuteReady params.perm2 s tbl y →
    ∃ t s0 s1, exec .int2 s = .next t ∧ tbl.streams = [s0, s1] ∧ Succeeds s t [wordOf s0, wordOf s1] ∧
      (∀ i, i < s.operand 2 →
        ∃ j b, tbl.perm[i]? = some j ∧ y[i]? = some b ∧ Memory.read t.bitmem (s.operand 1 + j) = some b) ∧
      SameOutside s.bitmem t.bitmem (s.operand 1) (s.operand 2) ∧ KeepsSyms s t ∧ KeepsOut s t) ∧
  (∀ (s : State) (tbl : PermTable) (y : Bits), PermuteReady params.perm3 s tbl y →
    ∃ t s0 s1 s2, exec .int3 s = .next t ∧ tbl.streams = [s0, s1, s2] ∧
      Succeeds s t [wordOf s0, wordOf s1, wordOf s2] ∧
      (∀ i, i < s.operand 2 →
        ∃ j b, tbl.perm[i]? = some j ∧ y[i]? = some b ∧ Memory.read t.bitmem (s.operand 1 + j) = some b) ∧
      SameOutside s.bitmem t.bitmem (s.operand 1) (s.operand 2) ∧ KeepsSyms s t ∧ KeepsOut s t) ∧
  (∀ s : State, 2048 < s.operand 0 + s.operand 2 ∨ 2048 < s.operand 1 + s.operand 2 →
    exec .int2 s = .next (failedWith s 0x03) ∧ exec .int3 s = .next (failedWith s 0x03)) ∧
  (∀ s : State, s.operand 0 + s.operand 2 ≤ 2048 → s.operand 1 + s.operand 2 ≤ 2048 →
    (findTable params.perm2 (s.operand 2) = none → exec .int2 s = .next (failedWith s 0x06)) ∧
    (findTable params.perm3 (s.operand 2) = none → exec .int3 s = .next (failedWith s 0x06)))

/-- DEINTLCW and INTLCW (41_bitutil.md rules R136, R139). -/
def Obligations.LcwPermutationMovesBits : Prop :=
  (∀ s : State, s.operand 2 ≠ 46 →
    exec .deintlcw s = .next (failedWith s 0x04) ∧ exec .intlcw s = .next (failedWith s 0x04)) ∧
  (∀ s : State, s.operand 2 = 46 → 2048 < s.operand 0 + 46 ∨ 2048 < s.operand 1 + 46 →
    exec .deintlcw s = .next (failedWith s 0x03) ∧ exec .intlcw s = .next (failedWith s 0x03)) ∧
  (∀ (s : State) (x : Bits), s.operand 2 = 46 → s.operand 0 + 46 ≤ 2048 → s.operand 1 + 46 ≤ 2048 → x.length = 46 →
    Holds s.bitmem (s.operand 0) x →
    (∃ t, exec .deintlcw s = .next t ∧
      Succeeds s t [wordOf params.lcwW1, wordOf params.lcwW2, wordOf params.lcwW3] ∧
      (∀ i, i < 46 →
        ∃ j b, params.permLcw[i]? = some j ∧ x[j]? = some b ∧ Memory.read t.bitmem (s.operand 1 + i) = some b) ∧
      SameOutside s.bitmem t.bitmem (s.operand 1) 46 ∧ KeepsSyms s t ∧ KeepsOut s t) ∧
    (∃ t, exec .intlcw s = .next t ∧
      Succeeds s t [wordOf params.lcwW1, wordOf params.lcwW2, wordOf params.lcwW3] ∧
      (∀ i, i < 46 →
        ∃ j b, params.permLcw[i]? = some j ∧ x[i]? = some b ∧ Memory.read t.bitmem (s.operand 1 + j) = some b) ∧
      SameOutside s.bitmem t.bitmem (s.operand 1) 46 ∧ KeepsSyms s t ∧ KeepsOut s t))

/-- The inverse law, for every table of the chip and the link-control-word table (41_bitutil.md rule R140). -/
def Obligations.InterleaveInverseLaw : Prop :=
  (∀ tbl ∈ params.perm2 ++ params.perm3, ∀ x : Bits, x.length = tbl.perm.length →
    interleave tbl.perm (deinterleave tbl.perm x) = x ∧ deinterleave tbl.perm (interleave tbl.perm x) = x) ∧
  (∀ x : Bits, x.length = 46 →
    interleave params.permLcw (deinterleave params.permLcw x) = x ∧
    deinterleave params.permLcw (interleave params.permLcw x) = x)

/-- HAMMING (41_bitutil.md rule R141). -/
def Obligations.HammingCountsDifferences : Prop :=
  ∀ (s : State) (a b len : Nat), s.operand 0 = a → s.operand 1 = b → s.operand 2 = len →
    (2048 < a + len ∨ 2048 < b + len → exec .hamming s = .next (failedWith s 0x03)) ∧
    (a + len ≤ 2048 → b + len ≤ 2048 → ∀ x y : Bits, x.length = len → y.length = len → Holds s.bitmem a x →
      Holds s.bitmem b y →
      ∃ t, exec .hamming s = .next t ∧ Succeeds s t [t.res[0]] ∧
        t.res[0].toNat = ((List.range len).filter fun i => decide (x[i]? ≠ y[i]?)).length ∧
        KeepsBits s t ∧ KeepsSyms s t ∧ KeepsOut s t)

/-- CKSUM8 and CKSUM16 over the bytes of a region, the first bit of each byte most significant (41_bitutil.md rules R142,
R143, R144). -/
def Obligations.ChecksumsOfBytes : Prop :=
  ∀ (s : State) (a n : Nat), s.operand 0 = a → s.operand 1 = n →
    (2048 < a + 8 * n →
      exec .cksum8 s = .next (failedWith s 0x03) ∧ exec .cksum16 s = .next (failedWith s 0x03)) ∧
    (a + 8 * n ≤ 2048 → ∀ bs : List (BitVec 8), bs.length = n →
      Holds s.bitmem a (bs.flatMap fun b => (List.range 8).map fun i => b.getLsbD (7 - i)) →
      (∃ t, exec .cksum8 s = .next t ∧ Succeeds s t [(params.cksum8 bs).setWidth 32] ∧
        KeepsBits s t ∧ KeepsSyms s t ∧ KeepsOut s t) ∧
      (∃ t, exec .cksum16 s = .next t ∧ Succeeds s t [(params.cksum16 bs).setWidth 32] ∧
        KeepsBits s t ∧ KeepsSyms s t ∧ KeepsOut s t))

/-! ### The BCH unit -/

/-- BCH_DIV (42_bch.md rules R170, R176): RES0 is the remainder of the codeword's polynomial, of degree below the
generator's. -/
def Obligations.BchDivGivesRemainder : Prop :=
  ∀ (s : State) (slot : Fin 8) (a n : Nat), s.operand 0 = a → s.operand 1 = n →
    (polyAt slot < 2 → exec (.bchDiv (selOf slot)) s = .next (failedWith s 0x05)) ∧
    (2 ≤ polyAt slot → n < 1 ∨ 64 < n → exec (.bchDiv (selOf slot)) s = .next (failedWith s 0x04)) ∧
    (2 ≤ polyAt slot → 1 ≤ n → n ≤ 64 → 2048 < a + n → exec (.bchDiv (selOf slot)) s = .next (failedWith s 0x03)) ∧
    (2 ≤ polyAt slot → 1 ≤ n → n ≤ 64 → a + n ≤ 2048 → ∀ c : Bits, c.length = n → Holds s.bitmem a c →
      ∃ t, exec (.bchDiv (selOf slot)) s = .next t ∧ Succeeds s t [t.res[0], wordOf (deg (polyAt slot))] ∧
        t.res[0].toNat < 2 ^ deg (polyAt slot) ∧
        (∃ q, val c = polyMul (polyAt slot) q n ^^^ t.res[0].toNat) ∧
        KeepsBits s t ∧ KeepsSyms s t ∧ KeepsOut s t)

/-- BCH_DECODE (42_bch.md rule R177). -/
def Obligations.BchDecodeCommandResults : Prop :=
  ∀ (s : State) (slot : Fin 8) (src n dst : Nat), s.operand 0 = src → s.operand 1 = n → s.operand 2 = dst →
    (polyAt slot < 2 → exec (.bchDecode (selOf slot)) s = .next (failedWith s 0x05)) ∧
    (2 ≤ polyAt slot → n ≤ deg (polyAt slot) ∨ 64 < n →
      exec (.bchDecode (selOf slot)) s = .next (failedWith s 0x04)) ∧
    (2 ≤ polyAt slot → deg (polyAt slot) < n → n ≤ 64 → 2048 < src + n ∨ 2048 < dst + n →
      exec (.bchDecode (selOf slot)) s = .next (failedWith s 0x03)) ∧
    (2 ≤ polyAt slot → deg (polyAt slot) < n → n ≤ 64 → src + n ≤ 2048 → dst + n ≤ 2048 →
      ∀ (c : Bits) (r : BchDecoded), c.length = n → Holds s.bitmem src c → bchDecode .coeff (polyAt slot) c = r →
      ∃ t, exec (.bchDecode (selOf slot)) s = .next t ∧
        Succeeds s t
          [optWord r.errs, optWord r.p1, optWord r.p2, wordOf (n - deg (polyAt slot)), t.res[4], t.res[5]] ∧
        t.res[4].toNat = val (r.word.take (min (n - deg (polyAt slot)) 32)) ∧
        t.res[5].toNat = rem (polyAt slot) c ∧
        r.word.length = n ∧ Holds t.bitmem dst r.word ∧ SameOutside s.bitmem t.bitmem dst n ∧
        KeepsSyms s t ∧ KeepsOut s t)

/-- The decode function (42_bch.md rules R171, R173): a corrected word is a valid codeword at the distance counted, at most
2, and no valid codeword is nearer; -1 means that no word within distance 2 is valid, and gives the input back. -/
def Obligations.BchDecodeFindsNearestCodeword : Prop :=
  ∀ (ord : FlipOrder) (g : Nat) (c : Bits) (r : BchDecoded), bchDecode ord g c = r →
    (∀ e, r.errs = some e →
      e ≤ 2 ∧ r.word.length = c.length ∧ rem g r.word = 0 ∧ hd c r.word = e ∧
      ∀ w : Bits, w.length = c.length → hd c w < e → rem g w ≠ 0) ∧
    (r.errs = none →
      r.word = c ∧ r.p1 = none ∧ r.p2 = none ∧ ∀ w : Bits, w.length = c.length → hd c w ≤ 2 → rem g w ≠ 0)

/-- First match wins: the single flip taken has the least index, the double flip taken is the first of the lexicographic
order of index pairs, and the positions reported are those flipped, the smaller first (42_bch.md rules R172, R173). -/
def Obligations.BchFirstMatchWins : Prop :=
  ∀ (ord : FlipOrder) (g : Nat) (c : Bits) (r : BchDecoded), bchDecode ord g c = r →
    (r.errs = some 0 → r.word = c ∧ r.p1 = none ∧ r.p2 = none) ∧
    (r.errs = some 1 → ∃ j, j < c.length ∧ r.word = flip c (flipPos ord c.length j) ∧
      r.p1 = some (flipPos ord c.length j) ∧ r.p2 = none ∧
      ∀ j', j' < j → rem g (flip c (flipPos ord c.length j')) ≠ 0) ∧
    (r.errs = some 2 → ∃ j1 j2, j1 < j2 ∧ j2 < c.length ∧
      r.word = flip (flip c (flipPos ord c.length j1)) (flipPos ord c.length j2) ∧
      r.p1 = some (min (flipPos ord c.length j1) (flipPos ord c.length j2)) ∧
      r.p2 = some (max (flipPos ord c.length j1) (flipPos ord c.length j2)) ∧
      ∀ k1 k2, k1 < k2 → k2 < c.length → (k1 < j1 ∨ (k1 = j1 ∧ k2 < j2)) →
        rem g (flip (flip c (flipPos ord c.length k1)) (flipPos ord c.length k2)) ≠ 0)

/-- Guaranteed correction (42_bch.md rule R182): with minimum distance 3 every single error, and with minimum distance 5
every double error, is corrected to the codeword sent. -/
def Obligations.BchGuaranteedCorrection : Prop :=
  ∀ (ord : FlipOrder) (g n : Nat) (c : Bits), c.length = n → rem g c = 0 →
    ((∀ w : Bits, w.length = n → rem g w = 0 → true ∈ w → 3 ≤ w.count true) →
      ∀ i, i < n → (bchDecode ord g (flip c i)).errs = some 1 ∧ (bchDecode ord g (flip c i)).word = c) ∧
    ((∀ w : Bits, w.length = n → rem g w = 0 → true ∈ w → 5 ≤ w.count true) →
      ∀ i j, i < j → j < n →
        (bchDecode ord g (flip (flip c i) j)).errs = some 2 ∧ (bchDecode ord g (flip (flip c i) j)).word = c)

/-- The search bound (42_bch.md rule R183). -/
def Obligations.BchSearchBound : Prop :=
  ∀ (ord : FlipOrder) (n : Nat), (flipSets ord n).length = 1 + n + n * (n - 1) / 2

/-- BCH_DECODE2P (42_bch.md rules R175, R179): both pad bits are tried; an uncorrectable candidate ranks below a
correctable one, and a tie keeps pad bit 0. -/
def Obligations.PadDecodeCommandResults : Prop :=
  ∀ (s : State) (slot : Fin 8) (src n dst p : Nat), s.operand 0 = src → s.operand 1 = n → s.operand 2 = dst →
    s.operand 3 = p →
    (polyAt slot < 2 → exec (.bchDecode2p (selOf slot)) s = .next (failedWith s 0x05)) ∧
    (2 ≤ polyAt slot → n ≤ deg (polyAt slot) ∨ 64 < n ∨ n ≤ p →
      exec (.bchDecode2p (selOf slot)) s = .next (failedWith s 0x04)) ∧
    (2 ≤ polyAt slot → deg (polyAt slot) < n → n ≤ 64 → p < n → 2048 < src + (n - 1) ∨ 2048 < dst + n →
      exec (.bchDecode2p (selOf slot)) s = .next (failedWith s 0x03)) ∧
    (2 ≤ polyAt slot → deg (polyAt slot) < n → n ≤ 64 → p < n → src + (n - 1) ≤ 2048 → dst + n ≤ 2048 →
      ∀ (x : Bits) (r0 r1 : BchDecoded), x.length = n - 1 → Holds s.bitmem src x →
      bchDecode .coeff (polyAt slot) (x.take p ++ [false] ++ x.drop p) = r0 →
      bchDecode .coeff (polyAt slot) (x.take p ++ [true] ++ x.drop p) = r1 →
      ∃ t r b, exec (.bchDecode2p (selOf slot)) s = .next t ∧
        ((b = false ∧ r = r0 ∧ r0.errs.getD 3 ≤ r1.errs.getD 3) ∨ (b = true ∧ r = r1 ∧ r1.errs.getD 3 < r0.errs.getD 3)) ∧
        Succeeds s t
          [optWord r.errs, optWord r.p1, optWord r.p2, wordOf (n - deg (polyAt slot)), t.res[4], t.res[5], boolWord b] ∧
        t.res[4].toNat = val (r.word.take (min (n - deg (polyAt slot)) 32)) ∧
        t.res[5].toNat = rem (polyAt slot) (x.take p ++ [b] ++ x.drop p) ∧
        r.word.length = n ∧ Holds t.bitmem dst r.word ∧ SameOutside s.bitmem t.bitmem dst n ∧
        KeepsSyms s t ∧ KeepsOut s t)

/-- BCH_BLOCK32 (42_bch.md rule R180). -/
def Obligations.Block32CommandResults : Prop :=
  ∀ (s : State) (slot : Fin 8) (src dst : Nat), s.operand 0 = src → s.operand 1 = dst →
    (polyAt slot < 2 → exec (.bchBlock32 (selOf slot)) s = .next (failedWith s 0x05)) ∧
    (2 ≤ polyAt slot → 31 ≤ deg (polyAt slot) → exec (.bchBlock32 (selOf slot)) s = .next (failedWith s 0x04)) ∧
    (2 ≤ polyAt slot → deg (polyAt slot) < 31 → 2048 < src + 32 ∨ 2048 < dst + 32 →
      exec (.bchBlock32 (selOf slot)) s = .next (failedWith s 0x03)) ∧
    (2 ≤ polyAt slot → deg (polyAt slot) < 31 → src + 32 ≤ 2048 → dst + 32 ≤ 2048 →
      ∀ (blk : Bits) (r : BlockDecoded), blk.length = 32 → Holds s.bitmem src blk →
      block32 .coeff (polyAt slot) blk s.lCtrl.harder = r →
      ∃ t, exec (.bchBlock32 (selOf slot)) s = .next t ∧
        Succeeds s t [optWord r.errs, wordOf r.parity, optWord r.p1, optWord r.p2, t.res[4], t.res[5]] ∧
        t.res[4].toNat = val (r.word.take (31 - deg (polyAt slot))) ∧
        t.res[5].toNat = rem (polyAt slot) (blk.take 31) ∧
        r.word.length = 32 ∧ Holds t.bitmem dst r.word ∧ SameOutside s.bitmem t.bitmem dst 32 ∧
        KeepsSyms s t ∧ KeepsOut s t)

/-- The 32-bit block function (42_bch.md rule R178): uncorrectable blocks come back unchanged; otherwise the 31 bits are
the corrected codeword, and the parity outcome, the count and the parity bit follow parity and the harder flag. -/
def Obligations.BlockParityOutcome : Prop :=
  ∀ (ord : FlipOrder) (g : Nat) (c : Bits) (q h : Bool) (d : BchDecoded) (r : BlockDecoded), c.length = 31 →
    bchDecode ord g c = d → block32 ord g (c ++ [q]) h = r →
    (d.errs = none → r.errs = none ∧ r.word = c ++ [q] ∧ r.p1 = none ∧ r.p2 = none ∧ r.parity = 0) ∧
    (∀ e, d.errs = some e →
      r.p1 = d.p1 ∧ r.p2 = d.p2 ∧
      (((d.word ++ [q]).count true % 2 = 0 ∧ r.parity = 0 ∧ r.errs = some e ∧ r.word = d.word ++ [q]) ∨
       ((d.word ++ [q]).count true % 2 = 1 ∧ h = false ∧ r.parity = 1 ∧ r.errs = some e ∧ r.word = d.word ++ [q]) ∨
       ((d.word ++ [q]).count true % 2 = 1 ∧ h = true ∧ r.parity = 2 ∧ r.errs = some (e + 1) ∧
        r.word = d.word ++ [!q] ∧ r.word.count true % 2 = 0)))

/-- BCH_BLOCKSEQ (42_bch.md rule R181): `m` blocks are decoded, up to the first uncorrectable one or all of them; their
counts are added, and everything after them is copied unchanged. -/
def Obligations.BlockSeqCommandResults : Prop :=
  ∀ (s : State) (slot : Fin 8) (src nb dst : Nat), s.operand 0 = src → s.operand 1 = nb → s.operand 2 = dst →
    (polyAt slot < 2 → exec (.bchBlockseq (selOf slot)) s = .next (failedWith s 0x05)) ∧
    (2 ≤ polyAt slot → 31 ≤ deg (polyAt slot) ∨ 64 < nb →
      exec (.bchBlockseq (selOf slot)) s = .next (failedWith s 0x04)) ∧
    (2 ≤ polyAt slot → deg (polyAt slot) < 31 → nb ≤ 64 → 2048 < src + 32 * nb ∨ 2048 < dst + 32 * nb →
      exec (.bchBlockseq (selOf slot)) s = .next (failedWith s 0x03)) ∧
    (2 ≤ polyAt slot → deg (polyAt slot) < 31 → nb ≤ 64 → src + 32 * nb ≤ 2048 → dst + 32 * nb ≤ 2048 →
      ∀ x : Bits, x.length = 32 * nb → Holds s.bitmem src x →
      ∃ (t : State) (rs : List BlockDecoded) (es : List Nat) (m : Nat), exec (.bchBlockseq (selOf slot)) s = .next t ∧
        m ≤ nb ∧
        rs = ((List.range m).map fun i => block32 .coeff (polyAt slot) ((x.drop (32 * i)).take 32) s.lCtrl.harder) ∧
        rs.map (fun r => r.errs) = es.map some ∧
        (m < nb → (block32 .coeff (polyAt slot) ((x.drop (32 * m)).take 32) s.lCtrl.harder).errs = none) ∧
        Succeeds s t
          [wordOf m, wordOf es.sum, wordOf (rs.filter fun r => decide (r.parity = 1)).length, wordOf (32 * m),
            boolWord (decide (m < nb))] ∧
        Holds t.bitmem dst ((rs.map fun r => r.word).flatten ++ x.drop (32 * m)) ∧
        SameOutside s.bitmem t.bitmem dst (32 * nb) ∧ KeepsSyms s t ∧ KeepsOut s t)

/-! ### The Reed–Solomon unit -/

/-- RS_FIX8 (43_rs.md rule R220). -/
def Obligations.RsFix8CommandResults : Prop :=
  ∀ (s : State) (src len dst : Nat), s.operand 0 = src → s.operand 1 = len → s.operand 2 = dst →
    (len ≤ 16 ∨ 255 < len → exec .rsFix8 s = .next (failedWith s 0x04)) ∧
    (16 < len → len ≤ 255 → 256 < src + len ∨ 256 < dst + len → exec .rsFix8 s = .next (failedWith s 0x03)) ∧
    (16 < len → len ≤ 255 → src + len ≤ 256 → dst + len ≤ 256 →
      ∀ (r : List Sym) (q : RsFixed), r.length = len → Holds s.symmem src r →
      rsFix (rs8Code params) (r.map BitVec.toNat) = q →
      ∃ t, exec .rsFix8 s = .next t ∧ Succeeds s t [boolWord q.ok, wordOf q.ncorr, wordOf (len - 16), 16] ∧
        (∃ c : List Sym, c.map BitVec.toNat = q.word ∧ c.length = len ∧ Holds t.symmem dst c) ∧
        SameOutside s.symmem t.symmem dst len ∧ KeepsBits s t ∧ KeepsOut s t)

/-- RS_FIX6 (43_rs.md rule R221): SYMBOL for a symbol above 63, and output symbols of 0..63. -/
def Obligations.RsFix6CommandResults : Prop :=
  ∀ (s : State) (src len dst : Nat), s.operand 0 = src → s.operand 1 = len → s.operand 2 = dst →
    (len ≤ 10 ∨ 63 < len → exec .rsFix6 s = .next (failedWith s 0x04)) ∧
    (10 < len → len ≤ 63 → 256 < src + len ∨ 256 < dst + len → exec .rsFix6 s = .next (failedWith s 0x03)) ∧
    (10 < len → len ≤ 63 → src + len ≤ 256 → dst + len ≤ 256 → ∀ r : List Sym, r.length = len → Holds s.symmem src r →
      ((∃ v ∈ r, 63 < v.toNat) → exec .rsFix6 s = .next (failedWith s 0x07)) ∧
      ((∀ v ∈ r, v.toNat ≤ 63) → ∀ q : RsFixed, rsFix (rs6Code params) (r.map BitVec.toNat) = q →
        ∃ t, exec .rsFix6 s = .next t ∧ Succeeds s t [boolWord q.ok, wordOf q.ncorr, wordOf (len - 10), 10] ∧
          (∃ c : List Sym, c.map BitVec.toNat = q.word ∧ c.length = len ∧ (∀ v ∈ c, v.toNat ≤ 63) ∧
            Holds t.symmem dst c) ∧
          SameOutside s.symmem t.symmem dst len ∧ KeepsBits s t ∧ KeepsOut s t))

/-- The decode function of a code (43_rs.md rules R214, R218, R219, R222): success gives a word of the same length all of
whose padded syndromes are zero, changed in at most `ncorr <= t` positions; failure gives the input back with count 0; a
word without a non-zero syndrome is given back as it is; and over a valid field a codeword with any one symbol changed is
corrected to that codeword, with count 1. -/
def Obligations.RsDecodeIsSoundAndCorrectsOneSymbol : Prop :=
  ∀ (f : RsCode) (r : List Nat) (q : RsFixed), r.length ≤ f.n → rsFix f r = q →
    (q.ok = true →
      q.word.length = r.length ∧ (∀ j, j < f.nsym → syndrome f (rsPad f q.word) j = 0) ∧ q.ncorr ≤ f.t ∧
      ((List.range r.length).filter fun i => decide (q.word[i]? ≠ r[i]?)).length ≤ q.ncorr) ∧
    (q.ok = false → q.word = r ∧ q.ncorr = 0 ∧ ∃ j, j < f.nsym ∧ syndrome f (rsPad f r) j ≠ 0) ∧
    ((∀ j, j < f.nsym → syndrome f (rsPad f r) j = 0) → q.ok = true ∧ q.word = r ∧ q.ncorr = 0) ∧
    (rsCodeOk f = true → 2 ≤ f.nsym → ∀ (c : List Nat) (i e : Nat), (∀ v ∈ c, v < 2 ^ f.m) →
      (∀ j, j < f.nsym → syndrome f (rsPad f c) j = 0) → i < c.length → 0 < e → e < 2 ^ f.m →
      r = c.modify i (fun v => v ^^^ e) → q.ok = true ∧ q.word = c ∧ q.ncorr = 1)

/-! ### The dispatch unit -/

/-- Access detection (44_dispatch.md rule R241): the first pattern matched exactly; else, in harder mode, the closest within
distance 3, the earlier among equals; else none. -/
def Obligations.AccessDetectionRule : Prop :=
  ∀ (p : Params) (x : Bits) (h : Bool),
    (∀ r, accessDetect p x h = some r →
      r.off = (accessPattern p r.kind).length ∧ r.off ≤ x.length ∧ r.dist = hd (x.take r.off) (accessPattern p r.kind) ∧
      ((r.dist = 0 ∧ x.take r.off = accessPattern p r.kind ∧
          ∀ k, kindNumber k < kindNumber r.kind → ¬ accessPattern p k <+: x) ∨
       (h = true ∧ r.dist ≤ 3 ∧ (∀ k, ¬ accessPattern p k <+: x) ∧
          ∀ k, (accessPattern p k).length ≤ x.length →
            r.dist < hd (x.take (accessPattern p k).length) (accessPattern p k) ∨
            (r.dist = hd (x.take (accessPattern p k).length) (accessPattern p k) ∧ kindNumber r.kind ≤ kindNumber k)))) ∧
    (accessDetect p x h = none →
      (∀ k, ¬ accessPattern p k <+: x) ∧
      (h = true → ∀ k, (accessPattern p k).length ≤ x.length →
        3 < hd (x.take (accessPattern p k).length) (accessPattern p k)))

/-- ACCESS (44_dispatch.md rule R242), with the numbers of rule R240. -/
def Obligations.AccessCommandResults : Prop :=
  ∀ (s : State) (a len : Nat), s.operand 0 = a → s.operand 1 = len →
    (2048 < a + len → exec .access s = .next (failedWith s 0x03)) ∧
    (a + len ≤ 2048 → ∀ x : Bits, x.length = len → Holds s.bitmem a x →
      ∃ t, exec .access s = .next t ∧ KeepsBits s t ∧ KeepsSyms s t ∧ KeepsOut s t ∧
        (accessDetect params x s.lCtrl.harder = none →
          Succeeds s t [0xFFFFFFFF, 0xFFFFFFFF, 0xFFFFFFFF, 0xFFFFFFFF]) ∧
        (∀ r, accessDetect params x s.lCtrl.harder = some r →
          Succeeds s t
            [wordOf (kindNumber r.kind), wordOf r.dist, wordOf r.off, if r.kind = .dl ∨ r.kind = .nxdl then 0 else 1]))

/-- Stripping (44_dispatch.md rule R243): one trailing pattern at most, exact before near-exact within distance 2, the
lead-out before the filler among equals, an empty pattern never. -/
def Obligations.StripRule : Prop :=
  ∀ (p : Params) (y : Bits) (r : Stripped), stripTrailer p y = r →
    (r.kind = .none → r.len = y.length ∧ r.dist = 0 ∧
      ∀ t, t = p.leadout ∨ t = p.filler → 0 < t.length → t.length ≤ y.length →
        2 < hd (y.drop (y.length - t.length)) t) ∧
    (∀ t t' : Bits, (r.kind = .leadout ∧ t = p.leadout ∧ t' = p.filler) ∨ (r.kind = .filler ∧ t = p.filler ∧ t' = p.leadout) →
      0 < t.length ∧ t.length ≤ y.length ∧ r.len = y.length - t.length ∧ r.dist = hd (y.drop r.len) t ∧ r.dist ≤ 2 ∧
      (0 < t'.length → t'.length ≤ y.length →
        r.dist < hd (y.drop (y.length - t'.length)) t' ∨
        (r.dist = hd (y.drop (y.length - t'.length)) t' ∧ r.kind = .leadout)))

/-- STRIP (44_dispatch.md rule R244), with the numbers of rule R240. -/
def Obligations.StripCommandResults : Prop :=
  ∀ (s : State) (a len : Nat), s.operand 0 = a → s.operand 1 = len →
    (2048 < a + len → exec .strip s = .next (failedWith s 0x03)) ∧
    (a + len ≤ 2048 → ∀ (x : Bits) (r : Stripped), x.length = len → Holds s.bitmem a x → stripTrailer params x = r →
      ∃ t, exec .strip s = .next t ∧
        Succeeds s t [wordOf r.len, wordOf (trailerNumber r.kind), wordOf r.dist] ∧
        KeepsBits s t ∧ KeepsSyms s t ∧ KeepsOut s t)

/-- CLASSIFY (44_dispatch.md rules R259, R261): RANGE, then PARAM for illegal forced fields, then eight results, with the
numbers of rule R240. -/
def Obligations.ClassifyCommandResults : Prop :=
  ∀ (s : State) (a len tag sub : Nat), s.operand 0 = a → s.operand 1 = len → s.lCtrl.forceTag.toNat = tag →
    s.lCtrl.forceSub.toNat = sub →
    (2048 < a + len → exec .classify s = .next (failedWith s 0x03)) ∧
    (a + len ≤ 2048 → s.lCtrl.forceEn = true →
      tag < 1 ∨ 8 < tag ∨ 6 < sub ∨ (sub ≠ 0 ∧ tag ≠ 4 ∧ tag ≠ 7) → exec .classify s = .next (failedWith s 0x09)) ∧
    (a + len ≤ 2048 →
      (s.lCtrl.forceEn = true → 1 ≤ tag ∧ tag ≤ 8 ∧ sub ≤ 6 ∧ (sub = 0 ∨ tag = 4 ∨ tag = 7)) →
      ∀ x : Bits, x.length = len → Holds s.bitmem a x →
      ∃ (t : State) (force : Option (Variant × SubKind)) (c : Classified), exec .classify s = .next t ∧
        (s.lCtrl.forceEn = false → force = none) ∧
        (s.lCtrl.forceEn = true → ∃ v k, force = some (v, k) ∧ tagNumber v = tag ∧ subKindNumber k = sub) ∧
        c = classifyBurst params .coeff x s.lCtrl.harder force ∧
        Succeeds s t
          [wordOf (tagNumber c.tag), wordOf (reasonNumber c.reason), wordOf c.errs, optWord c.off, optWord c.len,
            optWord (c.kind.map kindNumber), wordOf (subKindNumber c.subKind), t.res[7]] ∧
        t.res[7].getLsbD 0 = c.corrected ∧ t.res[7].getLsbD 1 = c.forced ∧ t.res[7].getLsbD 4 = c.fuzzy ∧
        t.res[7].toNat / 4 % 4 = trailerNumber c.trailer ∧ t.res[7].toNat < 32 ∧
        KeepsBits s t ∧ KeepsSyms s t ∧ KeepsOut s t)

/-- What a classification is made of (44_dispatch.md rules R258, R259, R261, R262): no access, next-generation, forced, a
winning candidate, or a rejection with its reason. -/
def Obligations.ClassificationCases : Prop :=
  ∀ (p : Params) (ord : FlipOrder) (x : Bits) (h : Bool) (force : Option (Variant × SubKind)) (c : Classified),
    classifyBurst p ord x h force = c →
    (accessDetect p x h = none →
      c.tag = .rejected ∧ c.reason = .noAccess ∧ c.errs = 0 ∧ c.off = none ∧ c.len = none ∧ c.kind = none ∧
      c.subKind = .none ∧ c.flags = 0) ∧
    (∀ (r : AccessMatch) (st : Stripped) (y : Bits), accessDetect p x h = some r → stripTrailer p (x.drop r.off) = st →
      y = (x.drop r.off).take st.len →
      c.off = some r.off ∧ c.len = some st.len ∧ c.kind = some r.kind ∧ c.trailer = st.kind ∧
      (c.fuzzy = true ↔ 0 < r.dist) ∧
      (r.kind = .nxdl ∨ r.kind = .nxul →
        c.tag = .nx ∧ c.reason = .ok ∧ c.errs = 0 ∧ c.subKind = .none ∧ c.corrected = false ∧ c.forced = false) ∧
      (r.kind = .dl ∨ r.kind = .ul →
        (∀ v k, force = some (v, k) →
          c.tag = v ∧ c.subKind = k ∧ c.reason = .ok ∧ c.errs = 0 ∧ c.corrected = false ∧ c.forced = true) ∧
        (force = none → c.forced = false ∧
          (∀ q w e, winner p ord y r.kind.direction h = some (q, w, e) →
            (w = .ms → c.tag = .ms ∧ c.subKind = .none) ∧ (w = .tl → c.tag = .tl ∧ c.subKind = .none) ∧
            (w = .bc → c.tag = .bc ∧ c.subKind = .none) ∧ (w = .ra → c.tag = .ra ∧ c.subKind = .none) ∧
            (w = .aq → c.tag = .aq ∧ c.subKind = .none) ∧ (w = .lw → (c.tag, c.subKind) = refine p .lw e) ∧
            c.reason = .ok ∧ c.errs = e.errs ∧ (c.corrected = true ↔ q = .corrected)) ∧
          (winner p ord y r.kind.direction h = none →
            c.tag = .rejected ∧ c.errs = 0 ∧ c.subKind = .none ∧ c.corrected = false ∧
            ((∀ w, r.kind.direction ∈ (candidate p w).dirs → y.length < (candidate p w).minLen) → c.reason = .tooShort) ∧
            ((∃ w, r.kind.direction ∈ (candidate p w).dirs ∧ (candidate p w).minLen ≤ y.length) →
              c.reason = .noCandidate)))))

/-- When a candidate passes, precedence and passes (44_dispatch.md rules R246 to R249, R256, R257): a candidate passes exactly
when the direction is one of its own, the payload is long enough and every check passes, with the totals added and the
blocks' corrected data kept in order; the winner passes in its pass and every earlier candidate fails in it; pass 2 is
reached only in harder mode and only when every candidate fails pass 1; a pass-1 winner has error total 0. -/
def Obligations.FirstPassingCandidateWins : Prop :=
  ∀ (p : Params) (ord : FlipOrder) (y : Bits) (dir : Direction) (h : Bool),
    (∀ w q e, passes p ord w y dir q = some e ↔
      dir ∈ (candidate p w).dirs ∧ (candidate p w).minLen ≤ y.length ∧
      ∃ rs : List (Nat × List Bits),
        List.Forall₂ (fun c r => CheckPasses p ord q y c r.1 r.2) (candidate p w).checks rs ∧
        e.errs = (rs.map fun r => r.1).sum ∧ e.data = (rs.map fun r => r.2).flatten) ∧
    (∀ q w e, winner p ord y dir h = some (q, w, e) →
      passes p ord w y dir q = some e ∧
      (∀ (i j : Nat) (w' : Cand), [Cand.ms, .tl, .bc, .lw, .ra, .aq][i]? = some w' →
        [Cand.ms, .tl, .bc, .lw, .ra, .aq][j]? = some w → i < j → passes p ord w' y dir q = none) ∧
      (q = .exact → e.errs = 0) ∧
      (q = .corrected → h = true ∧ ∀ w', passes p ord w' y dir .exact = none)) ∧
    (winner p ord y dir h = none →
      ∀ w, passes p ord w y dir .exact = none ∧ (h = true → passes p ord w y dir .corrected = none))

/-- Link-control-word sub-dispatch (44_dispatch.md rules R253, R260), in every configuration: the corrected data of the three
fields of the de-interleaved word are kept, the two bits of the frame-type field stand in one of them, and their value picks
the sub-kind; a sync sub-kind makes the tag SY. -/
def Obligations.LcwSubDispatch : Prop :=
  ∀ (p : Params) (ord : FlipOrder) (y : Bits) (dir : Direction) (q : Pass) (e : CheckPassed),
    paramsValid p = true → passes p ord .lw y dir q = some e →
    (∃ (z : Bits) (r1 r2 r3 : BchDecoded), z = deinterleave p.permLcw ((y.drop p.lwOff).take 46) ∧
      DecodesTo p ord z { boff := 0, n := p.lcwW1, slot := p.lwS1, pad := none } r1 ∧
      DecodesTo p ord z { boff := p.lcwW1, n := p.lcwW2 + 1, slot := p.lwS2, pad := some p.lwPad } r2 ∧
      DecodesTo p ord z { boff := p.lcwW1 + p.lcwW2, n := p.lcwW3, slot := p.lwS3, pad := none } r3 ∧
      e.data =
        [r1.word.take (p.lcwW1 - deg (polyOf p p.lwS1)), r2.word.take (p.lcwW2 + 1 - deg (polyOf p p.lwS2)),
          r3.word.take (p.lcwW3 - deg (polyOf p p.lwS3))]) ∧
    ∃ (data : Bits) (b0 b1 : Bool) (ft : Fin 4), e.data[p.ftField.val]? = some data ∧ data[p.ftOff]? = some b0 ∧
      data[p.ftOff + 1]? = some b1 ∧ ft.val = 2 * b0.toNat + b1.toNat ∧
      (p.ftMap[ft] = .sy → refine p .lw e = (.sy, .sy)) ∧
      (p.ftMap[ft] ≠ .sy → refine p .lw e = (.lw, p.ftMap[ft]))

/-- ACCESS, STRIP and CLASSIFY depend on the bits of their region, the latched operands and the latched configuration only
(44_dispatch.md rule R263, 10_state.md rule R46). -/
def Obligations.DispatchIsAFunctionOfItsBits : Prop :=
  ∀ (i : Instr) (s u t : State), i = .access ∨ i = .strip ∨ i = .classify → s.lArg = u.lArg → s.lCtrl = u.lCtrl →
    (∀ k, k < s.operand 1 → Memory.read s.bitmem (s.operand 0 + k) = Memory.read u.bitmem (s.operand 0 + k)) →
    exec i s = .next t →
    ∃ t', exec i u = .next t' ∧ t'.status.errCode = t.status.errCode ∧
      (t.status.errCode = 0 → ∀ k : Fin 8, k.val < resCount i → t'.res[k] = t.res[k])
end

