-- ==== Sys2Proof/Laws/Bits.lean ====
section
/-! SUPPORT. Bit strings and their values: lengths, bounds, single bits, groups. -/

namespace Sys2Proof.Machine

@[simp] theorem val_nil : val [] = 0 := rfl

theorem val_foldl (s : Bits) (k : Nat) :
    s.foldl (fun acc b => 2 * acc + b.toNat) k = k * 2 ^ s.length + val s := by
  induction s generalizing k with
  | nil => simp [val]
  | cons b s ih =>
    have h0 : val (b :: s) = (2 * 0 + b.toNat) * 2 ^ s.length + val s := ih (2 * 0 + b.toNat)
    rw [List.foldl_cons, ih, h0, List.length_cons, pow_succ]
    ring

theorem val_cons (b : Bool) (s : Bits) : val (b :: s) = b.toNat * 2 ^ s.length + val s := by
  have h0 : val (b :: s) = (2 * 0 + b.toNat) * 2 ^ s.length + val s := val_foldl s (2 * 0 + b.toNat)
  simpa using h0

theorem val_append (s t : Bits) : val (s ++ t) = val s * 2 ^ t.length + val t := by
  rw [val, List.foldl_append, val_foldl]; rfl

theorem val_lt (s : Bits) : val s < 2 ^ s.length := by
  induction s with
  | nil => simp
  | cons b s ih =>
    rw [val_cons, List.length_cons, pow_succ]
    cases b <;> simp <;> omega

/-- Bit k of the value is the string's bit k from the end (00_scope.md rule R10). -/
theorem val_testBit (s : Bits) (k : Nat) : (val s).testBit k = s.reverse.getD k false := by
  induction s with
  | nil => simp
  | cons b s ih =>
    rw [val_cons, List.reverse_cons, Nat.mul_comm, Nat.testBit_two_pow_mul_add _ (val_lt s), ih]
    by_cases h : k < s.length
    · rw [if_pos h, List.getD_append _ _ _ _ (by simpa using h)]
    · rw [if_neg h, List.getD_append_right _ _ _ _ (by simpa using Nat.le_of_not_lt h)]
      rcases Nat.eq_or_lt_of_le (Nat.le_of_not_lt h) with h' | h'
      · subst h'; cases b <;> simp
      · have : k - s.length ≠ 0 := by omega
        have h2 : b.toNat < 2 ^ (k - s.length) :=
          Nat.lt_of_lt_of_le (Bool.toNat_lt b) (by
            calc 2 = 2 ^ 1 := rfl
              _ ≤ 2 ^ (k - s.length) := Nat.pow_le_pow_right (by omega) (by omega))
        rw [Nat.testBit_lt_two_pow h2]
        rw [List.getD_eq_default _ _ (by simp; omega)]

@[simp] theorem bstr_length (w v : Nat) : (bstr w v).length = w := by simp [bstr]

theorem bstr_getElem (w v i : Nat) (h : i < (bstr w v).length) : (bstr w v)[i] = v.testBit (w - 1 - i) := by
  simp [bstr]

theorem val_bstr (w v : Nat) (h : v < 2 ^ w) : val (bstr w v) = v := by
  apply Nat.eq_of_testBit_eq
  intro k
  rw [val_testBit]
  by_cases hk : k < w
  · rw [List.getD_eq_getElem _ _ (by simpa using hk), List.getElem_reverse, bstr_getElem]
    congr 1; simp; omega
  · rw [List.getD_eq_default _ _ (by simpa using Nat.le_of_not_lt hk)]
    exact (Nat.testBit_lt_two_pow (Nat.lt_of_lt_of_le h (Nat.pow_le_pow_right (by omega) (Nat.le_of_not_lt hk)))).symm

theorem bstr_val (x : Bits) : bstr x.length (val x) = x := by
  apply List.ext_getElem (by simp)
  intro i h1 h2
  rw [bstr_getElem, val_testBit, List.getD_eq_getElem _ _ (by simp; omega), List.getElem_reverse]
  congr 1; omega

theorem groups_length (w g : Nat) (x : Bits) : (groups w g x).length = g := by
  induction g generalizing x with
  | zero => rfl
  | succ g ih => simp [groups, ih]

theorem groups_getElem (w g : Nat) (x : Bits) (k : Nat) (h : k < (groups w g x).length) :
    (groups w g x)[k] = sub x (k * w) w := by
  induction g generalizing x k with
  | zero => simp [groups] at h
  | succ g ih =>
    cases k with
    | zero => simp [groups, sub]
    | succ k =>
      have hk : k < (groups w g (x.drop w)).length := by simpa [groups] using h
      have := ih (x.drop w) k hk
      simp only [groups, List.getElem_cons_succ, this, sub, List.drop_drop]
      congr 2; ring

theorem groups_flatten (w g : Nat) (x : Bits) (h : x.length = g * w) : (groups w g x).flatten = x := by
  induction g generalizing x with
  | zero => simp at h; simp [groups, h]
  | succ g ih =>
    rw [groups, List.flatten_cons, ih _ (by rw [List.length_drop, h]; simp [Nat.succ_mul])]
    exact List.take_append_drop _ _

theorem groups_mem_length {w g : Nat} {x y : Bits} (h : x.length = g * w) (hy : y ∈ groups w g x) : y.length = w := by
  induction g generalizing x with
  | zero => simp [groups] at hy
  | succ g ih =>
    rcases List.mem_cons.1 hy with rfl | hy
    · rw [List.length_take, h, Nat.succ_mul]; omega
    · exact ih (by rw [List.length_drop, h]; simp [Nat.succ_mul]) hy

@[simp] theorem wordOf_toNat (n : Nat) : (wordOf n).toNat = n % 2 ^ 32 := by simp [wordOf]

theorem wordOf_toNat_of_lt {n : Nat} (h : n < 2 ^ 32) : (wordOf n).toNat = n := by
  rw [wordOf_toNat, Nat.mod_eq_of_lt h]

theorem val_toNat_of_length {x : Bits} (h : x.length ≤ 32) : (wordOf (val x)).toNat = val x :=
  wordOf_toNat_of_lt (Nat.lt_of_lt_of_le (val_lt x) (Nat.pow_le_pow_right (by omega) h))

end Sys2Proof.Machine
end

