-- ==== Sys2Proof/Laws/Memory.lean ====
section
/-! SUPPORT. The laws of memories with written marks: read after write, frames, regions, and that every operation keeps the
canonical form. -/

namespace Sys2Proof.Machine

variable {α : Type}

@[simp] theorem Memory.read_nil (a : Nat) : Memory.read ([] : Memory α) a = none := rfl

theorem Memory.read_append (m m' : Memory α) (b : Nat) :
    Memory.read (m ++ m') b = (Memory.read m b).or (Memory.read m' b) := by
  induction m with
  | nil => simp
  | cons c m ih =>
    obtain ⟨k, w⟩ := c
    simp only [List.cons_append, Memory.read]
    split
    · simp
    · exact ih

/-- Filtering by address keeps the reading at addresses that pass and nothing elsewhere. -/
theorem Memory.read_filter (m : Memory α) (f : Nat → Bool) (b : Nat) :
    Memory.read (m.filter fun c => f c.1) b = if f b then Memory.read m b else none := by
  induction m with
  | nil => simp
  | cons c m ih =>
    obtain ⟨k, w⟩ := c
    by_cases hk : k = b
    · subst hk
      cases hf : f k
      · rw [List.filter_cons_of_neg (by simp [hf]), ih]; simp [hf]
      · rw [List.filter_cons_of_pos (by simp [hf])]; simp [Memory.read]
    · cases hf : f k
      · rw [List.filter_cons_of_neg (by simp [hf]), ih]; simp [Memory.read, hk]
      · rw [List.filter_cons_of_pos (by simp [hf])]; simp [Memory.read, hk, ih]

theorem Memory.read_cells (a b : Nat) (vs : List α) :
    Memory.read (Memory.cells a vs) b = if a ≤ b then vs[b - a]? else none := by
  induction vs generalizing a with
  | nil => simp [Memory.cells]
  | cons v vs ih =>
    rw [Memory.cells, Memory.read, ih]
    by_cases h : a = b
    · subst h; simp
    · rw [if_neg h]
      by_cases h1 : a + 1 ≤ b
      · rw [if_pos h1, if_pos (by omega), show b - a = (b - (a + 1)) + 1 by omega, List.getElem?_cons_succ]
      · rw [if_neg h1, if_neg (by omega)]

/-- The one reading lemma of a region write. -/
theorem Memory.read_writeSeq (m : Memory α) (a b : Nat) (vs : List α) :
    Memory.read (Memory.writeSeq m a vs) b = if a ≤ b ∧ b < a + vs.length then vs[b - a]? else Memory.read m b := by
  cases vs with
  | nil => simp only [Memory.writeSeq, List.length_nil]; rw [if_neg (by omega)]
  | cons v vs =>
    simp only [Memory.writeSeq, Memory.read_append, Memory.read_cells]
    rw [Memory.read_filter m (fun k => decide (k < a)) b,
      Memory.read_filter m (fun k => decide (a + (v :: vs).length ≤ k)) b]
    by_cases h1 : b < a
    · have h2 : ¬ a ≤ b := by omega
      have h3 : ¬ a + (vs.length + 1) ≤ b := by omega
      simp [h1, h2, h3]
    · by_cases h3 : a + (v :: vs).length ≤ b
      · rw [if_neg (by simpa using h1), if_pos (by omega), if_pos (by simpa using h3), if_neg (by omega),
          List.getElem?_eq_none (by omega)]
        simp
      · rw [if_neg (by simpa using h1), if_pos (by omega), if_neg (by simpa using h3), if_pos ⟨by omega, by omega⟩]
        simp

theorem Memory.writeSeq_sameOutside (m : Memory α) (a : Nat) (vs : List α) :
    SameOutside m (Memory.writeSeq m a vs) a vs.length := fun b hb => by
  rw [Memory.read_writeSeq, if_neg hb]

theorem Memory.writeSeq_holds (m : Memory α) (a : Nat) (vs : List α) : Holds (Memory.writeSeq m a vs) a vs :=
  fun i h => by rw [Memory.read_writeSeq, if_pos (by omega)]; simp [h]

/-- A region read succeeds exactly on a region that holds a string, and gives it. -/
theorem Memory.readSeq_ok_iff (m : Memory α) (a n : Nat) (xs : List α) :
    Memory.readSeq m a n = .ok xs ↔ xs.length = n ∧ Holds m a xs := by
  induction n generalizing a xs with
  | zero =>
    simp only [Memory.readSeq, Except.ok.injEq, List.length_eq_zero_iff]
    constructor
    · rintro rfl; exact ⟨rfl, fun i h => absurd h (by simp)⟩
    · rintro ⟨rfl, -⟩; rfl
  | succ n ih =>
    rw [Memory.readSeq]
    constructor
    · intro h
      split at h
      · cases h
      · rename_i v hv
        split at h
        · rename_i vs hvs
          cases h
          obtain ⟨hl, hh⟩ := (ih _ _).1 hvs
          refine ⟨by simp [hl], fun i hi => ?_⟩
          cases i with
          | zero => simpa using hv
          | succ i =>
            have := hh i (by simpa using hi)
            simpa [Nat.add_assoc, Nat.add_comm 1 i] using this
        · cases h
    · rintro ⟨hl, hh⟩
      cases xs with
      | nil => simp at hl
      | cons v vs =>
        have h0 : Memory.read m a = some v := hh 0 (by simp)
        have h1 : Memory.readSeq m (a + 1) n = .ok vs := by
          refine (ih _ _).2 ⟨by simpa using hl, fun i hi => ?_⟩
          have := hh (i + 1) (by simpa using hi)
          simpa [Nat.add_assoc, Nat.add_comm 1 i] using this
        rw [h0]; simp [h1]

/-- The cells of a string hold it. -/
theorem Memory.holds_cells (a : Nat) (vs : List α) : Holds (Memory.cells a vs) a vs := fun i h => by
  rw [Memory.read_cells, if_pos (by omega)]; simp [h]

theorem Memory.readSeq_of_holds {m : Memory α} {a n : Nat} {xs : List α} (hl : xs.length = n) (hh : Holds m a xs) :
    Memory.readSeq m a n = .ok xs := (Memory.readSeq_ok_iff m a n xs).2 ⟨hl, hh⟩

/-- A failing region read names an unwritten cell of the region. -/
theorem Memory.readSeq_error {m : Memory α} {a n e : Nat} (h : Memory.readSeq m a n = .error e) :
    a ≤ e ∧ e < a + n ∧ Memory.read m e = none := by
  induction n generalizing a with
  | zero => simp [Memory.readSeq] at h
  | succ n ih =>
    rw [Memory.readSeq] at h
    split at h
    · cases h; exact ⟨by omega, by omega, ‹_›⟩
    · split at h
      · cases h
      · rename_i e' he
        cases h
        obtain ⟨h1, h2, h3⟩ := ih he
        exact ⟨by omega, by omega, h3⟩

/-! ### The canonical form -/

theorem Memory.wf_nil (bound : Nat) : Memory.wf bound ([] : Memory α) := by simp [Memory.wf]

theorem Memory.mem_cells {a : Nat} {vs : List α} {c : Nat × α} (h : c ∈ Memory.cells a vs) :
    a ≤ c.1 ∧ c.1 < a + vs.length := by
  induction vs generalizing a with
  | nil => simp [Memory.cells] at h
  | cons v vs ih =>
    rcases List.mem_cons.1 h with rfl | h
    · simp
    · have := ih h
      simp only [List.length_cons]; omega

theorem Memory.cells_pairwise (a : Nat) (vs : List α) : (Memory.cells a vs).Pairwise (fun x y => x.1 < y.1) := by
  induction vs generalizing a with
  | nil => exact List.Pairwise.nil
  | cons v vs ih =>
    refine List.pairwise_cons.2 ⟨fun c hc => ?_, ih (a + 1)⟩
    have := Memory.mem_cells hc
    simp only; omega

/-- Writing a region inside the memory keeps the canonical form. -/
theorem Memory.wf_writeSeq {bound : Nat} {m : Memory α} (a : Nat) (vs : List α) (ha : a + vs.length ≤ bound ∨ vs = [])
    (h : Memory.wf bound m) : Memory.wf bound (Memory.writeSeq m a vs) := by
  cases vs with
  | nil => exact h
  | cons v vs =>
    simp only [reduceCtorEq, or_false] at ha
    simp only [Memory.writeSeq]
    refine ⟨?_, fun c hc => ?_⟩
    · refine List.pairwise_append.2 ⟨h.1.filter _, List.pairwise_append.2 ⟨Memory.cells_pairwise _ _, h.1.filter _, ?_⟩, ?_⟩
      · intro x hx y hy
        have := Memory.mem_cells hx
        simp only [List.mem_filter, decide_eq_true_eq] at hy
        omega
      · intro x hx y hy
        simp only [List.mem_filter, decide_eq_true_eq] at hx
        rcases List.mem_append.1 hy with hy | hy
        · have := Memory.mem_cells hy; omega
        · simp only [List.mem_filter, decide_eq_true_eq] at hy; omega
    · rcases List.mem_append.1 hc with hc | hc
      · exact h.2 c (List.mem_filter.1 hc).1
      · rcases List.mem_append.1 hc with hc | hc
        · have := Memory.mem_cells hc; omega
        · exact h.2 c (List.mem_filter.1 hc).1

/-- Two memories in canonical form with the same readings are equal data. -/
theorem Memory.ext_of_wf {bound : Nat} {m m' : Memory α} (h : Memory.wf bound m) (h' : Memory.wf bound m')
    (he : ∀ a, Memory.read m a = Memory.read m' a) : m = m' := by
  have key : ∀ {l : Memory α} {k : Nat}, (∀ c ∈ l, k < c.1) → Memory.read l k = none := by
    intro l k hl
    induction l with
    | nil => rfl
    | cons c l ih =>
      obtain ⟨j, w⟩ := c
      have : k < j := hl (j, w) (by simp)
      rw [Memory.read, if_neg (by omega)]
      exact ih fun c hc => hl c (List.mem_cons_of_mem _ hc)
  have hp := h.1
  have hp' := h'.1
  clear h h'
  induction m generalizing m' with
  | nil =>
    cases m' with
    | nil => rfl
    | cons c m' => obtain ⟨k, w⟩ := c; have := he k; simp [Memory.read] at this
  | cons c m ih =>
    obtain ⟨k, w⟩ := c
    cases m' with
    | nil => have := he k; simp [Memory.read] at this
    | cons c' m' =>
      obtain ⟨k', w'⟩ := c'
      obtain ⟨h1, h2⟩ := List.pairwise_cons.1 hp
      obtain ⟨h1', h2'⟩ := List.pairwise_cons.1 hp'
      have hk : k = k' := by
        rcases Nat.lt_trichotomy k k' with hlt | heq | hlt
        · have := he k
          rw [Memory.read, if_pos rfl, Memory.read, if_neg (by omega),
            key fun c hc => Nat.lt_trans hlt (h1' c hc)] at this
          cases this
        · exact heq
        · have := he k'
          rw [Memory.read, if_neg (by omega), Memory.read, if_pos rfl,
            key fun c hc => Nat.lt_trans hlt (h1 c hc)] at this
          cases this
      subst hk
      have hw : w = w' := by have := he k; simpa [Memory.read] using this
      subst hw
      congr 1
      refine ih (fun a => ?_) h2 h2'
      have := he a
      by_cases hak : k = a
      · subst hak
        rw [key fun c hc => h1 c hc, key fun c hc => h1' c hc]
      · simpa [Memory.read, hak] using this

end Sys2Proof.Machine
end

