-- ==== Sys2Proof/Laws/State.lean ====
section
/-! SUPPORT. One lemma per field per named update of State, and per field of Status under its updates: no later proof
unfolds a record update. -/

namespace Sys2Proof.Machine

variable (s : State)

/-! ### `State.finish` -/

@[simp] theorem State.finish_ctrl (e : Effect) : (s.finish e).ctrl = s.ctrl := rfl
@[simp] theorem State.finish_status (e : Effect) : (s.finish e).status = s.status.complete 0 := rfl
@[simp] theorem State.finish_arg (e : Effect) : (s.finish e).arg = s.arg := rfl
@[simp] theorem State.finish_res (e : Effect) : (s.finish e).res = writeRes s.res e.res := rfl
@[simp] theorem State.finish_bitmem (e : Effect) : (s.finish e).bitmem = Memory.writeSeq s.bitmem e.bits.1 e.bits.2 := rfl
@[simp] theorem State.finish_symmem (e : Effect) : (s.finish e).symmem = Memory.writeSeq s.symmem e.syms.1 e.syms.2 := rfl
@[simp] theorem State.finish_outbuf (e : Effect) : (s.finish e).outbuf = Memory.writeSeq s.outbuf 0 e.out := rfl
@[simp] theorem State.finish_eng (e : Effect) : (s.finish e).eng = .idle := rfl
@[simp] theorem State.finish_lCmd (e : Effect) : (s.finish e).lCmd = s.lCmd := rfl
@[simp] theorem State.finish_lArg (e : Effect) : (s.finish e).lArg = s.lArg := rfl
@[simp] theorem State.finish_lCtrl (e : Effect) : (s.finish e).lCtrl = s.lCtrl := rfl
@[simp] theorem State.finish_host (e : Effect) : (s.finish e).host = s.host := rfl
@[simp] theorem State.finish_sched (e : Effect) : (s.finish e).sched = s.sched := rfl
@[simp] theorem State.finish_reads (e : Effect) : (s.finish e).reads = s.reads := rfl

/-! ### `State.fail` -/

@[simp] theorem State.fail_ctrl (c : CmdError) : (s.fail c).ctrl = s.ctrl := rfl
@[simp] theorem State.fail_status (c : CmdError) : (s.fail c).status = s.status.complete (errorCode c) := rfl
@[simp] theorem State.fail_arg (c : CmdError) : (s.fail c).arg = s.arg := rfl
@[simp] theorem State.fail_res (c : CmdError) : (s.fail c).res = s.res := rfl
@[simp] theorem State.fail_bitmem (c : CmdError) : (s.fail c).bitmem = s.bitmem := rfl
@[simp] theorem State.fail_symmem (c : CmdError) : (s.fail c).symmem = s.symmem := rfl
@[simp] theorem State.fail_outbuf (c : CmdError) : (s.fail c).outbuf = s.outbuf := rfl
@[simp] theorem State.fail_eng (c : CmdError) : (s.fail c).eng = .idle := rfl
@[simp] theorem State.fail_lCmd (c : CmdError) : (s.fail c).lCmd = s.lCmd := rfl
@[simp] theorem State.fail_lArg (c : CmdError) : (s.fail c).lArg = s.lArg := rfl
@[simp] theorem State.fail_lCtrl (c : CmdError) : (s.fail c).lCtrl = s.lCtrl := rfl
@[simp] theorem State.fail_host (c : CmdError) : (s.fail c).host = s.host := rfl
@[simp] theorem State.fail_sched (c : CmdError) : (s.fail c).sched = s.sched := rfl
@[simp] theorem State.fail_reads (c : CmdError) : (s.fail c).reads = s.reads := rfl

/-! ### `State.accept` -/

@[simp] theorem State.accept_ctrl (v : Word) : (s.accept v).ctrl = s.ctrl := rfl
@[simp] theorem State.accept_status (v : Word) : (s.accept v).status = s.status.accept v := rfl
@[simp] theorem State.accept_arg (v : Word) : (s.accept v).arg = s.arg := rfl
@[simp] theorem State.accept_res (v : Word) : (s.accept v).res = s.res := rfl
@[simp] theorem State.accept_bitmem (v : Word) : (s.accept v).bitmem = s.bitmem := rfl
@[simp] theorem State.accept_symmem (v : Word) : (s.accept v).symmem = s.symmem := rfl
@[simp] theorem State.accept_outbuf (v : Word) : (s.accept v).outbuf = s.outbuf := rfl
@[simp] theorem State.accept_eng (v : Word) : (s.accept v).eng = .busy := rfl
@[simp] theorem State.accept_lCmd (v : Word) : (s.accept v).lCmd = v := rfl
@[simp] theorem State.accept_lArg (v : Word) : (s.accept v).lArg = s.arg := rfl
@[simp] theorem State.accept_lCtrl (v : Word) : (s.accept v).lCtrl = s.ctrl.latch := rfl
@[simp] theorem State.accept_host (v : Word) : (s.accept v).host = s.host := rfl
@[simp] theorem State.accept_sched (v : Word) : (s.accept v).sched = s.sched := rfl
@[simp] theorem State.accept_reads (v : Word) : (s.accept v).reads = s.reads := rfl

/-! ### `State.softReset` -/

@[simp] theorem State.softReset_ctrl : s.softReset.ctrl = Ctrl.zero := rfl
@[simp] theorem State.softReset_status : s.softReset.status = Status.zero := rfl
@[simp] theorem State.softReset_arg : s.softReset.arg = Vector.replicate 4 0 := rfl
@[simp] theorem State.softReset_res : s.softReset.res = Vector.replicate 8 0 := rfl
@[simp] theorem State.softReset_bitmem : s.softReset.bitmem = s.bitmem := rfl
@[simp] theorem State.softReset_symmem : s.softReset.symmem = s.symmem := rfl
@[simp] theorem State.softReset_outbuf : s.softReset.outbuf = s.outbuf := rfl
@[simp] theorem State.softReset_eng : s.softReset.eng = s.eng := rfl
@[simp] theorem State.softReset_lCmd : s.softReset.lCmd = s.lCmd := rfl
@[simp] theorem State.softReset_lArg : s.softReset.lArg = s.lArg := rfl
@[simp] theorem State.softReset_lCtrl : s.softReset.lCtrl = s.lCtrl := rfl
@[simp] theorem State.softReset_host : s.softReset.host = s.host := rfl
@[simp] theorem State.softReset_sched : s.softReset.sched = s.sched := rfl
@[simp] theorem State.softReset_reads : s.softReset.reads = s.reads := rfl

/-! ### `State.hardReset` -/

@[simp] theorem State.hardReset_ctrl : s.hardReset.ctrl = Ctrl.zero := rfl
@[simp] theorem State.hardReset_status : s.hardReset.status = Status.zero := rfl
@[simp] theorem State.hardReset_arg : s.hardReset.arg = Vector.replicate 4 0 := rfl
@[simp] theorem State.hardReset_res : s.hardReset.res = Vector.replicate 8 0 := rfl
@[simp] theorem State.hardReset_bitmem : s.hardReset.bitmem = [] := rfl
@[simp] theorem State.hardReset_symmem : s.hardReset.symmem = [] := rfl
@[simp] theorem State.hardReset_outbuf : s.hardReset.outbuf = [] := rfl
@[simp] theorem State.hardReset_eng : s.hardReset.eng = .idle := rfl
@[simp] theorem State.hardReset_lCmd : s.hardReset.lCmd = 0 := rfl
@[simp] theorem State.hardReset_lArg : s.hardReset.lArg = Vector.replicate 4 0 := rfl
@[simp] theorem State.hardReset_lCtrl : s.hardReset.lCtrl = State.reset.lCtrl := rfl
@[simp] theorem State.hardReset_host : s.hardReset.host = s.host := rfl
@[simp] theorem State.hardReset_sched : s.hardReset.sched = s.sched := rfl
@[simp] theorem State.hardReset_reads : s.hardReset.reads = s.reads := rfl

/-! ### `State.refuse` -/

@[simp] theorem State.refuse_ctrl : s.refuse.ctrl = s.ctrl := rfl
@[simp] theorem State.refuse_status : s.refuse.status = { s.status with busErr := true } := rfl
@[simp] theorem State.refuse_arg : s.refuse.arg = s.arg := rfl
@[simp] theorem State.refuse_res : s.refuse.res = s.res := rfl
@[simp] theorem State.refuse_bitmem : s.refuse.bitmem = s.bitmem := rfl
@[simp] theorem State.refuse_symmem : s.refuse.symmem = s.symmem := rfl
@[simp] theorem State.refuse_outbuf : s.refuse.outbuf = s.outbuf := rfl
@[simp] theorem State.refuse_eng : s.refuse.eng = s.eng := rfl
@[simp] theorem State.refuse_lCmd : s.refuse.lCmd = s.lCmd := rfl
@[simp] theorem State.refuse_lArg : s.refuse.lArg = s.lArg := rfl
@[simp] theorem State.refuse_lCtrl : s.refuse.lCtrl = s.lCtrl := rfl
@[simp] theorem State.refuse_host : s.refuse.host = s.host := rfl
@[simp] theorem State.refuse_sched : s.refuse.sched = s.sched := rfl
@[simp] theorem State.refuse_reads : s.refuse.reads = s.reads := rfl

/-! ### `State.drop` -/

@[simp] theorem State.drop_ctrl : s.drop.ctrl = s.ctrl := rfl
@[simp] theorem State.drop_status : s.drop.status = { s.status with ovr := true } := rfl
@[simp] theorem State.drop_arg : s.drop.arg = s.arg := rfl
@[simp] theorem State.drop_res : s.drop.res = s.res := rfl
@[simp] theorem State.drop_bitmem : s.drop.bitmem = s.bitmem := rfl
@[simp] theorem State.drop_symmem : s.drop.symmem = s.symmem := rfl
@[simp] theorem State.drop_outbuf : s.drop.outbuf = s.outbuf := rfl
@[simp] theorem State.drop_eng : s.drop.eng = s.eng := rfl
@[simp] theorem State.drop_lCmd : s.drop.lCmd = s.lCmd := rfl
@[simp] theorem State.drop_lArg : s.drop.lArg = s.lArg := rfl
@[simp] theorem State.drop_lCtrl : s.drop.lCtrl = s.lCtrl := rfl
@[simp] theorem State.drop_host : s.drop.host = s.host := rfl
@[simp] theorem State.drop_sched : s.drop.sched = s.sched := rfl
@[simp] theorem State.drop_reads : s.drop.reads = s.reads := rfl

/-! ### `State.record` -/

@[simp] theorem State.record_ctrl (v : Word) : (s.record v).ctrl = s.ctrl := rfl
@[simp] theorem State.record_status (v : Word) : (s.record v).status = s.status := rfl
@[simp] theorem State.record_arg (v : Word) : (s.record v).arg = s.arg := rfl
@[simp] theorem State.record_res (v : Word) : (s.record v).res = s.res := rfl
@[simp] theorem State.record_bitmem (v : Word) : (s.record v).bitmem = s.bitmem := rfl
@[simp] theorem State.record_symmem (v : Word) : (s.record v).symmem = s.symmem := rfl
@[simp] theorem State.record_outbuf (v : Word) : (s.record v).outbuf = s.outbuf := rfl
@[simp] theorem State.record_eng (v : Word) : (s.record v).eng = s.eng := rfl
@[simp] theorem State.record_lCmd (v : Word) : (s.record v).lCmd = s.lCmd := rfl
@[simp] theorem State.record_lArg (v : Word) : (s.record v).lArg = s.lArg := rfl
@[simp] theorem State.record_lCtrl (v : Word) : (s.record v).lCtrl = s.lCtrl := rfl
@[simp] theorem State.record_host (v : Word) : (s.record v).host = s.host := rfl
@[simp] theorem State.record_sched (v : Word) : (s.record v).sched = s.sched := rfl
@[simp] theorem State.record_reads (v : Word) : (s.record v).reads = s.reads ++ [v] := rfl

/-! ### `State.writeBitWord` -/

@[simp] theorem State.writeBitWord_ctrl (j : Nat) (v : Word) : (s.writeBitWord j v).ctrl = s.ctrl := rfl
@[simp] theorem State.writeBitWord_status (j : Nat) (v : Word) : (s.writeBitWord j v).status = s.status := rfl
@[simp] theorem State.writeBitWord_arg (j : Nat) (v : Word) : (s.writeBitWord j v).arg = s.arg := rfl
@[simp] theorem State.writeBitWord_res (j : Nat) (v : Word) : (s.writeBitWord j v).res = s.res := rfl
@[simp] theorem State.writeBitWord_bitmem (j : Nat) (v : Word) : (s.writeBitWord j v).bitmem = Memory.writeSeq s.bitmem (32 * j) (bstr 32 v.toNat) := rfl
@[simp] theorem State.writeBitWord_symmem (j : Nat) (v : Word) : (s.writeBitWord j v).symmem = s.symmem := rfl
@[simp] theorem State.writeBitWord_outbuf (j : Nat) (v : Word) : (s.writeBitWord j v).outbuf = s.outbuf := rfl
@[simp] theorem State.writeBitWord_eng (j : Nat) (v : Word) : (s.writeBitWord j v).eng = s.eng := rfl
@[simp] theorem State.writeBitWord_lCmd (j : Nat) (v : Word) : (s.writeBitWord j v).lCmd = s.lCmd := rfl
@[simp] theorem State.writeBitWord_lArg (j : Nat) (v : Word) : (s.writeBitWord j v).lArg = s.lArg := rfl
@[simp] theorem State.writeBitWord_lCtrl (j : Nat) (v : Word) : (s.writeBitWord j v).lCtrl = s.lCtrl := rfl
@[simp] theorem State.writeBitWord_host (j : Nat) (v : Word) : (s.writeBitWord j v).host = s.host := rfl
@[simp] theorem State.writeBitWord_sched (j : Nat) (v : Word) : (s.writeBitWord j v).sched = s.sched := rfl
@[simp] theorem State.writeBitWord_reads (j : Nat) (v : Word) : (s.writeBitWord j v).reads = s.reads := rfl

/-! ### `State.writeSymWord` -/

@[simp] theorem State.writeSymWord_ctrl (j : Nat) (v : Word) : (s.writeSymWord j v).ctrl = s.ctrl := rfl
@[simp] theorem State.writeSymWord_status (j : Nat) (v : Word) : (s.writeSymWord j v).status = s.status := rfl
@[simp] theorem State.writeSymWord_arg (j : Nat) (v : Word) : (s.writeSymWord j v).arg = s.arg := rfl
@[simp] theorem State.writeSymWord_res (j : Nat) (v : Word) : (s.writeSymWord j v).res = s.res := rfl
@[simp] theorem State.writeSymWord_bitmem (j : Nat) (v : Word) : (s.writeSymWord j v).bitmem = s.bitmem := rfl
@[simp] theorem State.writeSymWord_symmem (j : Nat) (v : Word) : (s.writeSymWord j v).symmem = Memory.writeSeq s.symmem (4 * j) (symsOfWord v) := rfl
@[simp] theorem State.writeSymWord_outbuf (j : Nat) (v : Word) : (s.writeSymWord j v).outbuf = s.outbuf := rfl
@[simp] theorem State.writeSymWord_eng (j : Nat) (v : Word) : (s.writeSymWord j v).eng = s.eng := rfl
@[simp] theorem State.writeSymWord_lCmd (j : Nat) (v : Word) : (s.writeSymWord j v).lCmd = s.lCmd := rfl
@[simp] theorem State.writeSymWord_lArg (j : Nat) (v : Word) : (s.writeSymWord j v).lArg = s.lArg := rfl
@[simp] theorem State.writeSymWord_lCtrl (j : Nat) (v : Word) : (s.writeSymWord j v).lCtrl = s.lCtrl := rfl
@[simp] theorem State.writeSymWord_host (j : Nat) (v : Word) : (s.writeSymWord j v).host = s.host := rfl
@[simp] theorem State.writeSymWord_sched (j : Nat) (v : Word) : (s.writeSymWord j v).sched = s.sched := rfl
@[simp] theorem State.writeSymWord_reads (j : Nat) (v : Word) : (s.writeSymWord j v).reads = s.reads := rfl

/-! ### `State.placeCommand` -/

@[simp] theorem State.placeCommand_ctrl (v : Word) : (s.placeCommand v).ctrl = s.ctrl := rfl
@[simp] theorem State.placeCommand_status (v : Word) : (s.placeCommand v).status = s.status.accept v := rfl
@[simp] theorem State.placeCommand_arg (v : Word) : (s.placeCommand v).arg = s.arg := rfl
@[simp] theorem State.placeCommand_res (v : Word) : (s.placeCommand v).res = s.res := rfl
@[simp] theorem State.placeCommand_bitmem (v : Word) : (s.placeCommand v).bitmem = s.bitmem := rfl
@[simp] theorem State.placeCommand_symmem (v : Word) : (s.placeCommand v).symmem = s.symmem := rfl
@[simp] theorem State.placeCommand_outbuf (v : Word) : (s.placeCommand v).outbuf = s.outbuf := rfl
@[simp] theorem State.placeCommand_eng (v : Word) : (s.placeCommand v).eng = .busy := rfl
@[simp] theorem State.placeCommand_lCmd (v : Word) : (s.placeCommand v).lCmd = v := rfl
@[simp] theorem State.placeCommand_lArg (v : Word) : (s.placeCommand v).lArg = s.arg := rfl
@[simp] theorem State.placeCommand_lCtrl (v : Word) : (s.placeCommand v).lCtrl = s.ctrl.latch := rfl
@[simp] theorem State.placeCommand_host (v : Word) : (s.placeCommand v).host = s.host := rfl
@[simp] theorem State.placeCommand_sched (v : Word) : (s.placeCommand v).sched = [] := rfl
@[simp] theorem State.placeCommand_reads (v : Word) : (s.placeCommand v).reads = s.reads := rfl

/-! ### `State.takeTurn` -/

@[simp] theorem State.takeTurn_ctrl : s.takeTurn.ctrl = s.ctrl := by
  unfold State.takeTurn; split <;> rfl
@[simp] theorem State.takeTurn_status : s.takeTurn.status = s.status := by
  unfold State.takeTurn; split <;> rfl
@[simp] theorem State.takeTurn_arg : s.takeTurn.arg = s.arg := by
  unfold State.takeTurn; split <;> rfl
@[simp] theorem State.takeTurn_res : s.takeTurn.res = s.res := by
  unfold State.takeTurn; split <;> rfl
@[simp] theorem State.takeTurn_bitmem : s.takeTurn.bitmem = s.bitmem := by
  unfold State.takeTurn; split <;> rfl
@[simp] theorem State.takeTurn_symmem : s.takeTurn.symmem = s.symmem := by
  unfold State.takeTurn; split <;> rfl
@[simp] theorem State.takeTurn_outbuf : s.takeTurn.outbuf = s.outbuf := by
  unfold State.takeTurn; split <;> rfl
@[simp] theorem State.takeTurn_eng : s.takeTurn.eng = s.eng := by
  unfold State.takeTurn; split <;> rfl
@[simp] theorem State.takeTurn_lCmd : s.takeTurn.lCmd = s.lCmd := by
  unfold State.takeTurn; split <;> rfl
@[simp] theorem State.takeTurn_lArg : s.takeTurn.lArg = s.lArg := by
  unfold State.takeTurn; split <;> rfl
@[simp] theorem State.takeTurn_lCtrl : s.takeTurn.lCtrl = s.lCtrl := by
  unfold State.takeTurn; split <;> rfl
@[simp] theorem State.takeTurn_host : s.takeTurn.host = s.host := by
  unfold State.takeTurn; split <;> rfl
@[simp] theorem State.takeTurn_reads : s.takeTurn.reads = s.reads := by
  unfold State.takeTurn; split <;> rfl

theorem State.takeTurn_of_host_nil (h : s.host = []) : s.takeTurn = s := by
  unfold State.takeTurn; simp [h]

theorem State.takeTurn_of_idle (h : s.eng = .idle) : s.takeTurn = s := by
  unfold State.takeTurn; simp [h]

theorem State.takeTurn_of_contested (a : HostAction) (rest : List HostAction) (hb : s.eng = .busy) (hh : s.host = a :: rest) :
    s.takeTurn = { s with sched := s.sched.tail } := by
  unfold State.takeTurn; simp [hb, hh]

/-! ### STATUS -/

variable (t : Status)

@[simp] theorem Status.complete_done (c : BitVec 8) : (t.complete c).done = true := rfl
@[simp] theorem Status.complete_err (c : BitVec 8) : (t.complete c).err = (t.err || c != 0) := rfl
@[simp] theorem Status.complete_ovr (c : BitVec 8) : (t.complete c).ovr = t.ovr := rfl
@[simp] theorem Status.complete_busErr (c : BitVec 8) : (t.complete c).busErr = t.busErr := rfl
@[simp] theorem Status.complete_errCode (c : BitVec 8) : (t.complete c).errCode = c := rfl
@[simp] theorem Status.complete_lastOp (c : BitVec 8) : (t.complete c).lastOp = t.lastOp := rfl
@[simp] theorem Status.accept_done (v : Word) : (t.accept v).done = false := rfl
@[simp] theorem Status.accept_err (v : Word) : (t.accept v).err = t.err := rfl
@[simp] theorem Status.accept_ovr (v : Word) : (t.accept v).ovr = t.ovr := rfl
@[simp] theorem Status.accept_busErr (v : Word) : (t.accept v).busErr = t.busErr := rfl
@[simp] theorem Status.accept_errCode (v : Word) : (t.accept v).errCode = 0 := rfl
@[simp] theorem Status.accept_lastOp (v : Word) : (t.accept v).lastOp = opField v := rfl
@[simp] theorem Status.clearW1C_done (v : Word) : (t.clearW1C v).done = (t.done && !v.getLsbD 1) := rfl
@[simp] theorem Status.clearW1C_err (v : Word) : (t.clearW1C v).err = (t.err && !v.getLsbD 2) := rfl
@[simp] theorem Status.clearW1C_ovr (v : Word) : (t.clearW1C v).ovr = (t.ovr && !v.getLsbD 3) := rfl
@[simp] theorem Status.clearW1C_busErr (v : Word) : (t.clearW1C v).busErr = (t.busErr && !v.getLsbD 4) := rfl
@[simp] theorem Status.clearW1C_errCode (v : Word) : (t.clearW1C v).errCode = t.errCode := rfl
@[simp] theorem Status.clearW1C_lastOp (v : Word) : (t.clearW1C v).lastOp = t.lastOp := rfl

/-- A successful completion changes DONE and ERRCODE only. -/
theorem Status.complete_zero : t.complete 0 = { t with done := true, errCode := 0 } := by
  simp [Status.complete]

@[simp] theorem State.busy_eq_true : s.busy = true ↔ s.eng = .busy := by simp [State.busy]

theorem errorCode_ne_zero (c : CmdError) : errorCode c ≠ 0 := by cases c <;> decide

theorem errorCode_le (c : CmdError) : errorCode c ≤ 9 := by cases c <;> decide

end Sys2Proof.Machine
end

