-- ==== Sys2Proof/Laws/Bus.lean ====
section
/-! SUPPORT. The host bus: what stands at an offset, and everything a host write and a host read can do. -/

namespace Sys2Proof.Machine

/-! ### The map -/

/-- The words of each port (10_state.md section 2). -/
def Port.wordsAt : Port → Nat → Prop
  | .id, w => w = 0
  | .ctrl, w => w = 1
  | .status, w => w = 2
  | .cmd, w => w = 3
  | .arg i, w => w = 4 + i.val
  | .res i, w => w = 8 + i.val
  | .poly i, w => w = 16 + i.val
  | .caps, w => w = 24
  | .reserved, w => 25 ≤ w ∧ w < 64
  | .bitWin j, w => j < 64 ∧ w = 64 + j
  | .symWin j, w => j < 64 ∧ w = 128 + j
  | .outWin j, w => j < 64 ∧ w = 192 + j

theorem portOf_wordsAt (off : Offset) : (portOf off).wordsAt (off.toNat / 4) := by
  have hlt : off.toNat / 4 < 256 := by have := off.isLt; omega
  unfold portOf
  dsimp only
  generalize off.toNat / 4 = w at hlt
  by_cases h0 : w = 0
  · rw [if_pos h0]; exact h0
  rw [if_neg h0]
  by_cases h1 : w = 1
  · rw [if_pos h1]; exact h1
  rw [if_neg h1]
  by_cases h2 : w = 2
  · rw [if_pos h2]; exact h2
  rw [if_neg h2]
  by_cases h3 : w = 3
  · rw [if_pos h3]; exact h3
  rw [if_neg h3]
  by_cases h4 : w < 8
  · rw [if_pos h4]; change w = 4 + (w - 4) % 4; omega
  rw [if_neg h4]
  by_cases h5 : w < 16
  · rw [if_pos h5]; change w = 8 + (w - 8) % 8; omega
  rw [if_neg h5]
  by_cases h6 : w < 24
  · rw [if_pos h6]; change w = 16 + (w - 16) % 8; omega
  rw [if_neg h6]
  by_cases h7 : w = 24
  · rw [if_pos h7]; exact h7
  rw [if_neg h7]
  by_cases h8 : w < 64
  · rw [if_pos h8]; exact ⟨by omega, h8⟩
  rw [if_neg h8]
  by_cases h9 : w < 128
  · rw [if_pos h9, if_pos (by rw [Config.bitmemBits]; omega)]; exact ⟨by omega, by omega⟩
  rw [if_neg h9]
  by_cases h10 : w < 192
  · rw [if_pos h10]; exact ⟨by omega, by omega⟩
  · rw [if_neg h10]; exact ⟨by omega, by omega⟩

/-- Two ports never share a word. -/
theorem Port.wordsAt_inj {p q : Port} {w : Nat} (hp : p.wordsAt w) (hq : q.wordsAt w) : p = q := by
  cases p <;> cases q <;> simp only [Port.wordsAt] at hp hq <;>
    first
    | rfl
    | (exfalso; omega)
    | (congr 1; omega)

theorem portOf_eq_iff (off : Offset) (p : Port) : portOf off = p ↔ p.wordsAt (off.toNat / 4) :=
  ⟨fun h => h ▸ portOf_wordsAt off, fun h => Port.wordsAt_inj (portOf_wordsAt off) h⟩

theorem portOf_of {off : Offset} {p : Port} (h : p.wordsAt (off.toNat / 4)) : portOf off = p := (portOf_eq_iff off p).2 h

/-! ### Writes -/

/-- An aligned word write is decided by its port. -/
theorem hostWrite_word {s : State} {off : Offset} {v : Word} (ha : off.toNat % 4 = 0) :
    hostWrite s off 4 v =
      match portOf off with
      | .reserved => s.refuse
      | .id | .res _ | .poly _ | .caps | .outWin _ => s
      | .status => { s with status := s.status.clearW1C v }
      | .ctrl => s.whenIdle (s.writeCtrl v)
      | .cmd => s.whenIdle (s.accept v)
      | .arg i => s.whenIdle { s with arg := s.arg.set i v }
      | .bitWin j => s.whenIdle (s.writeBitWord j v)
      | .symWin j => s.whenIdle (s.writeSymWord j v) := by
  unfold hostWrite
  exact if_neg (by omega)

theorem hostWrite_refused {s : State} {off : Offset} {size : Nat} {v : Word} (h : size ≠ 4 ∨ off.toNat % 4 ≠ 0) :
    hostWrite s off size v = s.refuse := if_pos h

theorem whenIdle_idle {s t : State} (h : s.eng = .idle) : s.whenIdle t = t := by simp [State.whenIdle, State.busy, h]

theorem whenIdle_busy {s t : State} (h : s.eng = .busy) : s.whenIdle t = s.drop := by simp [State.whenIdle, State.busy, h]

theorem hostWrite_ctrl (s : State) (v : Word) : hostWrite s 0x004 4 v = s.whenIdle (s.writeCtrl v) := by
  rw [hostWrite_word (by decide), portOf_of (p := .ctrl) (by rfl)]

theorem hostWrite_status (s : State) (v : Word) : hostWrite s 0x008 4 v = { s with status := s.status.clearW1C v } := by
  rw [hostWrite_word (by decide), portOf_of (p := .status) (by rfl)]

theorem hostWrite_cmd (s : State) (v : Word) : hostWrite s 0x00C 4 v = s.whenIdle (s.accept v) := by
  rw [hostWrite_word (by decide), portOf_of (p := .cmd) (by rfl)]

/-- Everything a host write can do (20_memory.md rules R85 to R87, R98). -/
theorem hostWrite_cases (s : State) (off : Offset) (size : Nat) (v : Word) :
    hostWrite s off size v = s.refuse ∨ hostWrite s off size v = s ∨
    (off = 0x008 ∧ size = 4 ∧ hostWrite s off size v = { s with status := s.status.clearW1C v }) ∨
    (s.eng = .busy ∧ hostWrite s off size v = s.drop) ∨
    (s.eng = .idle ∧
      ((off = 0x004 ∧ size = 4 ∧ hostWrite s off size v = s.writeCtrl v) ∨
       (off = 0x00C ∧ size = 4 ∧ hostWrite s off size v = s.accept v) ∨
       (∃ i : Fin 4, hostWrite s off size v = { s with arg := s.arg.set i v }) ∨
       (∃ j, j < 64 ∧ hostWrite s off size v = s.writeBitWord j v) ∨
       (∃ j, j < 64 ∧ hostWrite s off size v = s.writeSymWord j v))) := by
  by_cases h : size ≠ 4 ∨ off.toNat % 4 ≠ 0
  · exact .inl (hostWrite_refused h)
  · simp only [not_or, Decidable.not_not] at h
    obtain ⟨rfl, ha⟩ := h
    rw [hostWrite_word ha]
    have hp := portOf_wordsAt off
    have he : s.eng = .idle ∨ s.eng = .busy := by cases s.eng <;> simp
    cases hq : portOf off <;> rw [hq] at hp <;> simp only [Port.wordsAt] at hp <;> dsimp only
    case reserved => exact .inl rfl
    case id => exact .inr (.inl rfl)
    case res => exact .inr (.inl rfl)
    case poly => exact .inr (.inl rfl)
    case caps => exact .inr (.inl rfl)
    case outWin => exact .inr (.inl rfl)
    case status => exact .inr (.inr (.inl ⟨BitVec.eq_of_toNat_eq (by simp; omega), by simp⟩))
    case ctrl =>
      rcases he with he | he
      · rw [whenIdle_idle he]
        exact .inr (.inr (.inr (.inr ⟨he, .inl ⟨BitVec.eq_of_toNat_eq (by simp; omega), rfl, rfl⟩⟩)))
      · rw [whenIdle_busy he]; exact .inr (.inr (.inr (.inl ⟨he, rfl⟩)))
    case cmd =>
      rcases he with he | he
      · rw [whenIdle_idle he]
        exact .inr (.inr (.inr (.inr ⟨he, .inr (.inl ⟨BitVec.eq_of_toNat_eq (by simp; omega), rfl, rfl⟩)⟩)))
      · rw [whenIdle_busy he]; exact .inr (.inr (.inr (.inl ⟨he, rfl⟩)))
    case arg i =>
      rcases he with he | he
      · rw [whenIdle_idle he]; exact .inr (.inr (.inr (.inr ⟨he, .inr (.inr (.inl ⟨i, rfl⟩))⟩)))
      · rw [whenIdle_busy he]; exact .inr (.inr (.inr (.inl ⟨he, rfl⟩)))
    case bitWin j =>
      rcases he with he | he
      · rw [whenIdle_idle he]; exact .inr (.inr (.inr (.inr ⟨he, .inr (.inr (.inr (.inl ⟨j, hp.1, rfl⟩)))⟩)))
      · rw [whenIdle_busy he]; exact .inr (.inr (.inr (.inl ⟨he, rfl⟩)))
    case symWin j =>
      rcases he with he | he
      · rw [whenIdle_idle he]; exact .inr (.inr (.inr (.inr ⟨he, .inr (.inr (.inr (.inr ⟨j, hp.1, rfl⟩)))⟩)))
      · rw [whenIdle_busy he]; exact .inr (.inr (.inr (.inl ⟨he, rfl⟩)))

/-! ### Reads -/

theorem hostRead_refused {p : Params} {s : State} {off : Offset} {size : Nat}
    (h : size ≠ 4 ∨ off.toNat % 4 ≠ 0 ∨ portOf off = .reserved) : hostRead p s off size = .ok (0, s.refuse) := if_pos h

theorem hostRead_word {p : Params} {s : State} {off : Offset} (ha : off.toNat % 4 = 0) (hp : portOf off ≠ .reserved) :
    hostRead p s off 4 =
      match portValue p s (portOf off) with
      | .ok v => .ok (v, s)
      | .error e => .error e := by
  unfold hostRead
  exact if_neg (by simp [ha, hp])

/-- Everything a host read can do: it is refused, or returns a value and changes nothing, or meets an unwritten cell
(20_memory.md rules R85, R86, R88, 10_state.md rule R45). -/
theorem hostRead_cases (p : Params) (s : State) (off : Offset) (size : Nat) :
    ((size ≠ 4 ∨ off.toNat % 4 ≠ 0 ∨ portOf off = .reserved) ∧ hostRead p s off size = .ok (0, s.refuse)) ∨
    (size = 4 ∧ off.toNat % 4 = 0 ∧ portOf off ≠ .reserved ∧
      ((∃ v, portValue p s (portOf off) = .ok v ∧ hostRead p s off size = .ok (v, s)) ∨
       (∃ e, portValue p s (portOf off) = .error e ∧ hostRead p s off size = .error e))) := by
  by_cases h : size ≠ 4 ∨ off.toNat % 4 ≠ 0 ∨ portOf off = .reserved
  · exact .inl ⟨h, hostRead_refused h⟩
  · simp only [not_or, Decidable.not_not] at h
    obtain ⟨rfl, ha, hp⟩ := h
    refine .inr ⟨rfl, ha, hp, ?_⟩
    rw [hostRead_word ha hp]
    cases hv : portValue p s (portOf off) with
    | ok v => exact .inl ⟨v, rfl, rfl⟩
    | error e => exact .inr ⟨e, rfl, rfl⟩

/-- A read that answers leaves the state as it is, or refuses. -/
theorem hostRead_ok {p : Params} {s t : State} {off : Offset} {size : Nat} {v : Word}
    (h : hostRead p s off size = .ok (v, t)) : t = s ∨ (v = 0 ∧ t = s.refuse) := by
  rcases hostRead_cases p s off size with ⟨-, h'⟩ | ⟨-, -, -, ⟨w, -, h'⟩ | ⟨e, -, h'⟩⟩ <;> rw [h'] at h <;> cases h
  · exact .inr ⟨rfl, rfl⟩
  · exact .inl rfl

end Sys2Proof.Machine
end

