-- ==== Sys2Proof/Laws/Params.lean ====
section
/-! SUPPORT. The parameters at hand are a configuration of this block, and what that says: bijective tables with their
streams, present generators, field orders, regions and blocks in range. -/

namespace Sys2Proof.Machine

theorem testCfg_valid : paramsValid testCfg = true := by decide +kernel

/-- The parameters at hand satisfy every constraint of 00_scope.md rules R7, R8. -/
theorem params_valid : paramsValid params = true := by
  unfold params
  by_cases h : paramsValid Config.raw = true
  · rw [if_pos h]; exact h
  · rw [if_neg h]; exact testCfg_valid

/-- The constraints, one by one. -/
structure Valid (p : Params) : Prop where
  base : p.base % 0x400 = 0
  polys : polysOk p = true
  perm2 : ∀ t ∈ p.perm2, tableOk 2 t = true
  perm3 : ∀ t ∈ p.perm3, tableOk 3 t = true
  lcwLength : p.permLcw.length = 46
  lcwBijection : isBijection p.permLcw = true
  lcwW1 : 1 ≤ p.lcwW1
  lcwW2 : 1 ≤ p.lcwW2
  lcwW3 : 1 ≤ p.lcwW3
  lcwSum : p.lcwW1 + p.lcwW2 + p.lcwW3 ≤ 46
  rs8 : rsCodeOk (rs8Code p) = true
  rs8Fcr : p.rs8Fcr ≤ 254
  rs6 : rsCodeOk (rs6Code p) = true
  patterns : patternsOk p = true
  candidates : ∀ x : Cand, candidateOk p (candidate p x) = true
  frameType : frameTypeOk p = true

theorem valid_of {p : Params} (h : paramsValid p = true) : Valid p := by
  simp only [paramsValid, Bool.and_eq_true, decide_eq_true_eq, List.all_eq_true] at h
  obtain ⟨⟨⟨⟨⟨⟨⟨⟨⟨⟨h1, h2⟩, h3⟩, h4⟩, h5, h6⟩, ⟨⟨h7, h8⟩, h9⟩, h10⟩, h11, h12⟩, h13⟩, h14⟩, h15⟩, h16⟩ := h
  exact ⟨h1, h2, h3, h4, h5, h6, h7, h8, h9, h10, h11, h12, h13, h14, fun x => h15 x (by cases x <;> simp [precedence]), h16⟩

theorem params_ok : Valid params := valid_of params_valid

theorem isBijection_nodup {perm : List Nat} (h : isBijection perm = true) : perm.Nodup := by
  simp only [isBijection, Bool.and_eq_true, decide_eq_true_eq] at h; exact h.1.1

theorem isBijection_lt {perm : List Nat} (h : isBijection perm = true) {j : Nat} (hj : j ∈ perm) : j < perm.length := by
  simp only [isBijection, Bool.and_eq_true, decide_eq_true_eq, List.all_eq_true] at h; exact h.1.2 j hj

theorem isBijection_mem {perm : List Nat} (h : isBijection perm = true) {j : Nat} (hj : j < perm.length) : j ∈ perm := by
  simp only [isBijection, Bool.and_eq_true, decide_eq_true_eq, List.all_eq_true, List.contains_iff_mem] at h
  exact h.2 j (List.mem_range.2 hj)

theorem findTable_some {tables : List PermTable} {len : Nat} {t : PermTable} (h : findTable tables len = some t) :
    t ∈ tables ∧ t.perm.length = len :=
  ⟨List.mem_of_find?_eq_some h, by simpa using List.find?_some h⟩

/-- A generator is present exactly when it is not constant (10_state.md rule R39). -/
theorem generatorPresent_iff (p : Params) (slot : Fin 8) : generatorPresent p slot = true ↔ 2 ≤ generator p slot := by
  unfold generatorPresent deg
  rw [decide_eq_true_iff]
  constructor
  · intro h
    by_contra hlt
    have : generator p slot = 0 ∨ generator p slot = 1 := by omega
    rcases this with h' | h' <;> rw [h'] at h <;> exact absurd h (by decide)
  · intro h
    exact (Nat.le_log2 (by omega)).2 (by simpa using h)

/-- Slots 0 to 3 are present (00_scope.md rule R7). -/
theorem Valid.slot_present {p : Params} (h : Valid p) (slot : Fin 8) (hs : slot.val < 4) : generatorPresent p slot = true := by
  have := h.polys
  simp only [polysOk, Bool.and_eq_true] at this
  obtain ⟨⟨⟨⟨⟨h0, h1⟩, h2⟩, h3⟩, -⟩, -⟩ := this
  match slot, hs with
  | 0, _ => exact h0
  | 1, _ => exact h1
  | 2, _ => exact h2
  | 3, _ => exact h3

/-- A slot is 0 or present: no slot holds the constant 1 (00_scope.md rule R7). -/
theorem Valid.slot_zero_or_present {p : Params} (h : Valid p) (slot : Fin 8) :
    generator p slot = 0 ∨ generatorPresent p slot = true := by
  have := h.polys
  simp only [polysOk, Bool.and_eq_true, List.all_eq_true, Bool.or_eq_true, decide_eq_true_eq] at this
  obtain ⟨⟨⟨⟨⟨h0, h1⟩, h2⟩, h3⟩, -⟩, h4⟩ := this
  match slot with
  | 0 => exact .inr h0
  | 1 => exact .inr h1
  | 2 => exact .inr h2
  | 3 => exact .inr h3
  | 4 => exact h4 4 (by simp)
  | 5 => exact h4 5 (by simp)
  | 6 => exact h4 6 (by simp)
  | 7 => exact h4 7 (by simp)

/-- The degree of a generator fits its 32-bit register. -/
theorem deg_generator_lt (p : Params) (slot : Fin 8) : deg (generator p slot) < 32 := by
  by_cases h : generator p slot = 0
  · rw [h]; decide
  · exact (Nat.log2_lt h).2 (p.poly[slot]).isLt

theorem tableOk_bijection {k : Nat} {t : PermTable} (h : tableOk k t = true) : isBijection t.perm = true := by
  simp only [tableOk, Bool.and_eq_true] at h; exact h.1.1

theorem tableOk_streams {k : Nat} {t : PermTable} (h : tableOk k t = true) :
    t.streams.length = k ∧ t.streams.sum = t.perm.length := by
  simp only [tableOk, Bool.and_eq_true, decide_eq_true_eq] at h; exact ⟨h.1.2, h.2⟩

theorem rsCodeOk_deg {f : RsCode} (h : rsCodeOk f = true) : deg f.prim = f.m := by
  simp only [rsCodeOk, Bool.and_eq_true, decide_eq_true_eq] at h; exact h.1.1

theorem Valid.check {p : Params} (h : Valid p) (x : Cand) {c : Check} (hc : c ∈ (candidate p x).checks) :
    checkOk p (candidate p x).minLen c = true := by
  have := h.candidates x
  simp only [candidateOk, List.all_eq_true] at this
  exact this c hc

end Sys2Proof.Machine
end

