-- ==== Sys2Proof/Laws/Functions.lean ====
section
/-! SUPPORT. What the functions of the units give back: lengths of permuted, decoded and corrected strings, and the cases of a
decode. -/

namespace Sys2Proof.Machine

@[simp] theorem deinterleave_length (perm : List Nat) (x : Bits) : (deinterleave perm x).length = perm.length := by
  simp [deinterleave]

@[simp] theorem interleave_length (perm : List Nat) (x : Bits) : (interleave perm x).length = perm.length := by
  simp [interleave]

@[simp] theorem flip_length (c : Bits) (i : Nat) : (flip c i).length = c.length := by simp [flip]

theorem padded_length {x : Bits} {p : Nat} (b : Bool) (h : p ≤ x.length) : (padded x p b).length = x.length + 1 := by
  simp [padded]; omega

/-- A decode is the identity, one flip, two flips, or a failure that gives the input back (42_bch.md rule R173). -/
theorem bchDecode_cases (ord : FlipOrder) (g : Nat) (c : Bits) :
    (∃ ps, (flipSets ord c.length).find? (fun ps => decide (rem g (ps.foldl flip c) = 0)) = some ps ∧
      ((ps = [] ∧ bchDecode ord g c = { errs := some 0, word := c, p1 := none, p2 := none }) ∨
       (∃ i, ps = [i] ∧ bchDecode ord g c = { errs := some 1, word := flip c i, p1 := some i, p2 := none }) ∨
       (∃ i j rest, ps = i :: j :: rest ∧ bchDecode ord g c =
          { errs := some 2, word := flip (flip c i) j, p1 := some (min i j), p2 := some (max i j) }))) ∨
    ((flipSets ord c.length).find? (fun ps => decide (rem g (ps.foldl flip c) = 0)) = none ∧
      bchDecode ord g c = { errs := none, word := c, p1 := none, p2 := none }) := by
  unfold bchDecode
  cases h : (flipSets ord c.length).find? (fun ps => decide (rem g (ps.foldl flip c) = 0)) with
  | none => exact .inr ⟨rfl, rfl⟩
  | some ps =>
    refine .inl ⟨ps, rfl, ?_⟩
    match ps with
    | [] => exact .inl ⟨rfl, rfl⟩
    | [i] => exact .inr (.inl ⟨i, rfl, rfl⟩)
    | i :: j :: rest => exact .inr (.inr ⟨i, j, rest, rfl, rfl⟩)

@[simp] theorem bchDecode_length (ord : FlipOrder) (g : Nat) (c : Bits) : (bchDecode ord g c).word.length = c.length := by
  rcases bchDecode_cases ord g c with ⟨ps, -, ⟨-, h⟩ | ⟨i, -, h⟩ | ⟨i, j, -, -, h⟩⟩ | ⟨-, h⟩ <;> rw [h] <;> simp

theorem bchDecode_errs_le {ord : FlipOrder} {g : Nat} {c : Bits} {e : Nat} (h : (bchDecode ord g c).errs = some e) : e ≤ 2 := by
  rcases bchDecode_cases ord g c with ⟨ps, -, ⟨-, h'⟩ | ⟨i, -, h'⟩ | ⟨i, j, -, -, h'⟩⟩ | ⟨-, h'⟩ <;> rw [h'] at h <;>
    simp at h <;> omega

/-- Pad decoding takes one of the two candidates; the second only when it ranks strictly better (42_bch.md rule R175). -/
theorem padDecode_cases (ord : FlipOrder) (g : Nat) (x : Bits) (p : Nat) :
    (rank (bchDecode ord g (padded x p false)).errs ≤ rank (bchDecode ord g (padded x p true)).errs ∧
      padDecode ord g x p = (bchDecode ord g (padded x p false), false)) ∨
    (rank (bchDecode ord g (padded x p true)).errs < rank (bchDecode ord g (padded x p false)).errs ∧
      padDecode ord g x p = (bchDecode ord g (padded x p true), true)) := by
  unfold padDecode
  dsimp only
  split
  · exact .inl ⟨‹_›, rfl⟩
  · exact .inr ⟨by omega, rfl⟩

theorem padDecode_length {ord : FlipOrder} {g : Nat} {x : Bits} {p : Nat} (h : p ≤ x.length) :
    (padDecode ord g x p).1.word.length = x.length + 1 := by
  rcases padDecode_cases ord g x p with ⟨-, h'⟩ | ⟨-, h'⟩ <;> rw [h'] <;> simp [padded_length _ h]

/-- The 32-bit block function: uncorrectable, parity matched, mismatch flagged, mismatch counted (42_bch.md rule R178). -/
theorem block32_cases (ord : FlipOrder) (g : Nat) (blk : Bits) (h : Bool) (r : BchDecoded)
    (hr : bchDecode ord g (blk.take 31) = r) :
    (r.errs = none ∧ block32 ord g blk h = { errs := none, word := blk, p1 := none, p2 := none, parity := 0 }) ∨
    (∃ e, r.errs = some e ∧
      ((xor (par r.word) (blk.getD 31 false) = false ∧ block32 ord g blk h =
          { errs := some e, word := r.word ++ [blk.getD 31 false], p1 := r.p1, p2 := r.p2, parity := 0 }) ∨
       (xor (par r.word) (blk.getD 31 false) = true ∧ h = false ∧ block32 ord g blk h =
          { errs := some e, word := r.word ++ [blk.getD 31 false], p1 := r.p1, p2 := r.p2, parity := 1 }) ∨
       (xor (par r.word) (blk.getD 31 false) = true ∧ h = true ∧ block32 ord g blk h =
          { errs := some (e + 1), word := r.word ++ [!(blk.getD 31 false)], p1 := r.p1, p2 := r.p2, parity := 2 }))) := by
  subst hr
  unfold block32
  dsimp only
  cases he : (bchDecode ord g (blk.take 31)).errs with
  | none => exact .inl ⟨rfl, rfl⟩
  | some e =>
    refine .inr ⟨e, rfl, ?_⟩
    cases hq : xor (par (bchDecode ord g (blk.take 31)).word) (blk.getD 31 false)
    · exact .inl ⟨rfl, by simp⟩
    · cases h
      · exact .inr (.inl ⟨rfl, rfl, by simp⟩)
      · exact .inr (.inr ⟨rfl, rfl, by simp⟩)

theorem block32_length {ord : FlipOrder} {g : Nat} {blk : Bits} {h : Bool} (hl : blk.length = 32) :
    (block32 ord g blk h).word.length = 32 := by
  rcases block32_cases ord g blk h _ rfl with ⟨-, h'⟩ | ⟨e, -, ⟨-, h'⟩ | ⟨-, -, h'⟩ | ⟨-, -, h'⟩⟩ <;> rw [h'] <;> simp [hl]

theorem blockSeq_length {ord : FlipOrder} {g : Nat} {h : Bool} {blks : List Bits} (hl : ∀ b ∈ blks, b.length = 32) :
    (blockSeq ord g h blks).out.length = 32 * blks.length := by
  induction blks with
  | nil => rfl
  | cons b bs ih =>
    have hb : b.length = 32 := hl b (by simp)
    have hbs : ∀ c ∈ bs, c.length = 32 := fun c hc => hl c (by simp [hc])
    rw [blockSeq]
    split
    · simp only [List.length_flatten, List.map_cons, List.sum_cons, List.length_cons, hb]
      have : (bs.map List.length).sum = bs.length * 32 := by
        rw [List.map_congr_left (g := fun _ => 32) hbs]; simp
      omega
    · simp [block32_length hb, ih hbs]; omega

/-! ### Reed–Solomon -/

theorem rsPad_length {f : RsCode} {r : List Nat} (h : r.length ≤ f.n) : (rsPad f r).length = f.n := by
  simp [rsPad]; omega

theorem correctAt_length {f : RsCode} {lam omega c : List Nat} {is : List Nat} {c' : List Nat}
    (h : correctAt f lam omega c is = some c') : c'.length = c.length := by
  induction is generalizing c with
  | nil => cases h; rfl
  | cons i is ih =>
    rw [correctAt] at h
    split at h
    · cases h
    · simpa using ih h

/-- A successful correction (43_rs.md rules R215 to R218). -/
theorem rsCorrect_some {f : RsCode} {r : List Nat} {q : RsFixed} (h : rsCorrect f r = some q) :
    ∃ (bm : BmState) (c' : List Nat), berlekampMassey f (syndromes f (rsPad f r)) = bm ∧ bm.nu ≤ f.t ∧
      (errorPositions f bm.lam).length = bm.nu ∧ (∀ i ∈ errorPositions f bm.lam, i < r.length) ∧
      correctAt f bm.lam ((gfPolyMul f (syndromes f (rsPad f r)) bm.lam).take f.nsym) (rsPad f r)
        (errorPositions f bm.lam) = some c' ∧
      (syndromes f c').all (fun x => decide (x = 0)) = true ∧
      q = { ok := true, word := c'.take r.length, ncorr := bm.nu } := by
  unfold rsCorrect at h
  dsimp only at h
  split at h
  · cases h
  · split at h
    · cases h
    · split at h
      · cases h
      · rename_i h1 h2 _ c' hc
        split at h
        · cases h
          simp only [ne_eq, not_or, Decidable.not_not, Bool.not_eq_true, List.any_eq_false, decide_eq_true_eq] at h2
          exact ⟨_, c', rfl, by omega, h2.1, fun i hi => by have := h2.2 i hi; omega, hc, ‹_›, rfl⟩
        · cases h

/-- `rs_fix_m`: nothing to correct, a correction, or a failure that gives the input back (43_rs.md rule R219). -/
theorem rsFix_cases (f : RsCode) (r : List Nat) :
    ((syndromes f (rsPad f r)).all (fun x => decide (x = 0)) = true ∧ rsFix f r = { ok := true, word := r, ncorr := 0 }) ∨
    ((syndromes f (rsPad f r)).all (fun x => decide (x = 0)) = false ∧
      ((∃ q, rsCorrect f r = some q ∧ rsFix f r = q) ∨
       (rsCorrect f r = none ∧ rsFix f r = { ok := false, word := r, ncorr := 0 }))) := by
  unfold rsFix
  cases h : (syndromes f (rsPad f r)).all (fun x => decide (x = 0))
  · refine .inr ⟨rfl, ?_⟩
    cases hc : rsCorrect f r with
    | none => exact .inr ⟨rfl, rfl⟩
    | some q => exact .inl ⟨q, rfl, rfl⟩
  · exact .inl ⟨rfl, rfl⟩

theorem rsFix_length (f : RsCode) (r : List Nat) : (rsFix f r).word.length = r.length := by
  rcases rsFix_cases f r with ⟨-, h⟩ | ⟨-, ⟨q, hq, h⟩ | ⟨-, h⟩⟩
  · rw [h]
  · obtain ⟨bm, c', -, -, -, -, hc, -, rfl⟩ := rsCorrect_some hq
    rw [h, List.length_take, correctAt_length hc]
    simp [rsPad]
  · rw [h]

end Sys2Proof.Machine
end

