-- ==== Sys2Proof/Laws/Ops.lean ====
section
/-! SUPPORT. The shared operations, each with one lemma that says all it can do: completion, region reads, result
registers; and the inversion of `exec`. -/

namespace Sys2Proof.Machine

/-! ### Completion -/

theorem complete_success (s : State) (e : Effect) : complete s (.success e) = .next (s.finish e) := rfl

theorem complete_error (s : State) (c : CmdError) : complete s (.error c) = .next (s.fail c) := rfl

theorem complete_uninit (s : State) (m : MemKind) (a : Nat) : complete s (.uninit m a) = .fault (.uninit m a) := rfl

theorem complete_ite (s : State) (c : Prop) [Decidable c] (a b : CmdResult) :
    complete s (if c then a else b) = if c then complete s a else complete s b := apply_ite _ _ _ _

/-- A completion that answers a next state either succeeded or failed with a command error. -/
theorem complete_next {s t : State} {r : CmdResult} (h : complete s r = .next t) :
    (∃ e, r = .success e ∧ t = s.finish e) ∨ (∃ c, r = .error c ∧ t = s.fail c) := by
  cases r with
  | success e => exact .inl ⟨e, rfl, (Host.Outcome.next.inj h).symm⟩
  | error c => exact .inr ⟨c, rfl, (Host.Outcome.next.inj h).symm⟩
  | uninit m a => cases h

theorem complete_ne_refused (s : State) (r : CmdResult) (x : Refusal) : complete s r ≠ .refused x := by
  cases r <;> simp [complete]

/-- `fail` in the words of the claims. -/
theorem fail_eq_failedWith (s : State) (c : CmdError) : s.fail c = failedWith s (errorCode c) := by
  simp [State.fail, failedWith, Status.complete]
  exact .inr (errorCode_ne_zero c)

theorem finish_empty (s : State) : s.finish {} = doneState s := by
  have h : writeRes s.res [] = s.res := by
    ext i hi; simp [writeRes]
  simp [State.finish, doneState, Status.complete, Memory.writeSeq, h]

theorem writeRes_get (res : Vector Word 8) (ws : List Word) (i : Fin 8) :
    (writeRes res ws)[i] = ws.getD i res[i] := by
  simp [writeRes, List.getD_eq_getElem?_getD]

theorem finish_keepsRest (s : State) (e : Effect) : KeepsRest s (s.finish e) := by
  constructor <;> rfl

theorem fail_keepsRest (s : State) (c : CmdError) : KeepsRest s (s.fail c) := by
  constructor <;> rfl

theorem finish_succeeds (s : State) (e : Effect) : Succeeds s (s.finish e) e.res where
  eng := rfl
  done := rfl
  errCode := rfl
  err := by simp
  res := fun i => writeRes_get s.res e.res i
  rest := finish_keepsRest s e

theorem finish_keepsBits (s : State) (e : Effect) (h : e.bits.2 = []) : KeepsBits s (s.finish e) := fun a => by
  simp [h, Memory.writeSeq]

theorem finish_keepsSyms (s : State) (e : Effect) (h : e.syms.2 = []) : KeepsSyms s (s.finish e) := fun a => by
  simp [h, Memory.writeSeq]

theorem finish_keepsOut (s : State) (e : Effect) (h : e.out = []) : KeepsOut s (s.finish e) := fun a => by
  simp [h, Memory.writeSeq]

/-! ### Region reads -/

theorem readBits_of_holds {s : State} {a n : Nat} {x : Bits} (k : Bits → CmdResult) (hl : x.length = n)
    (hh : Holds s.bitmem a x) : readBits s a n k = k x := by
  simp [readBits, Memory.readSeq_of_holds hl hh]

theorem readSyms_of_holds {s : State} {a n : Nat} {x : List Sym} (k : List Sym → CmdResult) (hl : x.length = n)
    (hh : Holds s.symmem a x) : readSyms s a n k = k x := by
  simp [readSyms, Memory.readSeq_of_holds hl hh]

/-- A region read hands a string on, or reports an unwritten cell of the region. -/
theorem readBits_cases (s : State) (a n : Nat) (k : Bits → CmdResult) :
    (∃ x, x.length = n ∧ Holds s.bitmem a x ∧ readBits s a n k = k x) ∨
    (∃ e, a ≤ e ∧ e < a + n ∧ Memory.read s.bitmem e = none ∧ readBits s a n k = .uninit .bitmem e) := by
  unfold readBits
  cases h : Memory.readSeq s.bitmem a n with
  | ok x => obtain ⟨h1, h2⟩ := (Memory.readSeq_ok_iff _ _ _ _).1 h; exact .inl ⟨x, h1, h2, rfl⟩
  | error e => obtain ⟨h1, h2, h3⟩ := Memory.readSeq_error h; exact .inr ⟨e, h1, h2, h3, rfl⟩

theorem readSyms_cases (s : State) (a n : Nat) (k : List Sym → CmdResult) :
    (∃ x, x.length = n ∧ Holds s.symmem a x ∧ readSyms s a n k = k x) ∨
    (∃ e, a ≤ e ∧ e < a + n ∧ Memory.read s.symmem e = none ∧ readSyms s a n k = .uninit .symmem e) := by
  unfold readSyms
  cases h : Memory.readSeq s.symmem a n with
  | ok x => obtain ⟨h1, h2⟩ := (Memory.readSeq_ok_iff _ _ _ _).1 h; exact .inl ⟨x, h1, h2, rfl⟩
  | error e => obtain ⟨h1, h2, h3⟩ := Memory.readSeq_error h; exact .inr ⟨e, h1, h2, h3, rfl⟩

/-! ### Every command is one completion -/

/-- The outcome `exec` completes with. -/
def resultOf (i : Instr) (s : State) : CmdResult :=
  match i with
  | .nop => .success {}
  | .extract => extractResult s
  | .slice => sliceResult s
  | .deint2 => permuteResult params.perm2 deinterleave s
  | .deint3 => permuteResult params.perm3 deinterleave s
  | .deintlcw => permuteLcwResult params deinterleave s
  | .int2 => permuteResult params.perm2 interleave s
  | .int3 => permuteResult params.perm3 interleave s
  | .intlcw => permuteLcwResult params interleave s
  | .hamming => hammingResult s
  | .cksum8 => checksumResult (fun bs => (params.cksum8 bs).toNat) s
  | .cksum16 => checksumResult (fun bs => (params.cksum16 bs).toNat) s
  | .bchDiv sel => bchDivResult params sel s
  | .bchDecode sel => bchDecodeResult params Config.flipOrder sel s
  | .bchDecode2p sel => bchDecode2pResult params Config.flipOrder sel s
  | .bchBlock32 sel => bchBlock32Result params Config.flipOrder sel s
  | .bchBlockseq sel => bchBlockseqResult params Config.flipOrder sel s
  | .rsFix8 => rsFix8Result params s
  | .rsFix6 => rsFix6Result params s
  | .access => accessResult params s
  | .strip => stripResult params s
  | .classify => classifyResult params Config.flipOrder s

theorem exec_eq_complete (i : Instr) (s : State) : exec i s = complete s (resultOf i s) := by
  cases i <;> rfl

/-- What `exec` can do when it answers a next state. -/
theorem exec_next {i : Instr} {s t : State} (h : exec i s = .next t) :
    (∃ e, resultOf i s = .success e ∧ t = s.finish e) ∨ (∃ c, resultOf i s = .error c ∧ t = s.fail c) :=
  complete_next (exec_eq_complete i s ▸ h)

theorem exec_keepsRest {i : Instr} {s t : State} (h : exec i s = .next t) : KeepsRest s t := by
  rcases exec_next h with ⟨e, -, rfl⟩ | ⟨c, -, rfl⟩
  · exact finish_keepsRest s e
  · exact fail_keepsRest s c

theorem exec_next_idle {i : Instr} {s t : State} (h : exec i s = .next t) : t.eng = .idle ∧ t.status.done = true := by
  rcases exec_next h with ⟨e, -, rfl⟩ | ⟨c, -, rfl⟩ <;> exact ⟨rfl, rfl⟩

theorem exec_ne_refused (i : Instr) (s : State) (x : Refusal) : exec i s ≠ .refused x := by
  rw [exec_eq_complete]; exact complete_ne_refused _ _ _

end Sys2Proof.Machine
end

