-- ==== Sys2Proof/Laws/Commands.lean ====
section
/-! SUPPORT. What any command's outcome is confined to: the registers and regions it writes, and the cells whose missing
written mark can stop it. -/

namespace Sys2Proof.Machine

open Sys2Proof.Claims

/-- An outcome of a command writes only what the command lists, inside the memories, and is UNINIT only for an unwritten
cell (30_encoding.md rule R105, 10_state.md rule R45). -/
def Fits (i : Instr) (s : State) : CmdResult → Prop
  | .success e =>
    e.res.length = resCount i ∧
    ((bitDestination i s = none ∧ e.bits.2 = []) ∨
      (bitDestination i s = some (e.bits.1, e.bits.2.length) ∧ e.bits.1 + e.bits.2.length ≤ 2048)) ∧
    ((symDestination i s = none ∧ e.syms.2 = []) ∨
      (symDestination i s = some (e.syms.1, e.syms.2.length) ∧ e.syms.1 + e.syms.2.length ≤ 256)) ∧
    e.out.length = outCount i s ∧ e.out.length ≤ 64
  | .error _ => True
  | .uninit m a =>
    (m = .bitmem ∧ a < 2048 ∧ Memory.read s.bitmem a = none) ∨ (m = .symmem ∧ a < 256 ∧ Memory.read s.symmem a = none)

theorem fits_ite {i : Instr} {s : State} {c : Prop} [Decidable c] {r r' : CmdResult} (h : c → Fits i s r)
    (h' : ¬ c → Fits i s r') : Fits i s (if c then r else r') := by
  by_cases hc : c
  · rw [if_pos hc]; exact h hc
  · rw [if_neg hc]; exact h' hc

theorem fits_readBits {i : Instr} {s : State} {a n : Nat} {k : Bits → CmdResult} (ha : a + n ≤ 2048)
    (hk : ∀ x, x.length = n → Fits i s (k x)) : Fits i s (readBits s a n k) := by
  rcases readBits_cases s a n k with ⟨x, hl, -, h⟩ | ⟨e, h1, h2, h3, h⟩ <;> rw [h]
  · exact hk x hl
  · exact .inl ⟨rfl, by omega, h3⟩

theorem fits_readSyms {i : Instr} {s : State} {a n : Nat} {k : List Sym → CmdResult} (ha : a + n ≤ 256)
    (hk : ∀ x, x.length = n → Fits i s (k x)) : Fits i s (readSyms s a n k) := by
  rcases readSyms_cases s a n k with ⟨x, hl, -, h⟩ | ⟨e, h1, h2, h3, h⟩ <;> rw [h]
  · exact hk x hl
  · exact .inr ⟨rfl, by omega, h3⟩

theorem fits_withPoly {i : Instr} {s : State} {p : Params} {sel : BitVec 4} {k : Nat → CmdResult}
    (hk : ∀ g, Fits i s (k g)) : Fits i s (withPoly p sel k) := by
  unfold withPoly
  split
  · trivial
  · split
    · exact hk _
    · trivial

/-- DEINT2, DEINT3, INT2, INT3: `f` keeps the length and every table has `k` streams. -/
theorem fits_permute {i : Instr} {s : State} {tables : List PermTable} {f : List Nat → Bits → Bits}
    (hf : ∀ perm x, (f perm x).length = perm.length) (hk : ∀ t ∈ tables, t.streams.length = resCount i)
    (hb : bitDestination i s = some (s.operand 1, s.operand 2)) (hs : symDestination i s = none) (ho : outCount i s = 0) :
    Fits i s (permuteResult tables f s) := by
  refine fits_ite (fun _ => trivial) fun hr => ?_
  simp only [bitsInRange, not_or, Decidable.not_not, Config.bitmemBits] at hr
  split
  · trivial
  · rename_i t ht
    obtain ⟨hm, hl⟩ := findTable_some ht
    refine fits_readBits hr.1 fun x _ => ⟨by simp [hk t hm], .inr ?_, .inl ⟨hs, rfl⟩, by simp [ho], by simp⟩
    simpa [hf, hl, hb] using hr.2

theorem fits_permuteLcw {i : Instr} {s : State} {p : Params} {f : List Nat → Bits → Bits}
    (hf : ∀ perm x, (f perm x).length = perm.length) (hp : p.permLcw.length = 46) (hk : resCount i = 3)
    (hb : bitDestination i s = some (s.operand 1, 46)) (hs : symDestination i s = none) (ho : outCount i s = 0) :
    Fits i s (permuteLcwResult p f s) := by
  refine fits_ite (fun _ => trivial) fun _ => fits_ite (fun _ => trivial) fun hr => ?_
  simp only [bitsInRange, not_or, Decidable.not_not, Config.bitmemBits] at hr
  refine fits_readBits hr.1 fun x _ => ⟨by simp [hk], .inr ?_, .inl ⟨hs, rfl⟩, by simp [ho], by simp⟩
  simpa [hf, hp, hb] using hr.2

/-- A command that reads one region of BITMEM and writes RES registers only. -/
theorem fits_checksum {i : Instr} {s : State} {f : List (BitVec 8) → Nat} (hk : resCount i = 1)
    (hb : bitDestination i s = none) (hs : symDestination i s = none) (ho : outCount i s = 0) :
    Fits i s (checksumResult f s) := by
  refine fits_ite (fun _ => trivial) fun hr => ?_
  simp only [bitsInRange, Decidable.not_not, Config.bitmemBits] at hr
  exact fits_readBits hr fun x _ => ⟨by simp [hk], .inl ⟨hb, rfl⟩, .inl ⟨hs, rfl⟩, by simp [ho], by simp⟩

/-- Every command's outcome fits (30_encoding.md rule R105). -/
theorem resultOf_fits (i : Instr) (s : State) : Fits i s (resultOf i s) := by
  have two : ∀ t ∈ params.perm2, t.streams.length = 2 := fun t ht => (tableOk_streams (params_ok.perm2 t ht)).1
  have three : ∀ t ∈ params.perm3, t.streams.length = 3 := fun t ht => (tableOk_streams (params_ok.perm3 t ht)).1
  cases i with
  | nop => exact ⟨rfl, .inl ⟨rfl, rfl⟩, .inl ⟨rfl, rfl⟩, rfl, by simp⟩
  | extract =>
    refine fits_ite (fun _ => trivial) fun _ => fits_ite (fun _ => trivial) fun hr => ?_
    simp only [bitsInRange, Decidable.not_not, Config.bitmemBits] at hr
    exact fits_readBits hr fun x _ => ⟨rfl, .inl ⟨rfl, rfl⟩, .inl ⟨rfl, rfl⟩, rfl, by simp⟩
  | slice =>
    refine fits_ite (fun _ => trivial) fun _ => fits_ite (fun _ => trivial) fun hr => fits_ite (fun _ => trivial) fun hc => ?_
    simp only [bitsInRange, Decidable.not_not, Config.bitmemBits] at hr
    simp only [gt_iff_lt, not_lt, Config.outbufWords] at hc
    exact fits_readBits hr fun x _ =>
      ⟨rfl, .inl ⟨rfl, rfl⟩, .inl ⟨rfl, rfl⟩, by simp [groups_length, outCount], by simpa [groups_length] using hc⟩
  | deint2 => exact fits_permute (fun _ _ => deinterleave_length _ _) two rfl rfl rfl
  | deint3 => exact fits_permute (fun _ _ => deinterleave_length _ _) three rfl rfl rfl
  | deintlcw => exact fits_permuteLcw (fun _ _ => deinterleave_length _ _) params_ok.lcwLength rfl rfl rfl rfl
  | int2 => exact fits_permute (fun _ _ => interleave_length _ _) two rfl rfl rfl
  | int3 => exact fits_permute (fun _ _ => interleave_length _ _) three rfl rfl rfl
  | intlcw => exact fits_permuteLcw (fun _ _ => interleave_length _ _) params_ok.lcwLength rfl rfl rfl rfl
  | hamming =>
    refine fits_ite (fun _ => trivial) fun hr => ?_
    simp only [bitsInRange, not_or, Decidable.not_not, Config.bitmemBits] at hr
    exact fits_readBits hr.1 fun x _ =>
      fits_readBits hr.2 fun y _ => ⟨rfl, .inl ⟨rfl, rfl⟩, .inl ⟨rfl, rfl⟩, rfl, by simp⟩
  | cksum8 =>
    rw [show resultOf .cksum8 s = checksumResult (fun bs => (params.cksum8 bs).toNat) s from rfl]
    exact fits_checksum rfl rfl rfl rfl
  | cksum16 =>
    rw [show resultOf .cksum16 s = checksumResult (fun bs => (params.cksum16 bs).toNat) s from rfl]
    exact fits_checksum rfl rfl rfl rfl
  | bchDiv sel =>
    rw [show resultOf (.bchDiv sel) s = bchDivResult params sel s from rfl, bchDivResult]
    refine fits_withPoly fun g => ?_
    refine fits_ite (fun _ => trivial) fun _ => fits_ite (fun _ => trivial) fun hr => ?_
    simp only [bitsInRange, Decidable.not_not, Config.bitmemBits] at hr
    exact fits_readBits hr fun x _ => ⟨rfl, .inl ⟨rfl, rfl⟩, .inl ⟨rfl, rfl⟩, rfl, by simp⟩
  | bchDecode sel =>
    rw [show resultOf (.bchDecode sel) s = bchDecodeResult params Config.flipOrder sel s from rfl, bchDecodeResult]
    refine fits_withPoly fun g => ?_
    refine fits_ite (fun _ => trivial) fun _ => fits_ite (fun _ => trivial) fun hr => ?_
    simp only [bitsInRange, not_or, Decidable.not_not, Config.bitmemBits] at hr
    refine fits_readBits hr.1 fun x hx => ⟨rfl, .inr ?_, .inl ⟨rfl, rfl⟩, rfl, by simp⟩
    simpa [bitDestination, hx] using hr.2
  | bchDecode2p sel =>
    rw [show resultOf (.bchDecode2p sel) s = bchDecode2pResult params Config.flipOrder sel s from rfl, bchDecode2pResult]
    refine fits_withPoly fun g => ?_
    refine fits_ite (fun _ => trivial) fun hn => fits_ite (fun _ => trivial) fun hr => ?_
    simp only [bitsInRange, not_or, Decidable.not_not, Config.bitmemBits] at hr
    refine fits_readBits hr.1 fun x hx => ⟨rfl, .inr ?_, .inl ⟨rfl, rfl⟩, rfl, by simp⟩
    have hl := padDecode_length (ord := Config.flipOrder) (g := g) (x := x) (p := s.operand 3) (by omega)
    have : x.length + 1 = s.operand 1 := by omega
    simpa [bitDestination, hl, this] using hr.2
  | bchBlock32 sel =>
    rw [show resultOf (.bchBlock32 sel) s = bchBlock32Result params Config.flipOrder sel s from rfl, bchBlock32Result]
    refine fits_withPoly fun g => ?_
    refine fits_ite (fun _ => trivial) fun _ => fits_ite (fun _ => trivial) fun hr => ?_
    simp only [bitsInRange, not_or, Decidable.not_not, Config.bitmemBits] at hr
    refine fits_readBits hr.1 fun x hx => ⟨rfl, .inr ?_, .inl ⟨rfl, rfl⟩, rfl, by simp⟩
    simpa [bitDestination, block32_length hx] using hr.2
  | bchBlockseq sel =>
    rw [show resultOf (.bchBlockseq sel) s = bchBlockseqResult params Config.flipOrder sel s from rfl, bchBlockseqResult]
    refine fits_withPoly fun g => ?_
    refine fits_ite (fun _ => trivial) fun _ => fits_ite (fun _ => trivial) fun hr => ?_
    simp only [bitsInRange, not_or, Decidable.not_not, Config.bitmemBits] at hr
    refine fits_readBits hr.1 fun x hx => ⟨rfl, .inr ?_, .inl ⟨rfl, rfl⟩, rfl, by simp⟩
    have hg : ∀ b ∈ groups 32 (s.operand 1) x, b.length = 32 := fun b hb => groups_mem_length (by omega) hb
    simpa [bitDestination, blockSeq_length hg, groups_length] using hr.2
  | rsFix8 =>
    refine fits_ite (fun _ => trivial) fun _ => fits_ite (fun _ => trivial) fun hr => ?_
    simp only [symsInRange, not_or, Decidable.not_not, Config.symmemSyms] at hr
    refine fits_readSyms hr.1 fun r hl => ⟨rfl, .inl ⟨rfl, rfl⟩, .inr ?_, rfl, by simp [rsEffect]⟩
    simpa [symDestination, rsEffect, rsFix_length, hl] using hr.2
  | rsFix6 =>
    refine fits_ite (fun _ => trivial) fun _ => fits_ite (fun _ => trivial) fun hr => ?_
    simp only [symsInRange, not_or, Decidable.not_not, Config.symmemSyms] at hr
    refine fits_readSyms hr.1 fun r hl => fits_ite (fun _ => trivial) fun _ =>
      ⟨rfl, .inl ⟨rfl, rfl⟩, .inr ?_, rfl, by simp [rsEffect]⟩
    simpa [symDestination, rsEffect, rsFix_length, hl] using hr.2
  | access =>
    refine fits_ite (fun _ => trivial) fun hr => ?_
    simp only [bitsInRange, Decidable.not_not, Config.bitmemBits] at hr
    refine fits_readBits hr fun x _ => ⟨?_, .inl ⟨rfl, rfl⟩, .inl ⟨rfl, rfl⟩, rfl, by simp⟩
    cases h : accessDetect params x s.lCtrl.harder <;> rfl
  | strip =>
    refine fits_ite (fun _ => trivial) fun hr => ?_
    simp only [bitsInRange, Decidable.not_not, Config.bitmemBits] at hr
    exact fits_readBits hr fun x _ => ⟨rfl, .inl ⟨rfl, rfl⟩, .inl ⟨rfl, rfl⟩, rfl, by simp⟩
  | classify =>
    refine fits_ite (fun _ => trivial) fun hr => fits_ite (fun _ => trivial) fun _ => ?_
    simp only [bitsInRange, Decidable.not_not, Config.bitmemBits] at hr
    exact fits_readBits hr fun x _ => ⟨rfl, .inl ⟨rfl, rfl⟩, .inl ⟨rfl, rfl⟩, rfl, by simp⟩

/-- The effect of a successful command. -/
theorem success_fits {i : Instr} {s : State} {e : Effect} (h : resultOf i s = .success e) : Fits i s (.success e) :=
  h ▸ resultOf_fits i s

/-- A command that stops names an unwritten cell of its memory. -/
theorem exec_fault {i : Instr} {s : State} {f : Fault} (h : exec i s = .fault f) :
    (∃ a, a < 2048 ∧ f = .uninit .bitmem a ∧ Memory.read s.bitmem a = none) ∨
    (∃ a, a < 256 ∧ f = .uninit .symmem a ∧ Memory.read s.symmem a = none) := by
  rw [exec_eq_complete] at h
  have hf := resultOf_fits i s
  cases hr : resultOf i s with
  | success e => rw [hr] at h; cases h
  | error c => rw [hr] at h; cases h
  | uninit m a =>
    rw [hr] at h hf
    cases h
    rcases hf with ⟨rfl, h1, h2⟩ | ⟨rfl, h1, h2⟩
    · exact .inl ⟨a, h1, rfl, h2⟩
    · exact .inr ⟨a, h1, rfl, h2⟩

end Sys2Proof.Machine
end

