-- ==== Sys2Proof/Laws/Poly.lean ====
section
/-! SUPPORT. Polynomials over GF(2): the remainder is a remainder (below the degree, congruent), multiples, and the linearity
of the remainder. -/

namespace Sys2Proof.Machine

theorem lt_two_pow_deg (a : Nat) : a < 2 ^ (deg a + 1) := Nat.lt_log2_self

theorem testBit_deg {a : Nat} (h : a ≠ 0) : a.testBit (deg a) = true := Nat.testBit_log2 h

theorem deg_lt {a n : Nat} (h : a ≠ 0) (ha : a < 2 ^ n) : deg a < n := (Nat.log2_lt h).2 ha

/-- Two numbers with the same highest bit: the XOR lies below it. -/
theorem xor_lt_of_deg {a b n : Nat} (ha : a < 2 ^ (n + 1)) (hb : b < 2 ^ (n + 1)) (h1 : a.testBit n = true)
    (h2 : b.testBit n = true) : a ^^^ b < 2 ^ n := by
  refine Nat.lt_pow_two_of_testBit _ fun i hi => ?_
  rw [Nat.testBit_xor]
  rcases Nat.eq_or_lt_of_le hi with rfl | hi
  · rw [h1, h2]; rfl
  · have hle : 2 ^ (n + 1) ≤ 2 ^ i := Nat.pow_le_pow_right (by omega) hi
    rw [Nat.testBit_lt_two_pow (by omega), Nat.testBit_lt_two_pow (by omega)]; rfl

/-- A subtraction step of the long division clears the highest bit. -/
theorem reduce_lt {g a : Nat} (hg : g ≠ 0) (ha : a ≠ 0) (h : deg g ≤ deg a) : a ^^^ (g <<< (deg a - deg g)) < 2 ^ deg a := by
  refine xor_lt_of_deg (lt_two_pow_deg a) ?_ (testBit_deg ha) ?_
  · rw [Nat.shiftLeft_eq]
    calc g * 2 ^ (deg a - deg g) < 2 ^ (deg g + 1) * 2 ^ (deg a - deg g) :=
          Nat.mul_lt_mul_of_pos_right (lt_two_pow_deg g) (Nat.pow_pos (by omega))
      _ = 2 ^ (deg a + 1) := by rw [← Nat.pow_add]; congr 1; omega
  · rw [Nat.testBit_shiftLeft]
    simp [show deg a - (deg a - deg g) = deg g by omega, testBit_deg hg]

theorem polyModSteps_lt {g : Nat} (hg : g ≠ 0) (k a : Nat) (ha : a < 2 ^ k) : polyModSteps g k a < 2 ^ deg g := by
  induction k generalizing a with
  | zero =>
    have : a = 0 := by simpa using ha
    rw [polyModSteps, this]; exact Nat.pow_pos (by omega)
  | succ k ih =>
    rw [polyModSteps]
    split
    · rename_i h
      refine ih _ (Nat.lt_of_lt_of_le (reduce_lt hg h.1 h.2) (Nat.pow_le_pow_right (by omega) ?_))
      have := deg_lt h.1 ha
      omega
    · rename_i h
      by_cases h0 : a = 0
      · rw [h0]; exact Nat.pow_pos (by omega)
      · have hd : deg a < deg g := by
          by_contra hn; exact h ⟨h0, by omega⟩
        exact Nat.lt_of_lt_of_le (lt_two_pow_deg a) (Nat.pow_le_pow_right (by omega) hd)

/-- The remainder has a lower degree than the divisor (42_bch.md rule R170). -/
theorem polyMod_lt {g : Nat} (hg : g ≠ 0) (a : Nat) : polyMod g a < 2 ^ deg g :=
  polyModSteps_lt hg _ a (lt_two_pow_deg a)

/-! ### Products -/

theorem polyMul_xor (g p q k : Nat) : polyMul g (p ^^^ q) k = polyMul g p k ^^^ polyMul g q k := by
  induction k with
  | zero => simp [polyMul]
  | succ k ih =>
    simp only [polyMul, ih, Nat.testBit_xor]
    cases p.testBit k <;> cases q.testBit k <;> simp [Nat.xor_assoc, Nat.xor_comm, Nat.xor_left_comm]

theorem polyMul_two_pow (g : Nat) {j k : Nat} (h : j < k) : polyMul g (2 ^ j) k = g <<< j := by
  have low : ∀ k, k ≤ j → polyMul g (2 ^ j) k = 0 := by
    intro k hk
    induction k with
    | zero => rfl
    | succ k ih => simp [polyMul, ih (by omega), show j ≠ k by omega]
  induction k with
  | zero => omega
  | succ k ih =>
    rcases Nat.eq_or_lt_of_le (Nat.le_of_lt_succ h) with rfl | h'
    · simp [polyMul, low j (Nat.le_refl j)]
    · simp [polyMul, ih h', show j ≠ k by omega]

theorem polyMul_lt (g q k : Nat) : polyMul g q k < 2 ^ (deg g + k) := by
  induction k with
  | zero => exact Nat.pow_pos (by omega)
  | succ k ih =>
    rw [polyMul]
    refine Nat.xor_lt_two_pow (Nat.lt_of_lt_of_le ih (Nat.pow_le_pow_right (by omega) (by omega))) ?_
    split
    · rw [Nat.shiftLeft_eq]
      calc g * 2 ^ k < 2 ^ (deg g + 1) * 2 ^ k := Nat.mul_lt_mul_of_pos_right (lt_two_pow_deg g) (Nat.pow_pos (by omega))
        _ = 2 ^ (deg g + (k + 1)) := by rw [← Nat.pow_add]; congr 1; omega
    · exact Nat.pow_pos (by omega)

/-- A non-zero multiple has at least the divisor's degree. -/
theorem polyMul_ge {g : Nat} (hg : g ≠ 0) (q k : Nat) : polyMul g q k = 0 ∨ 2 ^ deg g ≤ polyMul g q k := by
  induction k with
  | zero => exact .inl rfl
  | succ k ih =>
    rw [polyMul]
    split
    · right
      have hb : (polyMul g q k ^^^ g <<< k).testBit (deg g + k) = true := by
        rw [Nat.testBit_xor, Nat.testBit_lt_two_pow (polyMul_lt g q k), Nat.testBit_shiftLeft]
        simp [testBit_deg hg]
      exact (Nat.pow_le_pow_right (by omega) (by omega)).trans (Nat.ge_two_pow_of_testBit hb)
    · simpa using ih

theorem polyModSteps_spec (g k a n : Nat) (ha : a < 2 ^ n) : ∃ q, a = polyMul g q n ^^^ polyModSteps g k a := by
  induction k generalizing a with
  | zero => exact ⟨0, by
      have : polyMul g 0 n = 0 := by have := polyMul_xor g 0 0 n; simpa using this
      simp [polyModSteps, this]⟩
  | succ k ih =>
    rw [polyModSteps]
    split
    · rename_i h
      have hd := deg_lt h.1 ha
      have hs : g <<< (deg a - deg g) < 2 ^ n := by
        rw [Nat.shiftLeft_eq]
        calc g * 2 ^ (deg a - deg g) < 2 ^ (deg g + 1) * 2 ^ (deg a - deg g) :=
              Nat.mul_lt_mul_of_pos_right (lt_two_pow_deg g) (Nat.pow_pos (by omega))
          _ = 2 ^ (deg a + 1) := by rw [← Nat.pow_add]; congr 1; omega
          _ ≤ 2 ^ n := Nat.pow_le_pow_right (by omega) (by omega)
      obtain ⟨q, hq⟩ := ih (a ^^^ (g <<< (deg a - deg g))) (Nat.xor_lt_two_pow ha hs)
      refine ⟨q ^^^ 2 ^ (deg a - deg g), ?_⟩
      rw [polyMul_xor, polyMul_two_pow g (by omega), Nat.xor_right_comm, ← hq, Nat.xor_assoc, Nat.xor_self, Nat.xor_zero]
    · exact ⟨0, by
        have : polyMul g 0 n = 0 := by have := polyMul_xor g 0 0 n; simpa using this
        simp [this]⟩

/-- Dividend and remainder differ by a multiple of the divisor (42_bch.md rule R170). -/
theorem polyMod_spec (g a n : Nat) (ha : a < 2 ^ n) : ∃ q, a = polyMul g q n ^^^ polyMod g a := polyModSteps_spec g _ a n ha

theorem polyModSteps_zero (k a : Nat) : polyModSteps 0 k a = a := by
  induction k with
  | zero => rfl
  | succ k ih => simp [polyModSteps, ih]

/-- The remainder is linear. -/
theorem polyMod_xor (g a b : Nat) : polyMod g (a ^^^ b) = polyMod g a ^^^ polyMod g b := by
  by_cases hg : g = 0
  · subst hg; simp [polyMod, polyModSteps_zero]
  · obtain ⟨n, ha, hb⟩ : ∃ n, a < 2 ^ n ∧ b < 2 ^ n :=
      ⟨deg a + 1 + (deg b + 1), Nat.lt_of_lt_of_le (lt_two_pow_deg a) (Nat.pow_le_pow_right (by omega) (by omega)),
        Nat.lt_of_lt_of_le (lt_two_pow_deg b) (Nat.pow_le_pow_right (by omega) (by omega))⟩
    obtain ⟨p, hp⟩ := polyMod_spec g a n ha
    obtain ⟨q, hq⟩ := polyMod_spec g b n hb
    obtain ⟨r, hr⟩ := polyMod_spec g (a ^^^ b) n (Nat.xor_lt_two_pow ha hb)
    have hm : polyMod g (a ^^^ b) ^^^ (polyMod g a ^^^ polyMod g b) = polyMul g (r ^^^ (p ^^^ q)) n := by
      have h1 : polyMod g (a ^^^ b) = (a ^^^ b) ^^^ polyMul g r n := by
        conv_rhs => rw [hr, Nat.xor_right_comm, Nat.xor_self, Nat.zero_xor]
      have h2 : polyMod g a = a ^^^ polyMul g p n := by
        conv_rhs => rw [hp, Nat.xor_right_comm, Nat.xor_self, Nat.zero_xor]
      have h3 : polyMod g b = b ^^^ polyMul g q n := by
        conv_rhs => rw [hq, Nat.xor_right_comm, Nat.xor_self, Nat.zero_xor]
      rw [h1, h2, h3, polyMul_xor, polyMul_xor]
      refine Nat.eq_of_testBit_eq fun i => ?_
      simp only [Nat.testBit_xor]
      cases a.testBit i <;> cases b.testBit i <;> cases (polyMul g r n).testBit i <;> cases (polyMul g p n).testBit i <;>
        cases (polyMul g q n).testBit i <;> rfl
    rcases polyMul_ge hg (r ^^^ (p ^^^ q)) n with h0 | h0
    · rw [h0] at hm; exact Nat.xor_eq_zero_iff.1 hm
    · have := Nat.xor_lt_two_pow (polyMod_lt hg (a ^^^ b)) (Nat.xor_lt_two_pow (polyMod_lt hg a) (polyMod_lt hg b))
      omega

end Sys2Proof.Machine
end

