-- ==== Sys2Proof/Laws/Flip.lean ====
section
/-! SUPPORT. Flips and Hamming distance: which words the flip search of the BCH unit tries, in what order, at what distance;
and the linearity of the remainder of a codeword. -/

namespace Sys2Proof.Machine

/-! ### Hamming distance -/

@[simp] theorem hd_nil (y : Bits) : hd [] y = 0 := rfl

@[simp] theorem hd_cons (a b : Bool) (x y : Bits) : hd (a :: x) (b :: y) = hd x y + (if a = b then 0 else 1) := by
  simp only [hd, List.zipWith_cons_cons, List.count_cons]
  cases a <;> cases b <;> rfl

theorem hd_le_length (x y : Bits) : hd x y ≤ x.length := by
  refine List.count_le_length.trans ?_
  simp

@[simp] theorem hd_self (x : Bits) : hd x x = 0 := by
  induction x with
  | nil => rfl
  | cons a x ih => simp [ih]

theorem hd_eq_zero {x y : Bits} (hl : x.length = y.length) (h : hd x y = 0) : x = y := by
  induction x generalizing y with
  | nil => exact (List.length_eq_zero_iff.1 hl.symm).symm
  | cons a x ih =>
    cases y with
    | nil => simp at hl
    | cons b y =>
      rw [hd_cons] at h
      have hab : a = b := by
        by_contra hn; rw [if_neg hn] at h; omega
      rw [hab, ih (by simpa using hl) (by omega)]

theorem hd_triangle {x y z : Bits} (h1 : x.length = y.length) (h2 : y.length = z.length) : hd x z ≤ hd x y + hd y z := by
  induction x generalizing y z with
  | nil => simp
  | cons a x ih =>
    cases y with
    | nil => simp at h1
    | cons b y =>
      cases z with
      | nil => simp at h2
      | cons c z =>
        have := ih (y := y) (z := z) (by simpa using h1) (by simpa using h2)
        simp only [hd_cons]
        cases a <;> cases b <;> cases c <;> simp <;> omega

theorem hd_symm {x y : Bits} (h : x.length = y.length) : hd x y = hd y x := by
  induction x generalizing y with
  | nil => rw [List.length_eq_zero_iff.1 h.symm]
  | cons a x ih =>
    cases y with
    | nil => simp at h
    | cons b y =>
      rw [hd_cons, hd_cons, ih (by simpa using h)]
      congr 1; exact if_congr eq_comm rfl rfl

/-! ### Flips -/

@[simp] theorem flip_cons_zero (a : Bool) (x : Bits) : flip (a :: x) 0 = (!a) :: x := rfl

@[simp] theorem flip_cons_succ (a : Bool) (x : Bits) (i : Nat) : flip (a :: x) (i + 1) = a :: flip x i := rfl

theorem flip_comm (c : Bits) (i j : Nat) : flip (flip c i) j = flip (flip c j) i := by
  induction c generalizing i j with
  | nil => simp [flip]
  | cons a c ih =>
    cases i <;> cases j <;> simp [ih]

theorem hd_flip {c : Bits} {i : Nat} (h : i < c.length) : hd c (flip c i) = 1 := by
  induction c generalizing i with
  | nil => simp at h
  | cons a c ih =>
    cases i with
    | zero => simp
    | succ i => simp [ih (by simpa using h)]

theorem hd_flip_flip {c : Bits} {i j : Nat} (h : i < j) (hj : j < c.length) : hd c (flip (flip c i) j) = 2 := by
  induction c generalizing i j with
  | nil => simp at hj
  | cons a c ih =>
    obtain ⟨j, rfl⟩ : ∃ k, j = k + 1 := ⟨j - 1, by omega⟩
    cases i with
    | zero => simp [hd_flip (c := c) (i := j) (by simpa using hj)]
    | succ i => simp [ih (i := i) (j := j) (by omega) (by simpa using hj)]

theorem exists_flip {c w : Bits} (hl : w.length = c.length) (h : hd c w = 1) : ∃ i, i < c.length ∧ w = flip c i := by
  induction c generalizing w with
  | nil => simp at h
  | cons a c ih =>
    cases w with
    | nil => simp at hl
    | cons b w =>
      rw [hd_cons] at h
      by_cases hab : a = b
      · rw [if_pos hab] at h
        obtain ⟨i, hi, hw⟩ := ih (w := w) (by simpa using hl) (by omega)
        exact ⟨i + 1, by simpa using hi, by rw [hw, hab]; rfl⟩
      · rw [if_neg hab] at h
        have : c = w := hd_eq_zero (by simpa using hl.symm) (by omega)
        refine ⟨0, by simp, ?_⟩
        rw [this]; cases a <;> cases b <;> simp at hab ⊢

theorem exists_flip_flip {c w : Bits} (hl : w.length = c.length) (h : hd c w = 2) :
    ∃ i j, i < j ∧ j < c.length ∧ w = flip (flip c i) j := by
  induction c generalizing w with
  | nil => simp at h
  | cons a c ih =>
    cases w with
    | nil => simp at hl
    | cons b w =>
      rw [hd_cons] at h
      by_cases hab : a = b
      · rw [if_pos hab] at h
        obtain ⟨i, j, hij, hj, hw⟩ := ih (w := w) (by simpa using hl) (by omega)
        exact ⟨i + 1, j + 1, by omega, by simpa using hj, by rw [hw, hab]; rfl⟩
      · rw [if_neg hab] at h
        obtain ⟨j, hj, hw⟩ := exists_flip (c := c) (w := w) (by simpa using hl) (by omega)
        refine ⟨0, j + 1, by omega, by simpa using hj, ?_⟩
        rw [hw]; cases a <;> cases b <;> simp at hab ⊢

/-! ### The flip search -/

theorem flipPos_lt {ord : FlipOrder} {n j : Nat} (h : j < n) : flipPos ord n j < n := by
  cases ord <;> simp only [flipPos] <;> omega

theorem flipPos_flipPos {ord : FlipOrder} {n j : Nat} (h : j < n) : flipPos ord n (flipPos ord n j) = j := by
  cases ord <;> simp only [flipPos]; omega

theorem flipPos_ne {ord : FlipOrder} {n i j : Nat} (hi : i < n) (hj : j < n) (h : i ≠ j) : flipPos ord n i ≠ flipPos ord n j := by
  cases ord <;> simp only [flipPos] <;> omega

theorem mem_flipSets {ord : FlipOrder} {n : Nat} {ps : List Nat} :
    ps ∈ flipSets ord n ↔ ps = [] ∨ (∃ j, j < n ∧ ps = [flipPos ord n j]) ∨
      (∃ j1 j2, j1 < j2 ∧ j2 < n ∧ ps = [flipPos ord n j1, flipPos ord n j2]) := by
  simp only [flipSets, List.mem_cons, List.mem_append, List.mem_map, List.mem_range, List.mem_flatMap, List.mem_range'_1]
  constructor
  · rintro (h | ⟨j, hj, rfl⟩ | ⟨j1, h1, j2, h2, rfl⟩)
    · exact .inl h
    · exact .inr (.inl ⟨j, hj, rfl⟩)
    · exact .inr (.inr ⟨j1, j2, by omega, by omega, rfl⟩)
  · rintro (h | ⟨j, hj, rfl⟩ | ⟨j1, j2, h1, h2, rfl⟩)
    · exact .inl h
    · exact .inr (.inl ⟨j, hj, rfl⟩)
    · exact .inr (.inr ⟨j1, by omega, j2, by omega, rfl⟩)

/-- The search tries every word within distance 2 and no other (42_bch.md rules R172, R173). -/
theorem flipSets_cover (ord : FlipOrder) {c w : Bits} (hl : w.length = c.length) (h : hd c w ≤ 2) :
    ∃ ps ∈ flipSets ord c.length, ps.foldl flip c = w ∧ ps.length = hd c w := by
  obtain h0 | h1 | h2 : hd c w = 0 ∨ hd c w = 1 ∨ hd c w = 2 := by omega
  · exact ⟨[], mem_flipSets.2 (.inl rfl), hd_eq_zero hl.symm h0, h0.symm⟩
  · obtain ⟨i, hi, rfl⟩ := exists_flip hl h1
    exact ⟨[i], mem_flipSets.2 (.inr (.inl ⟨flipPos ord c.length i, flipPos_lt hi, by rw [flipPos_flipPos hi]⟩)), rfl, h1.symm⟩
  · obtain ⟨i, j, hij, hj, rfl⟩ := exists_flip_flip hl h2
    have hi : i < c.length := by omega
    by_cases hlt : flipPos ord c.length i < flipPos ord c.length j
    · exact ⟨[i, j], mem_flipSets.2 (.inr (.inr ⟨flipPos ord c.length i, flipPos ord c.length j, hlt, flipPos_lt hj,
        by rw [flipPos_flipPos hi, flipPos_flipPos hj]⟩)), rfl, h2.symm⟩
    · have := flipPos_ne (ord := ord) hi hj (by omega)
      exact ⟨[j, i], mem_flipSets.2 (.inr (.inr ⟨flipPos ord c.length j, flipPos ord c.length i, by omega, flipPos_lt hi,
        by rw [flipPos_flipPos hi, flipPos_flipPos hj]⟩)), flip_comm c j i, h2.symm⟩

theorem hd_foldl_flip {ord : FlipOrder} {c : Bits} {ps : List Nat} (h : ps ∈ flipSets ord c.length) :
    hd c (ps.foldl flip c) = ps.length := by
  rcases mem_flipSets.1 h with rfl | ⟨j, hj, rfl⟩ | ⟨j1, j2, h1, h2, rfl⟩
  · exact hd_self c
  · exact hd_flip (flipPos_lt hj)
  · have hne := flipPos_ne (ord := ord) (n := c.length) (i := j1) (j := j2) (by omega) h2 (by omega)
    simp only [List.foldl_cons, List.foldl_nil, List.length_cons, List.length_nil]
    rcases Nat.lt_or_gt_of_ne hne with hlt | hlt
    · exact hd_flip_flip hlt (flipPos_lt h2)
    · rw [flip_comm]; exact hd_flip_flip hlt (flipPos_lt (by omega))

/-- The flip sets stand in the order of their sizes. -/
theorem flipSets_sorted (ord : FlipOrder) (n : Nat) : (flipSets ord n).Pairwise (fun a b => a.length ≤ b.length) := by
  refine List.pairwise_cons.2 ⟨fun _ _ => Nat.zero_le _, List.pairwise_append.2 ⟨?_, ?_, ?_⟩⟩
  · exact List.pairwise_of_forall_mem_list fun a ha b hb => by
      obtain ⟨i, -, rfl⟩ := List.mem_map.1 ha
      obtain ⟨j, -, rfl⟩ := List.mem_map.1 hb
      exact Nat.le_refl _
  · exact List.pairwise_of_forall_mem_list fun a ha b hb => by
      obtain ⟨i, -, ha⟩ := List.mem_flatMap.1 ha
      obtain ⟨j, -, hb⟩ := List.mem_flatMap.1 hb
      obtain ⟨i', -, rfl⟩ := List.mem_map.1 ha
      obtain ⟨j', -, rfl⟩ := List.mem_map.1 hb
      exact Nat.le_refl _
  · intro a ha b hb
    obtain ⟨i, -, rfl⟩ := List.mem_map.1 ha
    obtain ⟨j, -, hb⟩ := List.mem_flatMap.1 hb
    obtain ⟨j', -, rfl⟩ := List.mem_map.1 hb
    simp

/-- The first element of a sorted list that satisfies p comes before every other that does. -/
theorem find?_le_of_pairwise {α : Type} {r : α → α → Prop} {p : α → Bool} {l : List α} (hl : l.Pairwise r) {x : α}
    (hx : l.find? p = some x) {y : α} (hy : y ∈ l) (hp : p y = true) : y = x ∨ r x y := by
  induction l with
  | nil => simp at hy
  | cons a l ih =>
    obtain ⟨h1, h2⟩ := List.pairwise_cons.1 hl
    rw [List.find?_cons] at hx
    split at hx
    · cases hx
      rcases List.mem_cons.1 hy with rfl | hy
      · exact .inl rfl
      · exact .inr (h1 y hy)
    · rcases List.mem_cons.1 hy with rfl | hy
      · simp_all
      · exact ih h2 hx hy

/-! ### Linearity -/

/-- The bitwise XOR of two strings. -/
def bitsXor (x y : Bits) : Bits := List.zipWith xor x y

theorem bitsXor_length {x y : Bits} (h : x.length = y.length) : (bitsXor x y).length = x.length := by
  simp [bitsXor, h]

theorem count_bitsXor (x y : Bits) : (bitsXor x y).count true = hd x y := rfl

theorem val_bitsXor {x y : Bits} (h : x.length = y.length) : val (bitsXor x y) = val x ^^^ val y := by
  induction x generalizing y with
  | nil => rw [List.length_eq_zero_iff.1 h.symm]; rfl
  | cons a x ih =>
    cases y with
    | nil => simp at h
    | cons b y =>
      have hl : x.length = y.length := by simpa using h
      simp only [bitsXor, List.zipWith_cons_cons] at ih ⊢
      rw [val_cons, val_cons, val_cons, ih hl]
      have hz : (List.zipWith xor x y).length = y.length := by simp [hl]
      rw [hz, hl]
      have hx : val x < 2 ^ y.length := hl ▸ val_lt x
      have hy := val_lt y
      refine Nat.eq_of_testBit_eq fun k => ?_
      rw [Nat.testBit_xor, Nat.mul_comm, Nat.testBit_two_pow_mul_add _ (Nat.xor_lt_two_pow hx hy), Nat.mul_comm a.toNat,
        Nat.testBit_two_pow_mul_add _ hx, Nat.mul_comm b.toNat, Nat.testBit_two_pow_mul_add _ hy, Nat.testBit_xor]
      split
      · rfl
      · cases a <;> cases b <;> simp

/-- The remainder of the XOR of two strings (42_bch.md rules R170, R171). -/
theorem rem_bitsXor (g : Nat) {x y : Bits} (h : x.length = y.length) : rem g (bitsXor x y) = rem g x ^^^ rem g y := by
  rw [rem, val_bitsXor h, polyMod_xor]; rfl

end Sys2Proof.Machine
end

