-- ==== Sys2Proof/Laws/Galois.lean ====
section
/-! SUPPORT. The arithmetic of GF(2^m): the numbers below 2^m stand for the residues of polynomials over GF(2) modulo PRIM, the
operations of the model are the operations of that ring, and the powers of the generator element are all its non-zero
elements (43_rs.md rules R210, R211). -/

namespace Sys2Proof.Machine

open Polynomial

/-! ### Numbers as polynomials -/

/-- The polynomial over GF(2) a number stands for (00_scope.md rule R12). -/
noncomputable def natPoly (a : Nat) : (ZMod 2)[X] := ∑ i ∈ Finset.range a, if a.testBit i then X ^ i else 0

theorem natPoly_coeff (a k : Nat) : (natPoly a).coeff k = if a.testBit k then 1 else 0 := by
  simp only [natPoly, finsetSum_coeff]
  have h : ∀ i ∈ Finset.range a, (if a.testBit i then (X ^ i : (ZMod 2)[X]) else 0).coeff k =
      if i = k then (if a.testBit k then 1 else 0) else 0 := by
    intro i _
    by_cases hk : i = k
    · subst hk; cases a.testBit i <;> simp
    · cases a.testBit i <;> simp [coeff_X_pow, hk, Ne.symm hk]
  rw [Finset.sum_congr rfl h, Finset.sum_ite_eq']
  by_cases hb : a.testBit k
  · have : k < a := Nat.lt_of_lt_of_le Nat.lt_two_pow_self (Nat.ge_two_pow_of_testBit hb)
    simp [hb, this]
  · simp [hb]

theorem natPoly_zero : natPoly 0 = 0 := by simp [natPoly]

theorem natPoly_one : natPoly 1 = 1 := by simp [natPoly]

theorem natPoly_xor (a b : Nat) : natPoly (a ^^^ b) = natPoly a + natPoly b := by
  ext k
  rw [coeff_add, natPoly_coeff, natPoly_coeff, natPoly_coeff, Nat.testBit_xor]
  cases a.testBit k <;> cases b.testBit k <;> decide

theorem natPoly_shiftLeft (a k : Nat) : natPoly (a <<< k) = natPoly a * X ^ k := by
  ext j
  rw [natPoly_coeff, coeff_mul_X_pow', Nat.testBit_shiftLeft]
  by_cases h : k ≤ j <;> simp [h, natPoly_coeff]

theorem natPoly_inj {a b : Nat} (h : natPoly a = natPoly b) : a = b := by
  refine Nat.eq_of_testBit_eq fun i => ?_
  have := congrArg (fun p => p.coeff i) h
  simp only [natPoly_coeff] at this
  cases ha : a.testBit i <;> cases hb : b.testBit i <;> simp [ha, hb] at this ⊢

theorem natPoly_polyMul (a b k : Nat) (hb : b < 2 ^ k) : natPoly (polyMul a b k) = natPoly a * natPoly b := by
  have low : ∀ j, natPoly (polyMul a b j) = natPoly a * ∑ i ∈ Finset.range j, if b.testBit i then X ^ i else 0 := by
    intro j
    induction j with
    | zero => simp [polyMul, natPoly_zero]
    | succ j ih =>
      rw [polyMul, natPoly_xor, ih, Finset.sum_range_succ, mul_add]
      cases b.testBit j <;> simp [natPoly_shiftLeft, natPoly_zero]
  rw [low]
  congr 1
  ext j
  simp only [finsetSum_coeff, natPoly_coeff]
  have h : ∀ i ∈ Finset.range k, (if b.testBit i then (X ^ i : (ZMod 2)[X]) else 0).coeff j =
      if i = j then (if b.testBit j then 1 else 0) else 0 := by
    intro i _
    by_cases hk : i = j
    · subst hk; cases b.testBit i <;> simp
    · cases b.testBit i <;> simp [coeff_X_pow, hk, Ne.symm hk]
  rw [Finset.sum_congr rfl h, Finset.sum_ite_eq']
  by_cases hj : j ∈ Finset.range k
  · rw [if_pos hj]
  · rw [if_neg hj, Nat.testBit_lt_two_pow]
    · rfl
    · exact Nat.lt_of_lt_of_le hb (Nat.pow_le_pow_right (by omega) (by simpa using hj))

theorem natPoly_degree_lt {a m : Nat} (h : a < 2 ^ m) : (natPoly a).degree < m := by
  rw [degree_lt_iff_coeff_zero]
  intro k hk
  rw [natPoly_coeff, Nat.testBit_lt_two_pow (Nat.lt_of_lt_of_le h (Nat.pow_le_pow_right (by omega) hk))]; rfl

theorem natPoly_degree_ge {a : Nat} (h : a ≠ 0) : (deg a : WithBot Nat) ≤ (natPoly a).degree :=
  le_degree_of_ne_zero (by rw [natPoly_coeff, testBit_deg h]; decide)

/-! ### The field -/

/-- The element of the residue ring modulo PRIM a number stands for (43_rs.md rule R210). -/
noncomputable def RsCode.elt (f : RsCode) (a : Nat) : AdjoinRoot (natPoly f.prim) := AdjoinRoot.mk (natPoly f.prim) (natPoly a)

/-- What is used of a valid code: PRIM has degree m, and GEN is an element of order 2^m - 1. -/
structure RsCode.Field (f : RsCode) : Prop where
  deg : deg f.prim = f.m
  pos : 1 ≤ f.m
  genLt : f.gen < 2 ^ f.m
  genPow : f.elt f.gen ^ f.n = 1
  genOrder : ∀ i, 0 < i → i < f.n → f.elt f.gen ^ i ≠ 1

variable {f : RsCode}

theorem RsCode.elt_zero : f.elt 0 = 0 := by simp [RsCode.elt, natPoly_zero]

theorem RsCode.elt_one : f.elt 1 = 1 := by simp [RsCode.elt, natPoly_one]

theorem RsCode.elt_xor (a b : Nat) : f.elt (a ^^^ b) = f.elt a + f.elt b := by simp [RsCode.elt, natPoly_xor]

/-- Addition and subtraction are the same (43_rs.md rule R210). -/
theorem RsCode.add_self (x : AdjoinRoot (natPoly f.prim)) : x + x = 0 := by
  induction x using AdjoinRoot.induction_on with
  | ih p => rw [← map_add, CharTwo.add_self_eq_zero, map_zero]

theorem RsCode.elt_polyMod (a : Nat) : f.elt (polyMod f.prim a) = f.elt a := by
  obtain ⟨q, hq⟩ := polyMod_spec f.prim a (Nat.log2 a + 1) Nat.lt_log2_self
  have hm : ∀ k, f.elt (polyMul f.prim q k) = 0 := by
    intro k
    have : polyMul f.prim q k = polyMul f.prim (q % 2 ^ k) k := by
      have key : ∀ j, j ≤ k → polyMul f.prim q j = polyMul f.prim (q % 2 ^ k) j := by
        intro j hj
        induction j with
        | zero => rfl
        | succ j ih => rw [polyMul, polyMul, ih (by omega), Nat.testBit_mod_two_pow]; simp [show j < k by omega]
      exact key k (Nat.le_refl k)
    rw [this, RsCode.elt, natPoly_polyMul _ _ _ (Nat.mod_lt _ (Nat.pow_pos (by omega))), map_mul, AdjoinRoot.mk_self, zero_mul]
  have := congrArg f.elt hq
  rw [RsCode.elt_xor, hm, zero_add] at this
  exact this.symm

/-- Multiplication in the field is that of the residue ring (43_rs.md rule R210). -/
theorem RsCode.elt_mul (a : Nat) {b : Nat} (hb : b < 2 ^ f.m) : f.elt (gfMul f a b) = f.elt a * f.elt b := by
  rw [gfMul, RsCode.elt_polyMod, RsCode.elt, natPoly_polyMul _ _ _ hb, map_mul]; rfl

/-- Numbers below 2^m that stand for the same element are equal. -/
theorem elt_inj_of (hd : deg f.prim = f.m) (hp : f.prim ≠ 0) {a b : Nat} (ha : a < 2 ^ f.m) (hb : b < 2 ^ f.m)
    (h : f.elt a = f.elt b) : a = b := by
  have h0 : f.elt (a ^^^ b) = 0 := by rw [RsCode.elt_xor, h, RsCode.add_self]
  rw [RsCode.elt, AdjoinRoot.mk_eq_zero] at h0
  have hz : natPoly (a ^^^ b) = 0 := by
    by_contra hne
    have h1 := degree_le_of_dvd h0 hne
    have h2 := natPoly_degree_ge hp
    rw [hd] at h2
    exact absurd (h2.trans h1) (not_le.2 (natPoly_degree_lt (Nat.xor_lt_two_pow ha hb)))
  exact Nat.xor_eq_zero_iff.1 (natPoly_inj (hz.trans natPoly_zero.symm))

namespace RsCode.Field

theorem prim_ne_zero (F : f.Field) : f.prim ≠ 0 := by
  intro h
  have := F.deg; have := F.pos
  rw [h] at *; simp [Machine.deg] at *; omega

theorem mul_lt (F : f.Field) (a b : Nat) : gfMul f a b < 2 ^ f.m := by
  have := polyMod_lt F.prim_ne_zero (polyMul a b f.m)
  rwa [F.deg] at this

theorem one_lt (F : f.Field) : 1 < 2 ^ f.m := Nat.one_lt_two_pow (by have := F.pos; omega)

theorem elt_inj (F : f.Field) {a b : Nat} (ha : a < 2 ^ f.m) (hb : b < 2 ^ f.m) (h : f.elt a = f.elt b) : a = b :=
  elt_inj_of F.deg F.prim_ne_zero ha hb h

theorem elt_eq_zero (F : f.Field) {a : Nat} (ha : a < 2 ^ f.m) : f.elt a = 0 ↔ a = 0 :=
  ⟨fun h => F.elt_inj ha (Nat.pow_pos (by omega)) (h.trans RsCode.elt_zero.symm), fun h => by rw [h, RsCode.elt_zero]⟩

theorem n_pos (F : f.Field) : 0 < f.n := by have := F.one_lt; simp only [RsCode.n]; omega

/-- The generator element as a unit (43_rs.md rule R211). -/
noncomputable def alpha (F : f.Field) : (AdjoinRoot (natPoly f.prim))ˣ :=
  Units.ofPowEqOne (f.elt f.gen) f.n F.genPow F.n_pos.ne'

theorem alpha_val (F : f.Field) : (F.alpha : AdjoinRoot (natPoly f.prim)) = f.elt f.gen := rfl

theorem alpha_pow_n (F : f.Field) : F.alpha ^ f.n = 1 :=
  Units.ext (by rw [Units.val_pow_eq_pow_val, alpha_val, F.genPow, Units.val_one])

/-- Two powers of the generator element are equal exactly when their exponents are (below 2^m - 1). -/
theorem alpha_pow_inj (F : f.Field) {i j : Nat} (hi : i < f.n) (hj : j < f.n) (h : F.alpha ^ i = F.alpha ^ j) : i = j := by
  have key : ∀ a b, a < b → b < f.n → F.alpha ^ a = F.alpha ^ b → False := by
    intro a b hab hb he
    have h1 : F.alpha ^ (b - a) = 1 := by
      have : F.alpha ^ b = F.alpha ^ a * F.alpha ^ (b - a) := by rw [← pow_add]; congr 1; omega
      exact mul_left_cancel (a := F.alpha ^ a) (by rw [mul_one, ← this, ← he])
    refine F.genOrder (b - a) (by omega) (by omega) ?_
    rw [← F.alpha_val, ← Units.val_pow_eq_pow_val, h1, Units.val_one]
  rcases Nat.lt_trichotomy i j with hl | hl | hl
  · exact (key i j hl hj h).elim
  · exact hl
  · exact (key j i hl hi h.symm).elim

/-- Exponents count modulo 2^m - 1 (43_rs.md rule R211). -/
theorem alpha_zpow_mod (F : f.Field) (e : Int) : F.alpha ^ (e % (f.n : Int)).toNat = F.alpha ^ e := by
  have hn : (f.n : Int) ≠ 0 := by have := F.n_pos; omega
  rw [← zpow_natCast, Int.toNat_of_nonneg (Int.emod_nonneg e hn)]
  conv_rhs => rw [← Int.mul_ediv_add_emod e f.n, zpow_add, zpow_mul, zpow_natCast, F.alpha_pow_n, one_zpow, one_mul]

/-! ### The operations of the model -/

theorem powSteps_lt (F : f.Field) (k a e : Nat) : gfPowSteps f k a e < 2 ^ f.m := by
  induction k generalizing a e with
  | zero => exact F.one_lt
  | succ k ih => simp only [gfPowSteps]; split <;> [exact F.mul_lt _ _; exact ih _ _]

theorem elt_powSteps (F : f.Field) (k : Nat) {a e : Nat} (ha : a < 2 ^ f.m) (he : e < 2 ^ k) :
    f.elt (gfPowSteps f k a e) = f.elt a ^ e := by
  induction k generalizing a e with
  | zero => have : e = 0 := by omega
            subst this; simp [gfPowSteps, RsCode.elt_one]
  | succ k ih =>
    have h2 : f.elt (gfPowSteps f k (gfMul f a a) (e / 2)) = f.elt a ^ (2 * (e / 2)) := by
      rw [ih (F.mul_lt _ _) (by omega), RsCode.elt_mul _ ha, pow_mul, pow_two]
    simp only [gfPowSteps]
    split
    · rw [RsCode.elt_mul _ (F.powSteps_lt _ _ _), h2, ← pow_succ']; congr 1; omega
    · rw [h2]; congr 1; omega

theorem alphaPow_lt (F : f.Field) (e : Int) : alphaPow f e < 2 ^ f.m := F.powSteps_lt _ _ _

/-- `alpha^e` for any integer e (43_rs.md rule R211). -/
theorem elt_alphaPow (F : f.Field) (e : Int) : f.elt (alphaPow f e) = (F.alpha ^ e : (AdjoinRoot (natPoly f.prim))ˣ) := by
  have hn := F.n_pos
  have h0 := Int.emod_nonneg e (b := (f.n : Int)) (by omega)
  have h1 := Int.emod_lt_of_pos e (b := (f.n : Int)) (by omega)
  rw [alphaPow, gfPow, F.elt_powSteps _ F.genLt (by simp only [RsCode.n] at *; omega), ← F.alpha_zpow_mod,
    Units.val_pow_eq_pow_val, F.alpha_val]

/-- Every non-zero element is a power of the generator element (43_rs.md rule R211). -/
theorem exists_alpha_pow (F : f.Field) {v : Nat} (hv : v < 2 ^ f.m) (h0 : v ≠ 0) :
    ∃ k, k < f.n ∧ f.elt v = (F.alpha ^ k : (AdjoinRoot (natPoly f.prim))ˣ) := by
  have hz : ∀ k : Nat, f.elt (alphaPow f k) = (F.alpha ^ k : (AdjoinRoot (natPoly f.prim))ˣ) := fun k => by
    rw [F.elt_alphaPow, zpow_natCast]
  have hnt : (0 : AdjoinRoot (natPoly f.prim)) ≠ 1 := by
    intro h
    have := F.elt_inj (Nat.pow_pos (by omega)) F.one_lt (by rw [RsCode.elt_zero, RsCode.elt_one, h])
    omega
  have hsub : (Finset.range f.n).image (fun k : Nat => alphaPow f k) ⊆ Finset.Icc 1 f.n := by
    intro w hw
    obtain ⟨k, -, rfl⟩ := Finset.mem_image.1 hw
    have hlt := F.alphaPow_lt k
    have hne : alphaPow f k ≠ 0 := by
      intro h
      have h2 := hz k
      rw [h, RsCode.elt_zero] at h2
      apply hnt
      have h3 : ((F.alpha ^ k : (AdjoinRoot (natPoly f.prim))ˣ) : AdjoinRoot (natPoly f.prim)) * ↑(F.alpha ^ k)⁻¹ = 1 :=
        Units.mul_inv _
      rw [← h2, zero_mul] at h3
      exact h3
    simp only [RsCode.n, Finset.mem_Icc]; omega
  have hcard : ((Finset.range f.n).image (fun k : Nat => alphaPow f k)).card = f.n := by
    rw [Finset.card_image_of_injOn, Finset.card_range]
    intro i hi j hj h
    exact F.alpha_pow_inj (by simpa using hi) (by simpa using hj) (Units.ext (by rw [← hz, ← hz]; exact congrArg _ h))
  have heq := Finset.eq_of_subset_of_card_le hsub (by rw [hcard]; simp)
  have hmem : v ∈ Finset.Icc 1 f.n := by simp only [RsCode.n, Finset.mem_Icc]; omega
  rw [← heq] at hmem
  obtain ⟨k, hk, rfl⟩ := Finset.mem_image.1 hmem
  exact ⟨k, by simpa using hk, hz k⟩

/-- A quotient times its divisor is the dividend (43_rs.md rule R210). -/
theorem elt_div (F : f.Field) (a : Nat) {b : Nat} (hb : b < 2 ^ f.m) (h0 : b ≠ 0) :
    f.elt (gfDiv f a b) * f.elt b = f.elt a := by
  obtain ⟨k, -, hk⟩ := F.exists_alpha_pow hb h0
  rw [gfDiv, gfInv, gfPow, RsCode.elt_mul _ (F.powSteps_lt _ _ _), F.elt_powSteps _ hb (by have := F.one_lt; omega), mul_assoc,
    ← pow_succ, show 2 ^ f.m - 2 + 1 = f.n by have := F.one_lt; simp only [RsCode.n]; omega, hk, ← Units.val_pow_eq_pow_val,
    ← pow_mul, mul_comm k, pow_mul, F.alpha_pow_n, one_pow, Units.val_one, mul_one]

theorem div_lt (F : f.Field) (a b : Nat) : gfDiv f a b < 2 ^ f.m := F.mul_lt _ _

theorem eval_lt (F : f.Field) {cs : List Nat} (h : ∀ v ∈ cs, v < 2 ^ f.m) (x : Nat) : gfEval f cs x < 2 ^ f.m := by
  cases cs with
  | nil => exact Nat.pow_pos (by omega)
  | cons c cs => exact Nat.xor_lt_two_pow (h c List.mem_cons_self) (F.mul_lt _ _)

/-- Horner's rule, one coefficient. -/
theorem elt_eval_cons (F : f.Field) {cs : List Nat} (h : ∀ v ∈ cs, v < 2 ^ f.m) (c x : Nat) :
    f.elt (gfEval f (c :: cs) x) = f.elt c + f.elt x * f.elt (gfEval f cs x) := by
  have : gfEval f (c :: cs) x = c ^^^ gfMul f x (gfEval f cs x) := rfl
  rw [this, RsCode.elt_xor, RsCode.elt_mul x (F.eval_lt h x)]

/-- Changing the coefficient of x^i by e changes the value by e * x^i. -/
theorem elt_eval_modify (F : f.Field) {cs : List Nat} (h : ∀ v ∈ cs, v < 2 ^ f.m) {e : Nat} (he : e < 2 ^ f.m) (x : Nat) {i : Nat}
    (hi : i < cs.length) :
    f.elt (gfEval f (cs.modify i fun v => v ^^^ e) x) = f.elt (gfEval f cs x) + f.elt e * f.elt x ^ i := by
  induction cs generalizing i with
  | nil => simp at hi
  | cons c cs ih =>
    have hcs : ∀ v ∈ cs, v < 2 ^ f.m := fun v hv => h v (List.mem_cons_of_mem _ hv)
    cases i with
    | zero => rw [List.modify_zero_cons, F.elt_eval_cons hcs, F.elt_eval_cons hcs, RsCode.elt_xor]; ring
    | succ i =>
      have hm : ∀ v ∈ cs.modify i (fun v => v ^^^ e), v < 2 ^ f.m := by
        intro v hv
        obtain ⟨j, hj, rfl⟩ := List.mem_iff_getElem.1 hv
        rw [List.getElem_modify]
        have := hcs _ (List.getElem_mem (show j < cs.length by simpa using hj))
        split <;> [exact Nat.xor_lt_two_pow this he; exact this]
      rw [List.modify_succ_cons, F.elt_eval_cons hm, F.elt_eval_cons hcs, ih hcs (by simpa using hi)]; ring

theorem rsPad_lt {r : List Nat} (h : ∀ v ∈ r, v < 2 ^ f.m) : ∀ v ∈ rsPad f r, v < 2 ^ f.m := by
  intro v hv
  rcases List.mem_append.1 hv with hv | hv
  · exact h v hv
  · rw [List.eq_of_mem_replicate hv]; exact Nat.pow_pos (by omega)

theorem syndrome_lt (F : f.Field) {c : List Nat} (h : ∀ v ∈ c, v < 2 ^ f.m) (j : Nat) : syndrome f c j < 2 ^ f.m :=
  F.eval_lt (by simpa using h) _

/-- Changing position i of a word of N symbols by e changes the syndrome S_j by e * X_i^(FCR + j) (43_rs.md rules R213,
R214). -/
theorem elt_syndrome_modify (F : f.Field) {c : List Nat} (hc : ∀ v ∈ c, v < 2 ^ f.m) (hl : c.length = f.n) {i e : Nat}
    (hi : i < f.n) (he : e < 2 ^ f.m) (j : Nat) :
    f.elt (syndrome f (c.modify i fun v => v ^^^ e) j) =
      f.elt (syndrome f c j) +
        f.elt e * ((F.alpha ^ locatorExp f i) ^ (f.fcr + j) : (AdjoinRoot (natPoly f.prim))ˣ) := by
  have hr : (c.modify i fun v => v ^^^ e).reverse = c.reverse.modify (f.n - 1 - i) fun v => v ^^^ e := by
    apply List.ext_getElem
    · simp
    · intro k h1 h2
      simp only [List.length_reverse, List.length_modify] at h1 h2
      rw [List.getElem_reverse, List.getElem_modify, List.getElem_modify, List.getElem_reverse]
      simp only [List.length_modify, hl]
      have : (i = f.n - 1 - k) = (f.n - 1 - i = k) := propext (by omega)
      simp only [this]
  rw [syndrome, hr, F.elt_eval_modify (by simpa using hc) he _ (by simp [hl]; omega), F.elt_alphaPow, ← Units.val_pow_eq_pow_val,
    ← zpow_natCast, ← zpow_natCast, ← zpow_mul, ← zpow_mul]
  congr 4
  simp only [locatorExp]
  rw [show ((f.n - 1 - i : Nat) : Int) = (f.n : Int) - 1 - i by omega, mul_comm]

end RsCode.Field

/-! ### The codes of the parameters -/

theorem elt_gfPowers (f : RsCode) {a x k i : Nat} (hm : ∀ u v, gfMul f u v < 2 ^ f.m) (hx : x < 2 ^ f.m) (h : i < k) :
    ∃ v, (gfPowers f a x k)[i]? = some v ∧ v < 2 ^ f.m ∧ f.elt v = f.elt a ^ i * f.elt x := by
  induction k generalizing x i with
  | zero => omega
  | succ k ih =>
    cases i with
    | zero => exact ⟨x, rfl, hx, by simp⟩
    | succ i =>
      obtain ⟨v, h1, h2, h3⟩ := ih (x := gfMul f a x) (i := i) (hm _ _) (by omega)
      exact ⟨v, h1, h2, by rw [h3, RsCode.elt_mul _ hx, pow_succ, mul_assoc]⟩

theorem length_gfPowers (f : RsCode) (a x k : Nat) : (gfPowers f a x k).length = k := by
  induction k generalizing x with
  | zero => rfl
  | succ k ih => simp [gfPowers, ih]

/-- A code that meets the constraints of 00_scope.md rule R7 has what `RsCode.Field` asks. -/
theorem field_of_rsCodeOk (h : rsCodeOk f = true) : f.Field := by
  simp only [rsCodeOk, primitiveElement, Bool.and_eq_true, decide_eq_true_eq, List.all_eq_true, ne_eq, decide_not,
    Bool.not_eq_true', decide_eq_false_iff_not] at h
  obtain ⟨⟨hd, ⟨⟨h2, -⟩, -⟩⟩, ⟨hg, ho⟩, hp⟩ := h
  have hpos : 1 ≤ f.m := by by_contra hc; rw [show f.m = 0 by omega] at h2; omega
  have hpr : f.prim ≠ 0 := by
    intro hc; rw [hc] at hd; simp [deg] at hd; omega
  have hm : ∀ u v, gfMul f u v < 2 ^ f.m := fun u v => by rw [← hd]; exact polyMod_lt hpr _
  have hn : 0 < f.n := by have := Nat.one_lt_two_pow (n := f.m) (by omega); simp only [RsCode.n]; omega
  refine ⟨hd, hpos, hg, ?_, fun i hi hin hone => ?_⟩
  · obtain ⟨v, h1, -, h3⟩ := elt_gfPowers f (a := f.gen) (k := f.n) (i := f.n - 1) hm hg (by omega)
    rw [List.getLast?_eq_getElem?, length_gfPowers, h1] at hp
    rw [← pow_succ, Nat.sub_add_cancel hn, Option.some.inj hp, RsCode.elt_one] at h3
    exact h3.symm
  · obtain ⟨v, h1, hv, h3⟩ := elt_gfPowers f (a := f.gen) (k := f.n - 1) (i := i - 1) hm hg (by omega)
    have hF : f.elt v = f.elt 1 := by
      rw [h3, ← pow_succ, show i - 1 + 1 = i by omega, hone, RsCode.elt_one]
    apply ho v (List.mem_of_getElem? h1)
    exact elt_inj_of hd hpr hv (Nat.one_lt_two_pow (by omega)) hF

end Sys2Proof.Machine
end

