-- ==== Sys2Proof/Laws/PerInstr.lean ====
section
/-! SUPPORT. Statements for all commands, made per command: the fields of a command's word (30_encoding.md rules R100, R105). -/

namespace Sys2Proof.Laws.Encoding

/-- The word of a well-formed command has the command's opcode in OP, its slot in SEL, zeros in the reserved bits, and OP
and SEL name the command. -/
def Statement (i : Instr) : Prop :=
  i.wellFormed = true →
    opField (encode i) = i.opcode ∧ selField (encode i) = i.sel ∧ reservedField (encode i) = 0 ∧
    commandOf (opField (encode i)) (selField (encode i)) = some i

theorem opField_encode (i : Instr) : opField (encode i) = i.opcode := by
  apply BitVec.eq_of_getLsbD_eq
  intro k hk
  simp only [opField, encode, BitVec.getLsbD_extractLsb', BitVec.getLsbD_append]
  simp [hk, show k < 12 by omega]

theorem selField_encode (i : Instr) : selField (encode i) = i.sel := by
  apply BitVec.eq_of_getLsbD_eq
  intro k hk
  simp only [selField, encode, BitVec.getLsbD_extractLsb', BitVec.getLsbD_append]
  simp [hk, show 8 + k < 12 by omega]

theorem reservedField_encode (i : Instr) : reservedField (encode i) = 0 := by
  apply BitVec.eq_of_getLsbD_eq
  intro k hk
  simp only [reservedField, encode, BitVec.getLsbD_extractLsb', BitVec.getLsbD_append]
  have h1 : ¬ 12 + k < 4 + 8 := by omega
  simp [h1]

theorem of_commandOf {i : Instr} (h : commandOf i.opcode i.sel = some i) : Statement i := fun _ =>
  ⟨opField_encode i, selField_encode i, reservedField_encode i, by rw [opField_encode, selField_encode]; exact h⟩

theorem nop : Statement .nop := of_commandOf rfl
theorem extract : Statement .extract := of_commandOf rfl
theorem slice : Statement .slice := of_commandOf rfl
theorem deint2 : Statement .deint2 := of_commandOf rfl
theorem deint3 : Statement .deint3 := of_commandOf rfl
theorem deintlcw : Statement .deintlcw := of_commandOf rfl
theorem int2 : Statement .int2 := of_commandOf rfl
theorem int3 : Statement .int3 := of_commandOf rfl
theorem intlcw : Statement .intlcw := of_commandOf rfl
theorem hamming : Statement .hamming := of_commandOf rfl
theorem cksum8 : Statement .cksum8 := of_commandOf rfl
theorem cksum16 : Statement .cksum16 := of_commandOf rfl
theorem bchDiv (sel : BitVec 4) : Statement (.bchDiv sel) := of_commandOf rfl
theorem bchDecode (sel : BitVec 4) : Statement (.bchDecode sel) := of_commandOf rfl
theorem bchDecode2p (sel : BitVec 4) : Statement (.bchDecode2p sel) := of_commandOf rfl
theorem bchBlock32 (sel : BitVec 4) : Statement (.bchBlock32 sel) := of_commandOf rfl
theorem bchBlockseq (sel : BitVec 4) : Statement (.bchBlockseq sel) := of_commandOf rfl
theorem rsFix8 : Statement .rsFix8 := of_commandOf rfl
theorem rsFix6 : Statement .rsFix6 := of_commandOf rfl
theorem access : Statement .access := of_commandOf rfl
theorem strip : Statement .strip := of_commandOf rfl
theorem classify : Statement .classify := of_commandOf rfl

end Sys2Proof.Laws.Encoding
end

