-- ==== Sys2Proof/Laws/Step.lean ====
section
/-! SUPPORT. Everything one step can do: the engine's completion, one host action, or nothing. -/

namespace Sys2Proof.Machine

/-- The engine's move, inverted (10_state.md rule R50). -/
theorem engineMove_next {s t : State} (h : engineMove s = .next t) :
    (∃ i, decode s.lCmd = .instr i ∧ exec i s = .next t) ∨ (∃ e, decode s.lCmd = .reject e ∧ t = s.fail e) := by
  unfold engineMove at h
  split at h
  · exact .inl ⟨_, ‹_›, h⟩
  · exact .inr ⟨_, ‹_›, (Host.Outcome.next.inj h).symm⟩

/-- A completion either succeeds with an effect of the command latched, or fails with a command error. -/
theorem engineMove_outcome {s t : State} (h : engineMove s = .next t) :
    (∃ i e, resultOf i s = .success e ∧ t = s.finish e) ∨ (∃ c, t = s.fail c) := by
  rcases engineMove_next h with ⟨i, -, hi⟩ | ⟨e, -, rfl⟩
  · rcases exec_next hi with ⟨e, he, rfl⟩ | ⟨c, -, rfl⟩
    · exact .inl ⟨i, e, he, rfl⟩
    · exact .inr ⟨c, rfl⟩
  · exact .inr ⟨e, rfl⟩

/-- A completion leaves the engine IDLE with DONE set (10_state.md rule R50). -/
theorem engineMove_done {s t : State} (h : engineMove s = .next t) : t.eng = .idle ∧ t.status.done = true := by
  rcases engineMove_outcome h with ⟨i, e, -, rfl⟩ | ⟨c, rfl⟩ <;> exact ⟨rfl, rfl⟩

theorem engineMove_ne_refused (s : State) (r : Refusal) : engineMove s ≠ .refused r := by
  unfold engineMove
  split
  · exact exec_ne_refused _ _ _
  · simp [complete_error]

/-- One host action, inverted. -/
theorem perform_next {p : Params} {s t : State} {a : HostAction} (h : perform p s a = .next t) :
    (∃ off size v, a = .write off size v ∧ t = hostWrite s off size v) ∨
    (∃ off size v u, a = .read off size ∧ hostRead p s off size = .ok (v, u) ∧ t = u.record v) ∨
    (a = .wait ∧ (t = { s.record s.statusWord with host := .wait :: s.host } ∨ t = s.record s.statusWord)) ∨
    (a = .hardReset ∧ t = s.hardReset) := by
  cases a with
  | write off size v => exact .inl ⟨off, size, v, rfl, (Host.Outcome.next.inj h).symm⟩
  | read off size =>
    simp only [perform] at h
    split at h
    · exact .inr (.inl ⟨off, size, _, _, rfl, ‹_›, (Host.Outcome.next.inj h).symm⟩)
    · cases h
  | wait =>
    simp only [perform] at h
    split at h
    · exact .inr (.inr (.inl ⟨rfl, .inl (Host.Outcome.next.inj h).symm⟩))
    · exact .inr (.inr (.inl ⟨rfl, .inr (Host.Outcome.next.inj h).symm⟩))
  | hardReset => exact .inr (.inr (.inr ⟨rfl, (Host.Outcome.next.inj h).symm⟩))

/-- Whose move a step is. -/
theorem step_cases (s : State) :
    (s.eng = .idle ∧ s.host = [] ∧ step s = .next s) ∨
    (s.eng = .busy ∧ (s.host = [] ∨ s.sched.head? ≠ some .host) ∧ step s = engineMove s.takeTurn) ∨
    (∃ a rest, s.host = a :: rest ∧ (s.eng = .idle ∨ s.sched.head? = some .host) ∧
      step s = perform params { s.takeTurn with host := rest } a) := by
  unfold step move State.mover
  cases he : s.eng <;> cases hh : s.host with
  | nil => simp
  | cons a rest =>
    first
    | (refine .inr (.inr ⟨a, rest, rfl, .inl rfl, ?_⟩)
       simp only [hostMove, State.takeTurn_host, hh])
    | (cases hc : s.sched with
       | nil => exact .inr (.inl ⟨rfl, .inr (by simp), rfl⟩)
       | cons x xs =>
         cases x with
         | engine => exact .inr (.inl ⟨rfl, .inr (by simp), rfl⟩)
         | host =>
           refine .inr (.inr ⟨a, rest, rfl, .inr rfl, ?_⟩)
           simp only [List.headD_cons, hostMove, State.takeTurn_host, hh])

end Sys2Proof.Machine
end

