-- ==== Sys2Proof/Laws/Units.lean ====
section
/-! SUPPORT. The units' commands and functions, piece by piece: result registers, permutations, byte views, the slot check of
the BCH commands, corrected symbols, nearest patterns, forced types, candidate order and the data of the BCH checks. -/

namespace Sys2Proof.Machine

/-! ### Result registers -/

theorem finish_res_get {s : State} (e : Effect) (i : Fin 8) : (s.finish e).res[i] = e.res.getD i s.res[i] :=
  (finish_succeeds s e).res i

/-- A successful completion seen through its own result registers. -/
theorem succeeds_of {s : State} (e : Effect) (ws : List Word) (h : e.res.length = ws.length)
    (hh : ∀ i : Fin 8, (hi : i.val < ws.length) → (s.finish e).res[i] = ws[i.val]) : Succeeds s (s.finish e) ws := by
  have h0 := finish_succeeds s e
  refine ⟨h0.eng, h0.done, h0.errCode, h0.err, fun i => ?_, h0.rest⟩
  by_cases hi : i.val < ws.length
  · rw [hh i hi, List.getD_eq_getElem _ _ hi]
  · rw [h0.res i, List.getD_eq_default _ _ (by omega), List.getD_eq_default _ _ (by omega)]

theorem finish_read_bits {s : State} {e : Effect} {i : Nat} (h : i < e.bits.2.length) :
    Memory.read (s.finish e).bitmem (e.bits.1 + i) = e.bits.2[i]? := by
  rw [State.finish_bitmem, Memory.read_writeSeq, if_pos (by omega)]; simp

/-- Region reads agree where the cells agree. -/
theorem Memory.readSeq_congr {α : Type} {m m' : Memory α} {a n : Nat}
    (h : ∀ k, k < n → Memory.read m (a + k) = Memory.read m' (a + k)) : Memory.readSeq m a n = Memory.readSeq m' a n := by
  induction n generalizing a with
  | zero => rfl
  | succ n ih =>
    rw [Memory.readSeq, Memory.readSeq, show Memory.read m a = Memory.read m' a from h 0 (by omega),
      ih (a := a + 1) fun k hk => by rw [Nat.add_assoc, Nat.add_comm 1]; exact h (k + 1) (by omega)]

/-- A region with an unwritten cell cannot be read. -/
theorem Memory.readSeq_error_of {α : Type} {m : Memory α} {a n k : Nat} (hk : k < n) (h : Memory.read m (a + k) = none) :
    ∃ e, Memory.readSeq m a n = .error e := by
  cases hr : Memory.readSeq m a n with
  | error e => exact ⟨e, rfl⟩
  | ok xs =>
    obtain ⟨hl, hh⟩ := (Memory.readSeq_ok_iff _ _ _ _).1 hr
    rw [hh k (by omega)] at h; cases h

/-! ### Permutations and bytes -/

/-- Bit i of a de-interleaved string is bit P(i) (41_bitutil.md rule R133). -/
theorem deinterleave_get {perm : List Nat} {x : Bits} (hb : isBijection perm = true) (hl : x.length = perm.length) {i : Nat}
    (hi : i < perm.length) : ∃ j b, perm[i]? = some j ∧ x[j]? = some b ∧ (deinterleave perm x)[i]? = some b := by
  have hj : perm[i] < perm.length := isBijection_lt hb (List.getElem_mem hi)
  refine ⟨perm[i], x[perm[i]]'(by omega), List.getElem?_eq_getElem hi, List.getElem?_eq_getElem _, ?_⟩
  simp only [deinterleave, List.getElem?_map, List.getElem?_eq_getElem hi, Option.map_some,
    List.getD_eq_getElem _ _ (show perm[i] < x.length by omega)]

/-- Bit P(i) of an interleaved string is bit i (41_bitutil.md rule R133). -/
theorem interleave_get {perm : List Nat} {y : Bits} (hb : isBijection perm = true) (hl : y.length = perm.length) {i : Nat}
    (hi : i < perm.length) :
    ∃ j b, perm[i]? = some j ∧ y[i]? = some b ∧ (interleave perm y)[j]? = some b ∧ j < perm.length := by
  have hj : perm[i] < perm.length := isBijection_lt hb (List.getElem_mem hi)
  refine ⟨perm[i], y[i], List.getElem?_eq_getElem hi, List.getElem?_eq_getElem _, ?_, hj⟩
  simp only [interleave, List.getElem?_map, List.getElem?_range hj, Option.map_some]
  rw [(isBijection_nodup hb).idxOf_getElem i hi, List.getD_eq_getElem _ _ (by omega)]

/-- The byte view of a region that holds bytes, the first bit of each most significant (41_bitutil.md rule R142). -/
theorem bytes_flatMap (bs : List (BitVec 8)) :
    bytes bs.length (bs.flatMap fun b => (List.range 8).map fun i => b.getLsbD (7 - i)) = bs := by
  induction bs with
  | nil => rfl
  | cons b bs ih =>
    simp only [List.flatMap_cons, bytes, List.length_cons, groups, List.map_cons] at ih ⊢
    rw [List.take_left' (by simp), List.drop_left' (by simp)]
    congr 1
    have : (List.range 8).map (fun i => b.getLsbD (7 - i)) = bstr 8 b.toNat := rfl
    rw [this, val_bstr _ _ b.isLt]; simp

/-! ### The slot check -/

theorem withPoly_absent {p : Params} {sel : BitVec 4} {slot : Fin 8} (hs : slotOf sel = some slot)
    (h : generator p slot < 2) (k : Nat → CmdResult) : withPoly p sel k = .error .noPoly := by
  have : generatorPresent p slot = false := by
    rw [← Bool.not_eq_true, generatorPresent_iff]; omega
  simp [withPoly, hs, this]

theorem withPoly_present {p : Params} {sel : BitVec 4} {slot : Fin 8} (hs : slotOf sel = some slot)
    (h : 2 ≤ generator p slot) (k : Nat → CmdResult) : withPoly p sel k = k (generator p slot) := by
  simp [withPoly, hs, (generatorPresent_iff p slot).2 h]

/-- A remainder fits its register (42_bch.md rule R176). -/
theorem rem_word {p : Params} {slot : Fin 8} (h : 2 ≤ generator p slot) (c : Bits) :
    (wordOf (rem (generator p slot) c)).toNat = rem (generator p slot) c := by
  have h1 := polyMod_lt (g := generator p slot) (by omega) (val c)
  have h2 : (2 : Nat) ^ deg (generator p slot) ≤ 2 ^ 32 := Nat.pow_le_pow_right (by omega) (Nat.le_of_lt (deg_generator_lt p slot))
  exact wordOf_toNat_of_lt (by unfold rem; omega)

theorem dataWord_toNat (c : Bits) (k : Nat) : (dataWord c k).toNat = val (c.take (min k 32)) :=
  val_toNat_of_length (by simp)

/-! ### Parity -/

theorem par_foldl (x : Bits) (b : Bool) : x.foldl xor b = xor b (par x) := by
  induction x generalizing b with
  | nil => simp [par]
  | cons a x ih =>
    simp only [par, List.foldl_cons]
    rw [ih, ih (xor false a)]; cases a <;> cases b <;> simp

/-- The parity of a string is that of the number of its ones (00_scope.md rule R9). -/
theorem par_count (x : Bits) : par x = decide (x.count true % 2 = 1) := by
  induction x with
  | nil => rfl
  | cons a x ih =>
    have : par (a :: x) = xor a (par x) := by
      simp only [par, List.foldl_cons]; rw [par_foldl]; simp; rfl
    rw [this, ih, List.count_cons]
    cases a <;> simp
    rcases Nat.mod_two_eq_zero_or_one (x.count true) with h | h <;> simp [h, Nat.add_mod]

/-! ### Reed–Solomon -/

theorem syndromes_all_zero (f : RsCode) (r : List Nat) :
    (syndromes f r).all (fun x => decide (x = 0)) = true ↔ ∀ j, j < f.nsym → syndrome f r j = 0 := by
  simp [syndromes, List.all_eq_true]

/-- A correction changes the listed positions only (43_rs.md rule R217). -/
theorem correctAt_get {f : RsCode} {lam omega is r r' : List Nat} (h : correctAt f lam omega r is = some r') (i : Nat)
    (hi : i ∉ is) : r'[i]? = r[i]? := by
  induction is generalizing r with
  | nil => cases h; rfl
  | cons j is ih =>
    rw [correctAt] at h
    split at h
    · cases h
    · rw [ih h fun hh => hi (List.mem_cons_of_mem _ hh), List.getElem?_modify]
      have : j ≠ i := fun hh => hi (hh ▸ List.mem_cons_self)
      simp [this]

theorem gfMul_lt {f : RsCode} (hd : deg f.prim = f.m) (hm : 1 ≤ f.m) (a b : Nat) : gfMul f a b < 2 ^ f.m := by
  have hp : f.prim ≠ 0 := fun h => by
    rw [h] at hd
    have : deg 0 = 0 := by decide
    omega
  rw [← hd]; exact polyMod_lt hp _

theorem correctAt_lt {f : RsCode} (hd : deg f.prim = f.m) (hm : 1 ≤ f.m) {lam omega is r r' : List Nat}
    (hr : ∀ v ∈ r, v < 2 ^ f.m) (h : correctAt f lam omega r is = some r') : ∀ v ∈ r', v < 2 ^ f.m := by
  induction is generalizing r with
  | nil => cases h; exact hr
  | cons i is ih =>
    rw [correctAt] at h
    split at h
    · cases h
    · rename_i e he
      refine ih ?_ h
      have hev : e < 2 ^ f.m := by
        unfold errorValue at he
        dsimp only at he
        split at he
        · cases he
        · cases he; exact gfMul_lt hd hm _ _
      intro v hv
      obtain ⟨k, hk, rfl⟩ := List.mem_iff_getElem.1 hv
      rw [List.getElem_modify]
      have := hr _ (List.getElem_mem (show k < r.length by simpa using hk))
      split
      · exact Nat.xor_lt_two_pow this hev
      · exact this

/-- The symbols given back are symbols of the code (43_rs.md rules R219, R221). -/
theorem rsFix_lt {f : RsCode} (hd : deg f.prim = f.m) (hm : 1 ≤ f.m) {r : List Nat} (hr : ∀ v ∈ r, v < 2 ^ f.m) :
    ∀ v ∈ (rsFix f r).word, v < 2 ^ f.m := by
  rcases rsFix_cases f r with ⟨-, h⟩ | ⟨-, ⟨q, hq, h⟩ | ⟨-, h⟩⟩ <;> rw [h]
  · exact hr
  · obtain ⟨bm, r', -, -, -, -, hc, -, rfl⟩ := rsCorrect_some hq
    intro v hv
    refine correctAt_lt hd hm ?_ hc v (List.mem_of_mem_take hv)
    intro w hw
    rcases List.mem_append.1 hw with hw | hw
    · exact hr w hw
    · rw [List.eq_of_mem_replicate hw]; exact Nat.pow_pos (by omega)
  · exact hr

/-! ### Nearest patterns -/

/-- The nearest element: the earliest of those at the least distance (44_dispatch.md rules R241, R243). -/
theorem nearest_some {α : Type} {l : List (Nat × α)} {x : Nat × α} (h : nearest l = some x) :
    ∃ l1 l2, l = l1 ++ x :: l2 ∧ (∀ y ∈ l1, x.1 < y.1) ∧ ∀ y ∈ l2, x.1 ≤ y.1 := by
  induction l generalizing x with
  | nil => cases h
  | cons a l ih =>
    rw [nearest] at h
    cases hn : nearest l with
    | none =>
      rw [hn] at h; cases h
      have : l = [] := by
        cases l with
        | nil => rfl
        | cons b l => rw [nearest] at hn; split at hn <;> first | cases hn | (split at hn <;> cases hn)
      exact ⟨[], l, rfl, by simp, by simp [this]⟩
    | some y =>
      rw [hn] at h
      obtain ⟨l1, l2, e, h1, h2⟩ := ih hn
      simp only at h
      split at h <;> cases h
      · rename_i hle
        refine ⟨[], l, rfl, by simp, fun z hz => ?_⟩
        rw [e] at hz
        rcases List.mem_append.1 hz with hz | hz
        · have := h1 z hz; omega
        · rcases List.mem_cons.1 hz with h' | hz
          · rw [h']; exact hle
          · have := h2 z hz; omega
      · rename_i hle
        refine ⟨a :: l1, l2, by rw [e]; rfl, fun z hz => ?_, h2⟩
        rcases List.mem_cons.1 hz with rfl | hz
        · omega
        · exact h1 z hz

theorem nearest_none {α : Type} {l : List (Nat × α)} (h : nearest l = none) : l = [] := by
  cases l with
  | nil => rfl
  | cons b l => rw [nearest] at h; split at h <;> first | cases h | (split at h <;> cases h)

/-! ### Forced types -/

/-- The illegal forced fields (44_dispatch.md rule R259). -/
theorem forced_eq_none {l : CtrlLatch} : forced l = none ↔ (l.forceTag.toNat < 1 ∨ 8 < l.forceTag.toNat ∨
    6 < l.forceSub.toNat ∨ (l.forceSub.toNat ≠ 0 ∧ l.forceTag.toNat ≠ 4 ∧ l.forceTag.toNat ≠ 7)) := by
  have key : ∀ (t : BitVec 4) (k : BitVec 3),
      forced { harder := false, forceEn := false, forceTag := t, forceSub := k } = none ↔
        (t.toNat < 1 ∨ 8 < t.toNat ∨ 6 < k.toNat ∨ (k.toNat ≠ 0 ∧ t.toNat ≠ 4 ∧ t.toNat ≠ 7)) := by
    decide +kernel
  exact key l.forceTag l.forceSub

/-- The legal ones name their tag and sub-kind (44_dispatch.md rules R240, R259). -/
theorem forced_eq_some {l : CtrlLatch} {v : Variant} {k : SubKind} (h : forced l = some (v, k)) :
    v.code = l.forceTag.toNat ∧ subKindCode k = l.forceSub.toNat := by
  have key : ∀ (t : BitVec 4) (k : BitVec 3),
      (forced { harder := false, forceEn := false, forceTag := t, forceSub := k }).all
        (fun x => x.1.code = t.toNat ∧ subKindCode x.2 = k.toNat) = true := by
    decide +kernel
  have := key l.forceTag l.forceSub
  rw [show forced { harder := false, forceEn := false, forceTag := l.forceTag, forceSub := l.forceSub } = forced l from rfl,
    h] at this
  simpa using this

/-! ### Candidates -/

theorem mem_precedence (w : Cand) : w ∈ precedence := by cases w <;> simp [precedence]

/-- The first passing candidate passes, and those before it do not (44_dispatch.md rule R256). -/
theorem firstPassing_some {p : Params} {ord : FlipOrder} {y : Bits} {dir : Direction} {q : Pass} {w : Cand} {e : CheckPassed}
    (h : firstPassing p ord y dir q = some (w, e)) :
    ∃ l1 l2, precedence = l1 ++ w :: l2 ∧ passes p ord w y dir q = some e ∧ ∀ w' ∈ l1, passes p ord w' y dir q = none := by
  unfold firstPassing at h
  obtain ⟨l1, a, l2, h1, h2, h3⟩ := List.findSome?_eq_some_iff.1 h
  cases hp : passes p ord a y dir q with
  | none => rw [hp] at h2; cases h2
  | some r =>
    rw [hp] at h2; cases h2
    refine ⟨l1, l2, h1, hp, fun w' hw' => ?_⟩
    have := h3 w' hw'
    cases hh : passes p ord w' y dir q with
    | none => rfl
    | some r => rw [hh] at this; cases this

theorem firstPassing_none {p : Params} {ord : FlipOrder} {y : Bits} {dir : Direction} {q : Pass}
    (h : firstPassing p ord y dir q = none) (w : Cand) : passes p ord w y dir q = none := by
  unfold firstPassing at h
  rw [List.findSome?_eq_none_iff] at h
  have := h w (mem_precedence w)
  cases hh : passes p ord w y dir q with
  | none => rfl
  | some r => rw [hh] at this; cases this

/-- In the exact pass the blocks of a check have no errors (44_dispatch.md rule R247). -/
theorem decodeBlocks_exact {p : Params} {ord : FlipOrder} {z : Bits} {bs : List Block} {e : CheckPassed}
    (h : decodeBlocks p ord .exact z bs = some e) : e.errs = 0 := by
  induction bs generalizing e with
  | nil => cases h; rfl
  | cons b bs ih =>
    rw [decodeBlocks] at h
    split at h
    · cases h
    · split at h
      · cases h
      · split at h
        · cases h
        · rename_i e' he hne _ d hd
          cases h
          simp at hne
          simp [hne, ih hd]

/-- The data a BCH check keeps: one string per block, of the length of its data part (44_dispatch.md rules R247, R253). -/
theorem decodeBlocks_data {p : Params} {ord : FlipOrder} {q : Pass} {z : Bits} {bs : List Block} {e : CheckPassed}
    (hb : ∀ b ∈ bs, blockOk p z.length b = true) (he : decodeBlocks p ord q z bs = some e) :
    e.data.length = bs.length ∧
      ∀ (i : Nat) (b : Block), bs[i]? = some b →
        ∃ d : Bits, e.data[i]? = some d ∧ d.length = b.n - deg (generator p b.slot) := by
  induction bs generalizing e with
  | nil => cases he; exact ⟨rfl, fun i b h => by simp at h⟩
  | cons b bs ih =>
    rw [decodeBlocks] at he
    split at he
    · cases he
    · split at he
      · cases he
      · split at he
        · cases he
        · rename_i r hr
          cases he
          obtain ⟨i1, i2⟩ := ih (fun b hb' => hb b (List.mem_cons_of_mem _ hb')) hr
          refine ⟨by simp [i1], fun i b' h => ?_⟩
          cases i with
          | succ i => simpa using i2 i b' (by simpa using h)
          | zero =>
            simp at h; subst h
            refine ⟨_, rfl, ?_⟩
            have hbk := hb b (by simp)
            simp only [blockOk, Bool.and_eq_true, decide_eq_true_eq] at hbk
            obtain ⟨⟨-, hn⟩, hp⟩ := hbk
            have hlen : (decodeBlock p ord z b).word.length = b.n := by
              unfold decodeBlock
              cases hpad : b.pad with
              | none =>
                rw [hpad] at hp; simp only [decide_eq_true_eq] at hp
                simp only; rw [bchDecode_length]; simp [sub]; omega
              | some k =>
                rw [hpad] at hp; simp only [Bool.and_eq_true, decide_eq_true_eq] at hp
                simp only
                have : (sub z b.boff (b.n - 1)).length = b.n - 1 := by simp [sub]; omega
                rw [padDecode_length (by omega)]; omega
            rw [List.length_take, hlen]; omega

/-- When the blocks of a BCH check decode, and what they contribute (44_dispatch.md rule R247). -/
theorem decodeBlocks_some {p : Params} {ord : FlipOrder} {q : Pass} {z : Bits} {bs : List Block} {c : CheckPassed} :
    decodeBlocks p ord q z bs = some c ↔
      ∃ es : List Nat, bs.map (fun b => (decodeBlock p ord z b).errs) = es.map some ∧ (q = .exact → ∀ e ∈ es, e = 0) ∧
        c = { errs := es.sum
              data := bs.map fun b => (decodeBlock p ord z b).word.take (b.n - deg (generator p b.slot)) } := by
  induction bs generalizing c with
  | nil =>
    constructor
    · intro h; cases h; exact ⟨[], rfl, by simp, rfl⟩
    · rintro ⟨es, h, -, rfl⟩
      rw [List.map_eq_nil_iff.1 h.symm]; rfl
  | cons b bs ih =>
    rw [decodeBlocks]
    constructor
    · intro h
      split at h
      · cases h
      · split at h
        · cases h
        · split at h
          · cases h
          · rename_i e he hq _ c' hc
            cases h
            obtain ⟨es, h1, h2, rfl⟩ := ih.1 hc
            refine ⟨e :: es, by simp [he, h1], fun hx e' he' => ?_, by simp⟩
            rcases List.mem_cons.1 he' with rfl | he'
            · by_contra hne; exact hq ⟨hx, hne⟩
            · exact h2 hx e' he'
    · rintro ⟨es, h1, h2, rfl⟩
      cases es with
      | nil => simp at h1
      | cons e es =>
        simp only [List.map_cons, List.cons.injEq] at h1
        have hq : ¬ (q = .exact ∧ e ≠ 0) := fun hh => hh.2 (h2 hh.1 e (by simp))
        simp only [h1.1, if_neg hq, ih.2 ⟨es, h1.2, fun hx e' he' => h2 hx e' (List.mem_cons_of_mem _ he'), rfl⟩,
          List.sum_cons, List.map_cons]

/-- When a list of checks passes: totals added, data in order (44_dispatch.md rule R249). -/
theorem runChecks_some {p : Params} {ord : FlipOrder} {q : Pass} {y : Bits} {cs : List Check} {e : CheckPassed} :
    runChecks p ord q y cs = some e ↔
      ∃ rs : List CheckPassed, List.Forall₂ (fun c r => runCheck p ord q y c = some r) cs rs ∧
        e = { errs := (rs.map fun r => r.errs).sum, data := (rs.map fun r => r.data).flatten } := by
  induction cs generalizing e with
  | nil => simp [runChecks, eq_comm]
  | cons c cs ih =>
    rw [runChecks]
    constructor
    · intro h
      split at h
      · cases h
      · split at h
        · cases h
        · rename_i r hr _ r' hr'
          cases h
          obtain ⟨rs, h1, rfl⟩ := ih.1 hr'
          exact ⟨r :: rs, .cons hr h1, by simp⟩
    · rintro ⟨rs, h1, rfl⟩
      cases h1 with
      | cons hr h1 => simp [hr, ih.2 ⟨_, h1, rfl⟩]

end Sys2Proof.Machine
end

