-- ==== Sys2Proof/Tests/Slice0.lean ====
section
/-! SUPPORT. The model's own tests: ill-formed commands are refused, every command's word as written out from the spec's
encoding, vectors of 95_test_vectors.md at its test configuration, and a witness for the hypotheses of each statement. -/

namespace Sys2Proof.Tests

set_option Elab.async false

open Sys2Proof.Machine Sys2Proof.Claims

/-! ### Well-formedness -/

/-- 30_encoding.md rule R102: SEL 8 is reserved on every BCH command. -/
theorem test_illformed_sel : Instr.wellFormed (.bchDiv 8) = false ∧ Instr.wellFormed (.bchDecode 9) = false ∧
    Instr.wellFormed (.bchDecode2p 15) = false ∧ Instr.wellFormed (.bchBlock32 8) = false ∧
    Instr.wellFormed (.bchBlockseq 8) = false ∧ Instr.wellFormed (.bchDiv 7) = true := by decide

/-- The word of an ill-formed command is refused as RESERVED_BITS (95_test_vectors.md B11). -/
theorem test_illformed_word : decode (encode (.bchDecode 9)) = .reject .reservedBits := by decide

/-! ### Every command's word, bit by bit: 31:12 zero, SEL 11:8, OP 7:0 (30_encoding.md rules R100, R105) -/

theorem test_decode_nop : decode 0b00000000000000000000000000000000 = .instr .nop := by decide
theorem test_decode_extract : decode 0b00000000000000000000000000010000 = .instr .extract := by decide
theorem test_decode_slice : decode 0b00000000000000000000000000010001 = .instr .slice := by decide
theorem test_decode_deint2 : decode 0b00000000000000000000000000010010 = .instr .deint2 := by decide
theorem test_decode_deint3 : decode 0b00000000000000000000000000010011 = .instr .deint3 := by decide
theorem test_decode_deintlcw : decode 0b00000000000000000000000000010100 = .instr .deintlcw := by decide
theorem test_decode_int2 : decode 0b00000000000000000000000000010101 = .instr .int2 := by decide
theorem test_decode_int3 : decode 0b00000000000000000000000000010110 = .instr .int3 := by decide
theorem test_decode_intlcw : decode 0b00000000000000000000000000010111 = .instr .intlcw := by decide
theorem test_decode_hamming : decode 0b00000000000000000000000000011000 = .instr .hamming := by decide
theorem test_decode_cksum8 : decode 0b00000000000000000000000000011001 = .instr .cksum8 := by decide
theorem test_decode_cksum16 : decode 0b00000000000000000000000000011010 = .instr .cksum16 := by decide
theorem test_decode_bchDiv : decode 0b00000000000000000000000100100000 = .instr (.bchDiv 1) := by decide
theorem test_decode_bchDecode : decode 0b00000000000000000000011100100001 = .instr (.bchDecode 7) := by decide
theorem test_decode_bchDecode2p : decode 0b00000000000000000000000100100010 = .instr (.bchDecode2p 1) := by decide
theorem test_decode_bchBlock32 : decode 0b00000000000000000000001000100011 = .instr (.bchBlock32 2) := by decide
theorem test_decode_bchBlockseq : decode 0b00000000000000000000010000100100 = .instr (.bchBlockseq 4) := by decide
theorem test_decode_rsFix8 : decode 0b00000000000000000000000000110000 = .instr .rsFix8 := by decide
theorem test_decode_rsFix6 : decode 0b00000000000000000000000000110001 = .instr .rsFix6 := by decide
theorem test_decode_access : decode 0b00000000000000000000000001000000 = .instr .access := by decide
theorem test_decode_strip : decode 0b00000000000000000000000001000001 = .instr .strip := by decide
theorem test_decode_classify : decode 0b00000000000000000000000001000010 = .instr .classify := by decide

/-- The numbering of spec/opcode_table.json; a row gives the whole 32-bit word. -/
theorem test_table_word : decodeTableWord 32 0x121 = some (.bchDecode 1) ∧ decodeTableWord 32 0x43 = none := by decide

/-! ### Vectors (95_test_vectors.md sections 1 and 2), at TESTCFG -/

/-- Hard reset, then the given bits and symbols written from address 0, and the operands latched. -/
def sample (bits : Bits) (syms : List Sym) (a b c d : Word) : State :=
  { State.reset with bitmem := Memory.cells 0 bits, symmem := Memory.cells 0 syms, lArg := #v[a, b, c, d] }

/-- The same in harder mode. -/
def harder (s : State) : State := { s with lCtrl := { s.lCtrl with harder := true } }

/-- U1: bits 4..7 of 0xA5. -/
theorem test_extract : extractResult (sample (bstr 8 0xA5) [] 4 4 0 0) = .success { res := [5] } := by decide +kernel

/-- U3: a width of 33. -/
theorem test_extract_length : extractResult (sample [] [] 0 33 0 0) = .error .length := by decide +kernel

/-- U4. -/
theorem test_slice : sliceResult (sample (bstr 10 0b1010010111) [] 0 10 4 0) =
    .success { res := [2, 3, 2], out := [0xA, 0x5] } := by decide +kernel

/-- U5: 65 groups. -/
theorem test_slice_capacity : sliceResult (sample [] [] 0 65 1 0) = .error .capacity := by decide +kernel

/-- U6. -/
theorem test_deint2 : permuteResult testCfg.perm2 deinterleave (sample (bstr 8 0b11000110) [] 0 0 8 0) =
    .success { res := [4, 4], bits := (0, bstr 8 0b10000111) } := by decide +kernel

/-- U8. -/
theorem test_deint3 : permuteResult testCfg.perm3 deinterleave (sample (bstr 6 0b110010) [] 0 0 6 0) =
    .success { res := [2, 2, 2], bits := (0, bstr 6 0b100011) } := by decide +kernel

/-- U7. -/
theorem test_int2 : permuteResult testCfg.perm2 interleave (sample (bstr 12 0b011001110011) [] 0 0 12 0) =
    .success { res := [6, 6], bits := (0, bstr 12 0b110100101101) } := by decide +kernel

/-- U9. -/
theorem test_int3 : permuteResult testCfg.perm3 interleave (sample (bstr 6 0b100011) [] 0 0 6 0) =
    .success { res := [2, 2, 2], bits := (0, bstr 6 0b110010) } := by decide +kernel

/-- U10. -/
theorem test_deint2_no_table : permuteResult testCfg.perm2 deinterleave (sample [] [] 0 0 6 0) = .error .noTable := by
  decide +kernel

/-- U11: only x[39] set. -/
theorem test_deintlcw : permuteLcwResult testCfg deinterleave (sample (bstr 46 (2 ^ 6)) [] 0 0 46 0) =
    .success { res := [7, 13, 26], bits := (0, bstr 46 (2 ^ 45)) } := by decide +kernel

/-- U11: only y[0] set. -/
theorem test_intlcw : permuteLcwResult testCfg interleave (sample (bstr 46 (2 ^ 45)) [] 0 0 46 0) =
    .success { res := [7, 13, 26], bits := (0, bstr 46 (2 ^ 6)) } := by decide +kernel

/-- U13: "10110" and "00111". -/
theorem test_hamming : hammingResult (sample (bstr 10 0b1011000111) [] 0 5 5 0) = .success { res := [2] } := by decide +kernel

/-- U14: 0xFF + 0x01 wraps to 0. -/
theorem test_cksum8 : checksumResult (fun bs => (testCfg.cksum8 bs).toNat) (sample (bstr 16 0xFF01) [] 0 2 0 0) =
    .success { res := [0] } := by decide +kernel

/-- U15: the same bytes modulo 65536. -/
theorem test_cksum16 : checksumResult (fun bs => (testCfg.cksum16 bs).toNat) (sample (bstr 16 0xFF01) [] 0 2 0 0) =
    .success { res := [0x100] } := by decide +kernel

/-- B2: x^10. -/
theorem test_bchDiv : bchDivResult testCfg 1 (sample (bstr 11 0x400) [] 0 11 0 0) = .success { res := [0x369, 10] } := by
  decide +kernel

/-- B5: positions 3 and 20 flipped. -/
theorem test_bchDecode : bchDecodeResult testCfg .coeff 1 (sample (bstr 31 0x5E716EF7) [] 0 31 64 0) =
    .success { res := [2, 3, 20, 21, 0x159C5A, 0x0AB], bits := (64, bstr 31 0x56716AF7) } := by decide +kernel

/-- B9: the flip order matters on a code of minimum distance 4. -/
theorem test_bchDecode_order :
    (bchDecode .coeff 0x1D (bstr 7 0b0000011)).word = bstr 7 0 ∧
    (bchDecode .string 0x1D (bstr 7 0b0000011)).word = bstr 7 0b1010011 := by decide +kernel

/-- B12: the pad bit is 1. -/
theorem test_bchDecode2p : bchDecode2pResult testCfg .coeff 1 (sample ((bstr 31 0x56716AF7).take 30) [] 0 31 64 30) =
    .success
      { res := [0, noneWord, noneWord, 21, 0x159C5A, 0, 1], bits := (64, bstr 31 0x56716AF7) } := by decide +kernel

/-- B17. -/
theorem test_bchBlock32 : bchBlock32Result testCfg .coeff 2 (sample (bstr 32 0x0D1A2BD5) [] 0 64 0 0) =
    .success { res := [1, 0, 5, noneWord, 0x12345, 0x2FA], bits := (64, bstr 32 0x091A2BD5) } := by decide +kernel

/-- B21: three errors with the parity bit counted. -/
theorem test_bchBlock32_harder : bchBlock32Result testCfg .coeff 2 (harder (sample (bstr 32 0x0F1A2BD4) [] 0 64 0 0)) =
    .success { res := [3, 2, 5, 6, 0x12345, 0x387], bits := (64, bstr 32 0x091A2BD5) } := by decide +kernel

/-- B24. -/
theorem test_bchBlockseq :
    bchBlockseqResult testCfg .coeff 2 (sample (bstr 96 0x0D1A2BD555E6F2581FFFFFFF) [] 0 3 128 0) =
    .success { res := [2, 1, 1, 64, 1], bits := (128, bstr 96 0x091A2BD555E6F2581FFFFFFF) } := by decide +kernel

/-- B27: no block. -/
theorem test_bchBlockseq_none : bchBlockseqResult testCfg .coeff 2 (sample [] [] 0 0 128 0) =
    .success { res := [0, 0, 0, 0, 0], bits := (128, []) } := by decide +kernel

/-- R2: symbols 0 and 7 wrong. -/
theorem test_rsFix6 :
    rsFix6Result testCfg (sample [] [9, 2, 3, 4, 5, 38, 13, 0, 34, 43, 25, 3, 49, 31, 14] 0 15 0 0) =
    .success
      { res := [1, 2, 5, 10], syms := (0, [1, 2, 3, 4, 5, 38, 13, 25, 34, 43, 25, 3, 49, 31, 14]) } := by decide +kernel

/-- R6: a symbol of 64. -/
theorem test_rsFix6_symbol : rsFix6Result testCfg (sample [] (64 :: List.replicate 10 0) 0 11 0 0) = .error .symbol := by
  decide +kernel

/-- R7: a codeword. -/
theorem test_rsFix8 :
    rsFix8Result testCfg
      (sample [] [0x01, 0x02, 0x03, 0x04, 0x42, 0x5A, 0x21, 0x2F, 0xA2, 0xE7, 0x15, 0xE2, 0xCC, 0x35, 0x62, 0xAA, 0x3D,
        0xEF, 0x7F, 0x3C] 0 20 0 0) =
    .success
      { res := [1, 0, 4, 16]
        syms := (0, [0x01, 0x02, 0x03, 0x04, 0x42, 0x5A, 0x21, 0x2F, 0xA2, 0xE7, 0x15, 0xE2, 0xCC, 0x35, 0x62, 0xAA, 0x3D,
          0xEF, 0x7F, 0x3C]) } := by decide +kernel

/-- D2: a tie at distance 3 goes to the downlink pattern. -/
theorem test_access : accessResult testCfg (harder (sample (bstr 16 0b1100100011110000) [] 0 16 0 0)) =
    .success { res := [0, 3, 12, 0] } := by decide +kernel

/-- D1: no fuzzy match outside harder mode. -/
theorem test_access_none : accessResult testCfg (sample (bstr 16 0b1100100011110000) [] 0 16 0 0) =
    .success { res := [noneWord, noneWord, noneWord, noneWord] } := by decide +kernel

/-- D7: the filler at distance 2. -/
theorem test_strip : stripResult testCfg (sample (bstr 32 0b101010101001) [] 0 32 0 0) =
    .success { res := [20, 1, 2] } := by decide +kernel

/-- D29: a link-control word with one bit error, corrected in pass 2. -/
theorem test_classify_lcw :
    classifyResult testCfg .coeff (harder (sample (testCfg.accDl ++ bstr 46 0x3FC47588FB49) [] 0 58 0 0)) =
    .success { res := [4, 0, 1, 12, 46, 0, 4, 1] } := by decide +kernel

/-- D15: too short. -/
theorem test_classify_short : classifyResult testCfg .coeff (sample (testCfg.accDl ++ bstr 20 0) [] 0 32 0 0) =
    .success { res := [0, 2, 0, 12, 20, 0, 0, 0] } := by decide +kernel

/-- C1: NOP from reset, in one step. -/
theorem test_nop : (match step (State.reset.withFetchWord 32 0) with
    | .next t => t.statusWord
    | .fault _ => 0
    | .refused _ => 0) = 0x00000002 := by decide +kernel

/-- E10: a CTRL write keeps the defined bits only. -/
theorem test_ctrl_write : (hostWrite State.reset 0x004 4 0x7FFFFFFF).ctrl.toWord = 0x000007F7 := by decide +kernel

/-- E5: a reserved offset. -/
theorem test_reserved_read : (hostRead params State.reset 0x064 4).toOption.map (fun r => (r.1, r.2.status.busErr)) =
    some (0, true) := by rfl

/-- P1: LOADBITS packs the first bit into bit 31. -/
theorem test_loadBits : expand (.loadBits 0 (bstr 31 0x54716AF7)) = some [.write 0x100 4 0xA8E2D5EE] := by decide +kernel

/-- P3: LOADSYMS packs the lowest-numbered symbol into the least significant byte. -/
theorem test_loadSyms : expand (.loadSyms 0 [9, 2, 3, 4]) = some [.write 0x200 4 0x04030209] := by decide +kernel

/-! ### Witnesses: states and operands that meet the hypotheses of each statement, clause by clause -/

/-- A string of zeros. -/
def zeros (n : Nat) : Bits := List.replicate n false

/-- A state with the command word v in flight. -/
def inFlight (v : Word) : State := State.reset.placeCommand v

theorem holds_sample (bits : Bits) (syms : List Sym) (a b c d : Word) :
    Holds (sample bits syms a b c d).bitmem 0 bits ∧ Holds (sample bits syms a b c d).symmem 0 syms :=
  ⟨Memory.holds_cells 0 bits, Memory.holds_cells 0 syms⟩

/-- A slot that is present in every configuration. -/
theorem slot_two : 2 ≤ polyAt 2 ∧ deg (polyAt 2) < 31 := by
  refine ⟨(generatorPresent_iff _ _).1 (params_ok.slot_present 2 (by decide)), ?_⟩
  have h := params_ok.polys
  simp only [polysOk, Bool.and_eq_true, decide_eq_true_eq] at h
  exact Nat.lt_succ_of_le h.1.2

/-- A decoding latch and an illegal one, each alone and with a host action queued on the engine's turn. -/
theorem witness_StepRunsDecodedCommand :
    ((inFlight 0).eng = .busy ∧ decode (inFlight 0).lCmd = .instr .nop ∧ (inFlight 0).host = []) ∧
    ((inFlight 5).eng = .busy ∧ decode (inFlight 5).lCmd = .reject .illegalOp ∧ (inFlight 5).host = []) ∧
    (∀ v : Word, { inFlight v with host := [.wait], sched := [.engine] }.eng = .busy ∧
      { inFlight v with host := [.wait], sched := [.engine] }.lCmd = v ∧
      { inFlight v with host := [.wait], sched := [.engine] }.host ≠ [] ∧
      { inFlight v with host := [.wait], sched := [.engine] }.sched.head? ≠ some .host) :=
  ⟨⟨rfl, by decide, rfl⟩, ⟨rfl, by decide, rfl⟩, fun _ => ⟨rfl, rfl, List.cons_ne_nil _ _, fun h => nomatch h⟩⟩

theorem witness_HostActsInItsTurn :
    ({ State.reset with host := [.wait] }.host = .wait :: [] ∧ { State.reset with host := [.wait] }.eng = .idle) ∧
    ({ inFlight 0 with host := [.wait], sched := [.host] }.eng = .busy ∧
      { inFlight 0 with host := [.wait], sched := [.host] }.sched.head? = some .host) ∧
    (State.reset.host = [] ∧ State.reset.eng = .idle) := by decide

theorem witness_IllegalOpcodeCompletesWithError :
    State.reset.eng = .idle ∧ (0x01 : Word).toNat % 256 ∉ legalOps ∧ (0x0F : Word).toNat % 256 ∉ legalOps ∧
    (0x43 : Word).toNat % 256 ∉ legalOps ∧ (0xFFFFFFFF : Word).toNat % 256 ∉ legalOps := by decide

theorem witness_ReservedBitsAndSelectorErrors :
    ((inFlight 0x05).lCmd.toNat % 256 ∉ legalOps) ∧
    ((inFlight 0x1010).lCmd.toNat % 256 ∈ legalOps ∧ (inFlight 0x1010).lCmd.toNat / 4096 ≠ 0) ∧
    ((inFlight 0x820).lCmd.toNat % 256 ∈ bchOps ∧ 8 ≤ (inFlight 0x820).lCmd.toNat / 256 % 16) ∧
    ((inFlight 0x110).lCmd.toNat % 256 ∈ legalOps ∧ (inFlight 0x110).lCmd.toNat % 256 ∉ bchOps ∧
      (inFlight 0x110).lCmd.toNat / 256 % 16 ≠ 0) ∧
    ((inFlight 0x724).lCmd.toNat % 256 ∈ bchOps ∧ (inFlight 0x724).lCmd.toNat / 4096 = 0 ∧
      (inFlight 0x724).lCmd.toNat / 256 % 16 = (7 : Fin 8).val) := by decide

/-- At TESTCFG slot 7 is absent; that a slot of the chip at hand is absent nothing says (log entry 8). -/
theorem witness_absent_slot : generator testCfg 7 < 2 := by decide

theorem witness_StepKeepsInvariant : Inv (inFlight 0) ∧ step (inFlight 0) = .next ((inFlight 0).finish {}) :=
  ⟨⟨by decide, by decide, by decide, by decide, by decide, by decide, by decide, by decide⟩, rfl⟩

theorem witness_SoftResetKeepsMemories :
    (0x80000000 : Word).getLsbD 31 = true ∧ State.reset.eng = .idle ∧ (inFlight 0).eng = .busy := by decide

/-- A schedule that lets the host go first, without a hard reset; a step that completes, and one that resets. -/
theorem witness_BusyEngineCompletes :
    ((inFlight 0).eng = .busy ∧ { inFlight 0 with sched := [.host, .host], host := [.wait] }.eng = .busy ∧
      HostAction.hardReset ∉ { inFlight 0 with sched := [.host, .host], host := [.wait] }.host) ∧
    (step (inFlight 0) = .next ((inFlight 0).finish {}) ∧ ((inFlight 0).finish {}).eng = .idle) ∧
    (∃ t, step { inFlight 0 with host := [.hardReset], sched := [.host] } = .next t ∧ t.eng = .idle) :=
  ⟨by decide, ⟨rfl, rfl⟩, ⟨_, rfl, rfl⟩⟩

theorem witness_OnlyCmdWriteStartsEngine :
    ∃ t, step { State.reset with host := [.write 0x00C 4 0x10] } = .next t ∧ t.eng = .busy :=
  ⟨State.reset.accept 0x10, rfl, rfl⟩

theorem witness_AcceptanceLatches : State.reset.eng = .idle := rfl

theorem witness_BusyWritesAreDropped :
    (inFlight 0).eng = .busy ∧
    (∀ off ∈ ([0x000, 0x004, 0x008, 0x00C, 0x010, 0x01C, 0x020, 0x060, 0x100, 0x2FC, 0x300, 0x3FC] : List Offset),
      off.toNat % 4 = 0) ∧
    hostRead params { inFlight 0 with eng := .idle } 0x01C 4 = .ok (0, { inFlight 0 with eng := .idle }) :=
  ⟨rfl, by decide, rfl⟩

theorem witness_RefusedAndIgnoredAccesses :
    (0x102 : Offset).toNat % 4 ≠ 0 ∧ (2 : Nat) ≠ 4 ∧
    (∀ off ∈ ([0x064, 0x0FC] : List Offset), 0x064 ≤ off.toNat ∧ off.toNat < 0x100) ∧
    (∀ off ∈ ([0x000, 0x020, 0x060, 0x300, 0x3FC] : List Offset), off.toNat % 4 = 0 ∧
      (off.toNat = 0x000 ∨ (0x020 ≤ off.toNat ∧ off.toNat < 0x064) ∨ 0x300 ≤ off.toNat)) := by decide

theorem witness_ReadsAreIdempotent :
    hostRead params State.reset 0x010 4 = .ok (0, State.reset) ∧
    hostRead params State.reset 0x064 4 = .ok (0, State.reset.refuse) := ⟨rfl, rfl⟩

/-- The first and the last POLY slot and OUTBUF word. -/
theorem witness_ReadOnlyPortsRead :
    (0x040 : Offset).toNat = 0x040 + 4 * (0 : Fin 8).val ∧ (0x05C : Offset).toNat = 0x040 + 4 * (7 : Fin 8).val ∧
    (0x300 : Offset).toNat = 0x300 + 4 * 0 ∧ (0x3FC : Offset).toNat = 0x300 + 4 * 63 ∧
    Memory.read { State.reset with outbuf := Memory.cells 0 [7] }.outbuf 0 = some 7 ∧
    Memory.read { State.reset with outbuf := Memory.cells 63 [7] }.outbuf 63 = some 7 := by decide

/-- The first and the last operand and result register. -/
theorem witness_CtrlAndOperandWrites :
    State.reset.eng = .idle ∧ (0x7FFFFFFF : Word).getLsbD 31 = false ∧ (0xFFFFFFF7 : Word).getLsbD 31 = true ∧
    (inFlight 0).eng = .busy ∧ (0x010 : Offset).toNat = 0x010 + 4 * (0 : Fin 4).val ∧
    (0x01C : Offset).toNat = 0x010 + 4 * (3 : Fin 4).val ∧ (0x020 : Offset).toNat = 0x020 + 4 * (0 : Fin 8).val ∧
    (0x03C : Offset).toNat = 0x020 + 4 * (7 : Fin 8).val := by decide

/-- The first and the last window word. -/
theorem witness_BitWindowPacking :
    (0x100 : Offset).toNat = 0x100 + 4 * 0 ∧ (0x1FC : Offset).toNat = 0x100 + 4 * 63 ∧ (zeros 32).length = 32 ∧
    Holds (Memory.cells (32 * 0) (zeros 32)) (32 * 0) (zeros 32) ∧
    Holds (Memory.cells (32 * 63) (zeros 32)) (32 * 63) (zeros 32) ∧ State.reset.eng = .idle :=
  ⟨by decide, by decide, by decide, Memory.holds_cells _ _, Memory.holds_cells _ _, rfl⟩

theorem witness_SymWindowPacking :
    (0x200 : Offset).toNat = 0x200 + 4 * 0 ∧ (0x2FC : Offset).toNat = 0x200 + 4 * 63 ∧
    Holds (Memory.cells (4 * 0) [1, 2, 3, 4]) (4 * 0) ([1, 2, 3, 4] : List Sym) ∧
    Holds (Memory.cells (4 * 63) [1, 2, 3, 4]) (4 * 63) ([1, 2, 3, 4] : List Sym) ∧ State.reset.eng = .idle :=
  ⟨by decide, by decide, Memory.holds_cells _ _, Memory.holds_cells _ _, rfl⟩

/-- Nothing is written after reset: the first and the last word of each window. -/
theorem witness_UnwrittenReadsFault :
    ((0x100 : Offset).toNat = 0x100 + 4 * 0 ∧ Memory.read State.reset.bitmem (32 * 0 + 31) = none) ∧
    ((0x2FC : Offset).toNat = 0x200 + 4 * 63 ∧ Memory.read State.reset.symmem (4 * 63 + 3) = none) ∧
    ((0x3FC : Offset).toNat = 0x300 + 4 * 63 ∧ Memory.read State.reset.outbuf 63 = none) := by decide

/-- Every command without a slot or a table on an empty memory, with a source region `(a, n)`: the last bit of BITMEM, the
second region of HAMMING, the last symbols of SYMMEM. -/
theorem witness_unwritten_commands :
    (∀ i ∈ [Instr.extract, .access, .strip],
      OperandsPass i (sample [] [] 2047 1 0 0) ∧ (2047, 1) ∈ sourceBits i (sample [] [] 2047 1 0 0)) ∧
    (OperandsPass .classify (sample [] [] 2047 1 0 0) ∧ (2047, 1) ∈ sourceBits .classify (sample [] [] 2047 1 0 0)) ∧
    (OperandsPass .slice (sample [] [] 2047 1 1 0) ∧ (2047, 1) ∈ sourceBits .slice (sample [] [] 2047 1 1 0)) ∧
    (∀ i ∈ [Instr.deintlcw, .intlcw],
      OperandsPass i (sample [] [] 2002 0 46 0) ∧ (2002, 46) ∈ sourceBits i (sample [] [] 2002 0 46 0)) ∧
    (OperandsPass .hamming (sample [] [] 0 2047 1 0) ∧ (2047, 1) ∈ sourceBits .hamming (sample [] [] 0 2047 1 0)) ∧
    (∀ i ∈ [Instr.cksum8, .cksum16],
      OperandsPass i (sample [] [] 2040 1 0 0) ∧ (2040, 8) ∈ sourceBits i (sample [] [] 2040 1 0 0)) ∧
    (∀ i ∈ [Instr.rsFix8, .rsFix6],
      OperandsPass i (sample [] [] 239 17 0 0) ∧ (239, 17) ∈ sourceSyms i (sample [] [] 239 17 0 0)) ∧
    (∀ a, Memory.read (sample [] [] 0 0 0 0).bitmem a = none ∧ Memory.read (sample [] [] 0 0 0 0).symmem a = none) := by
  refine ⟨?_, ⟨⟨by decide, fun h => nomatch h⟩, by decide⟩, ?_, ?_, ?_, ?_, ?_, fun _ => ⟨rfl, rfl⟩⟩ <;>
    simp only [List.forall_mem_cons, List.not_mem_nil, false_implies, implies_true, and_true, OperandsPass, sourceBits,
      sourceSyms] <;> decide

/-- The five BCH commands on the slot every configuration has. -/
theorem witness_unwritten_bch :
    (OperandsPass (.bchDiv 2) (sample [] [] 2047 1 0 0) ∧ (2047, 1) ∈ sourceBits (.bchDiv 2) (sample [] [] 2047 1 0 0)) ∧
    (OperandsPass (.bchDecode 2) (sample [] [] 1984 64 0 0) ∧
      (1984, 64) ∈ sourceBits (.bchDecode 2) (sample [] [] 1984 64 0 0)) ∧
    (OperandsPass (.bchDecode2p 2) (sample [] [] 1985 64 0 0) ∧
      (1985, 63) ∈ sourceBits (.bchDecode2p 2) (sample [] [] 1985 64 0 0)) ∧
    (OperandsPass (.bchBlock32 2) (sample [] [] 2016 0 0 0) ∧
      (2016, 32) ∈ sourceBits (.bchBlock32 2) (sample [] [] 2016 0 0 0)) ∧
    (OperandsPass (.bchBlockseq 2) (sample [] [] 2016 1 0 0) ∧
      (2016, 32) ∈ sourceBits (.bchBlockseq 2) (sample [] [] 2016 1 0 0)) := by
  have hs : ∀ ok : Nat → Prop, ok (deg (polyAt 2)) → SlotPasses 2 ok := fun ok h => ⟨2, by decide, slot_two.1, h⟩
  have h64 : deg (polyAt 2) < 64 := Nat.lt_trans slot_two.2 (by decide)
  simp only [OperandsPass, sourceBits]
  exact ⟨⟨hs _ (by decide), by decide⟩, ⟨hs _ ⟨h64, by decide⟩, by decide⟩, ⟨hs _ ⟨h64, by decide⟩, by decide⟩,
    ⟨hs _ ⟨slot_two.2, by decide⟩, by decide⟩, ⟨hs _ ⟨slot_two.2, by decide⟩, by decide⟩⟩

/-- DEINT2 and INT2, on the table every configuration has, where its region fits BITMEM. -/
theorem witness_unwritten_table (h : params.bcRlen ≤ 2048) :
    ∃ s : State, OperandsPass .deint2 s ∧ OperandsPass .int2 s ∧ 0 < s.operand 2 ∧
      (∀ a, Memory.read s.bitmem a = none) := by
  have hc := params_ok.check .bc (c := .bch .p2 params.bcRoff params.bcRlen
    [ { boff := params.bcB0, n := 31, slot := 2, pad := none }, { boff := params.bcB1, n := 31, slot := 2, pad := none } ])
    (by simp [candidate])
  simp only [checkOk, permFor, Option.isSome_map, Bool.and_eq_true, Option.isSome_iff_exists, List.all_cons, blockOk,
    decide_eq_true_eq] at hc
  obtain ⟨⟨-, t, ht⟩, ⟨-, hl⟩, -⟩ := hc
  have h2 : (sample [] [] 0 0 (BitVec.ofNat 32 params.bcRlen) 0).operand 2 = params.bcRlen := by
    show (BitVec.ofNat 32 params.bcRlen).toNat = _
    rw [BitVec.toNat_ofNat]; omega
  have ok : (0 + params.bcRlen ≤ 2048 ∧ 0 + params.bcRlen ≤ 2048 ∧ findTable params.perm2 params.bcRlen ≠ none) :=
    ⟨by omega, by omega, by rw [ht]; exact Option.some_ne_none t⟩
  refine ⟨sample [] [] 0 0 (BitVec.ofNat 32 params.bcRlen) 0, ?_, ?_, ?_, fun _ => rfl⟩ <;>
    simp only [OperandsPass, h2] <;> first | exact ok | omega

theorem witness_FaultsOnlyOnUnwrittenCells :
    exec .access (sample [] [] 0 1 0 0) = .fault (.uninit .bitmem 0) ∧
    exec .rsFix8 (sample [] [] 239 17 0 0) = .fault (.uninit .symmem 239) := ⟨rfl, rfl⟩

theorem witness_IrqFollowsEnableAndDone :
    exec .nop State.reset = .next (State.reset.finish {}) ∧ State.reset.eng = .idle ∧ (0x2 : Word).getLsbD 31 = false ∧
    (inFlight 0).eng = .busy := ⟨rfl, rfl, by decide, rfl⟩

/-- A step that keeps the three bits, and each of the three that lower one: ERR written 1 while BUSY, a soft reset, a hard
reset. -/
theorem witness_StickyBitsStay :
    step { State.reset with host := [.wait], status := { Status.zero with err := true, ovr := true, busErr := true } } =
      .next ({ State.reset with status := { Status.zero with err := true, ovr := true, busErr := true } }.record 0x1C) ∧
    (∃ t, step { inFlight 0 with host := [.write 0x008 4 4], sched := [.host] } = .next t) ∧
    (Performs { inFlight 0 with host := [.write 0x008 4 4], sched := [.host] } (.write 0x008 4 4)) ∧
    (Performs { State.reset with host := [.write 0x004 4 0x80000000] } (.write 0x004 4 0x80000000)) ∧
    (Performs { inFlight 0 with host := [.hardReset], sched := [.host] } .hardReset) :=
  ⟨rfl, ⟨_, rfl⟩, ⟨_, rfl, .inr rfl⟩, ⟨_, rfl, .inl rfl⟩, ⟨_, rfl, .inr rfl⟩⟩

theorem witness_ErrorsChangeOnlyStatus :
    exec .extract (sample [] [] 0 0 0 0) = .next ((sample [] [] 0 0 0 0).fail .length) ∧
    ((sample [] [] 0 0 0 0).fail .length).status.errCode ≠ 0 ∧
    engineMove (inFlight 0x100) = .next ((inFlight 0x100).fail .reservedBits) ∧
    ((inFlight 0x100).fail .reservedBits).status.errCode ≠ 0 := ⟨rfl, by decide, rfl, by decide⟩

theorem witness_CompletionFrame : exec .nop State.reset = .next (State.reset.finish {}) := rfl

theorem witness_ResultRegisterFrame :
    (∃ t, exec .extract (sample [true] [] 0 1 0 0) = .next t) ∧ resCount .extract ≤ (1 : Fin 8).val := ⟨⟨_, rfl⟩, by decide⟩

/-- A command that writes bits, and an address just above its destination; one that writes OUTBUF. -/
theorem witness_MemoryFrame :
    (∃ t, exec .deintlcw (sample (zeros 46) [] 0 0 46 0) = .next t) ∧
    bitDestination .deintlcw (sample (zeros 46) [] 0 0 46 0) = some (0, 46) ∧
    (∃ t, exec .slice (sample (zeros 8) [] 0 8 4 0) = .next t) ∧ outCount .slice (sample (zeros 8) [] 0 8 4 0) = 2 ∧
    symDestination .rsFix8 (sample [] [] 0 17 3 0) = some (3, 17) :=
  ⟨⟨_, rfl⟩, by decide, ⟨_, rfl⟩, by decide, by decide⟩

theorem witness_NopCompletes :
    (inFlight 0x100).lCmd.toNat % 256 = 0 ∧ (inFlight 0x100).lCmd.toNat / 256 ≠ 0 ∧
    (inFlight 0x80000000).lCmd.toNat % 256 = 0 ∧ (inFlight 0x80000000).lCmd.toNat / 256 ≠ 0 := by decide

/-- Widths 0 and 33, a region past the end, widths 1 and 32 in range. -/
theorem witness_ExtractReadsField :
    ((sample [] [] 0 0 0 0).operand 1 < 1 ∧ 32 < (sample [] [] 0 33 0 0).operand 1) ∧
    (2048 < (sample [] [] 2040 9 0 0).operand 0 + (sample [] [] 2040 9 0 0).operand 1) ∧
    (zeros 1).length = 1 ∧ Holds (sample (zeros 1) [] 0 1 0 0).bitmem 0 (zeros 1) ∧
    (zeros 32).length = 32 ∧ Holds (sample (zeros 32) [] 0 32 0 0).bitmem 0 (zeros 32) :=
  ⟨by decide, by decide, by decide, (holds_sample _ _ _ _ _ _).1, by decide, (holds_sample _ _ _ _ _ _).1⟩

/-- Widths 0 and 33, a region past the end, 65 groups, exactly 64 groups, no group. -/
theorem witness_SliceWritesGroups :
    ((sample [] [] 0 8 0 0).operand 2 < 1 ∧ 32 < (sample [] [] 0 8 33 0).operand 2) ∧
    (2048 < (sample [] [] 2048 1 1 0).operand 0 + (sample [] [] 2048 1 1 0).operand 1) ∧
    (64 < (sample [] [] 0 65 1 0).operand 1 / (sample [] [] 0 65 1 0).operand 2) ∧
    ((sample (zeros 64) [] 0 64 1 0).operand 1 / (sample (zeros 64) [] 0 64 1 0).operand 2 ≤ 64 ∧
      Holds (sample (zeros 64) [] 0 64 1 0).bitmem 0 (zeros 64)) ∧
    Holds (sample [] [] 0 0 4 0).bitmem 0 ([] : Bits) :=
  ⟨by decide, by decide, by decide, ⟨by decide, (holds_sample _ _ _ _ _ _).1⟩, (holds_sample _ _ _ _ _ _).1⟩

/-- Every configuration has a 2-way table, the one its broadcast candidate names; where that region fits BITMEM, DEINT2 and
INT2 run on it. -/
theorem witness_two_way (h : params.bcRlen ≤ 2048) :
    ∃ (s : State) (t : PermTable) (x : Bits), PermuteReady params.perm2 s t x := by
  have hc := params_ok.check .bc (c := .bch .p2 params.bcRoff params.bcRlen
    [ { boff := params.bcB0, n := 31, slot := 2, pad := none }, { boff := params.bcB1, n := 31, slot := 2, pad := none } ])
    (by simp [candidate])
  simp only [checkOk, permFor, Option.isSome_map, Bool.and_eq_true, Option.isSome_iff_exists] at hc
  obtain ⟨⟨-, t, ht⟩, -⟩ := hc
  have h2 : (sample (zeros params.bcRlen) [] 0 0 (BitVec.ofNat 32 params.bcRlen) 0).operand 2 = params.bcRlen := by
    show (BitVec.ofNat 32 params.bcRlen).toNat = _
    rw [BitVec.toNat_ofNat]; omega
  refine ⟨sample (zeros params.bcRlen) [] 0 0 (BitVec.ofNat 32 params.bcRlen) 0, t, zeros params.bcRlen, ?_⟩
  unfold PermuteReady
  rw [h2]
  exact ⟨ht, by show 0 + _ ≤ _; omega, by show 0 + _ ≤ _; omega, by simp [zeros], (holds_sample _ _ _ _ _ _).1⟩

/-- The same for the 3-way table of the ring-alert candidate, with DEINT3 and INT3. -/
theorem witness_three_way (h : params.raRlen ≤ 2048) :
    ∃ (s : State) (t : PermTable) (x : Bits), PermuteReady params.perm3 s t x := by
  have hc := params_ok.check .ra (c := .bch .p3 params.raRoff params.raRlen
    [ { boff := params.raB0, n := 31, slot := 2, pad := none }, { boff := params.raB1, n := 31, slot := 2, pad := none },
      { boff := params.raB2, n := 31, slot := 2, pad := none } ]) (by simp [candidate])
  simp only [checkOk, permFor, Option.isSome_map, Bool.and_eq_true, Option.isSome_iff_exists] at hc
  obtain ⟨⟨-, t, ht⟩, -⟩ := hc
  have h2 : (sample (zeros params.raRlen) [] 0 0 (BitVec.ofNat 32 params.raRlen) 0).operand 2 = params.raRlen := by
    show (BitVec.ofNat 32 params.raRlen).toNat = _
    rw [BitVec.toNat_ofNat]; omega
  refine ⟨sample (zeros params.raRlen) [] 0 0 (BitVec.ofNat 32 params.raRlen) 0, t, zeros params.raRlen, ?_⟩
  unfold PermuteReady
  rw [h2]
  exact ⟨ht, by show 0 + _ ≤ _; omega, by show 0 + _ ≤ _; omega, by simp [zeros], (holds_sample _ _ _ _ _ _).1⟩

/-- At TESTCFG, with its table of length 8 for two streams and of length 6 for three, and a length without a table. -/
theorem witness_DeinterleaveMovesBits :
    PermuteReady testCfg.perm2 (sample (zeros 8) [] 0 0 8 0) (testPerm2 8) (zeros 8) ∧
    PermuteReady testCfg.perm3 (sample (zeros 6) [] 0 0 6 0) (testPerm3 6) (zeros 6) ∧
    (2048 < (sample [] [] 2041 0 8 0).operand 0 + (sample [] [] 2041 0 8 0).operand 2) ∧
    (2048 < (sample [] [] 0 2041 8 0).operand 1 + (sample [] [] 0 2041 8 0).operand 2) ∧
    findTable testCfg.perm2 6 = none ∧ findTable testCfg.perm3 8 = none := by
  refine ⟨⟨by decide, by decide, by decide, by decide, ?_⟩, ⟨by decide, by decide, by decide, by decide, ?_⟩, by decide,
    by decide, by decide, by decide⟩ <;> exact (holds_sample _ _ _ _ _ _).1

theorem witness_InterleaveMovesBits :
    PermuteReady testCfg.perm2 (sample (zeros 12) [] 0 0 12 0) (testPerm2 12) (zeros 12) ∧
    PermuteReady testCfg.perm3 (sample (zeros 12) [] 0 0 12 0) (testPerm3 12) (zeros 12) := by
  refine ⟨⟨by decide, by decide, by decide, by decide, ?_⟩, ⟨by decide, by decide, by decide, by decide, ?_⟩⟩ <;>
    exact (holds_sample _ _ _ _ _ _).1

/-- Lengths 45 and 47, a region one bit too high, and the zero word. -/
theorem witness_LcwPermutationMovesBits :
    ((sample [] [] 0 0 45 0).operand 2 ≠ 46 ∧ (sample [] [] 0 0 47 0).operand 2 ≠ 46) ∧
    ((sample [] [] 2003 0 46 0).operand 2 = 46 ∧ 2048 < (sample [] [] 2003 0 46 0).operand 0 + 46) ∧
    ((sample (zeros 46) [] 0 0 46 0).operand 2 = 46 ∧ (sample (zeros 46) [] 0 0 46 0).operand 0 + 46 ≤ 2048 ∧
      (zeros 46).length = 46 ∧ Holds (sample (zeros 46) [] 0 0 46 0).bitmem 0 (zeros 46)) :=
  ⟨by decide, by decide, ⟨by decide, by decide, by decide, (holds_sample _ _ _ _ _ _).1⟩⟩

theorem witness_InterleaveInverseLaw : testPerm2 8 ∈ testCfg.perm2 ++ testCfg.perm3 ∧
    (zeros 8).length = (testPerm2 8).perm.length ∧ (zeros 46).length = 46 := by decide

theorem witness_HammingCountsDifferences :
    (2048 < (sample [] [] 2048 0 1 0).operand 0 + (sample [] [] 2048 0 1 0).operand 2) ∧
    (2048 < (sample [] [] 0 2048 1 0).operand 1 + (sample [] [] 0 2048 1 0).operand 2) ∧
    ((zeros 8).length = 8 ∧ Holds (sample (zeros 8) [] 0 0 8 0).bitmem 0 (zeros 8)) :=
  ⟨by decide, by decide, by decide, (holds_sample _ _ _ _ _ _).1⟩

/-- 257 bytes do not fit BITMEM; no byte; one byte 0xFF. -/
theorem witness_ChecksumsOfBytes :
    (2048 < (sample [] [] 0 257 0 0).operand 0 + 8 * (sample [] [] 0 257 0 0).operand 1) ∧
    Holds (sample [] [] 0 0 0 0).bitmem 0 (([] : List (BitVec 8)).flatMap fun b => (List.range 8).map fun i => b.getLsbD (7 - i)) ∧
    Holds (sample (List.replicate 8 true) [] 0 1 0 0).bitmem 0
      ([(0xFF : BitVec 8)].flatMap fun b => (List.range 8).map fun i => b.getLsbD (7 - i)) :=
  ⟨by decide, (holds_sample [] _ _ _ _ _).1, (holds_sample (List.replicate 8 true) _ _ _ _ _).1⟩

/-- Lengths 0 and 65, a region past the end, lengths 1 and 64, on a slot present in every configuration. -/
theorem witness_BchDivGivesRemainder :
    2 ≤ polyAt 2 ∧ (sample [] [] 0 0 0 0).operand 1 < 1 ∧ 64 < (sample [] [] 0 65 0 0).operand 1 ∧
    (2048 < (sample [] [] 2048 1 0 0).operand 0 + (sample [] [] 2048 1 0 0).operand 1) ∧
    Holds (sample (zeros 1) [] 0 1 0 0).bitmem 0 (zeros 1) ∧ Holds (sample (zeros 64) [] 0 64 0 0).bitmem 0 (zeros 64) :=
  ⟨slot_two.1, by decide, by decide, by decide, (holds_sample _ _ _ _ _ _).1, (holds_sample _ _ _ _ _ _).1⟩

/-- Lengths 0 and 65, a region past the end, and 64 zeros. -/
theorem witness_BchDecodeCommandResults :
    2 ≤ polyAt 2 ∧ (sample [] [] 0 0 0 0).operand 1 ≤ deg (polyAt 2) ∧ 64 < (sample [] [] 0 65 0 0).operand 1 ∧
    (2048 < (sample [] [] 1985 64 0 0).operand 0 + (sample [] [] 1985 64 0 0).operand 1) ∧
    (deg (polyAt 2) < (sample (zeros 64) [] 0 64 0 0).operand 1 ∧ (sample (zeros 64) [] 0 64 0 0).operand 1 ≤ 64 ∧
      (zeros 64).length = 64 ∧ Holds (sample (zeros 64) [] 0 64 0 0).bitmem 0 (zeros 64)) := by
  refine ⟨slot_two.1, Nat.zero_le _, by decide, by decide, ?_, by decide, by decide, (holds_sample _ _ _ _ _ _).1⟩
  have := slot_two.2
  show _ < 64
  omega

/-- The repetition code of length 7 with 0, 1, 2 and 3 errors. -/
theorem witness_BchDecodeFindsNearestCodeword :
    (bchDecode .coeff 0b1111111 (bstr 7 0)).errs = some 0 ∧ (bchDecode .coeff 0b1111111 (bstr 7 0b0010000)).errs = some 1 ∧
    (bchDecode .coeff 0b1111111 (bstr 7 0b1000010)).errs = some 2 ∧ (bchDecode .coeff 0b1111111 (bstr 7 0b0101010)).errs = none := by
  decide +kernel

/-- The single flip of B4 and the double flip of B8. -/
theorem witness_BchFirstMatchWins :
    (bchDecode .coeff 0x769 (bstr 31 0x16716AF7)).errs = some 1 ∧ (bchDecode .coeff 0x1D (bstr 7 0b0000011)).errs = some 2 := by
  decide +kernel

/-- The repetition code of length 5, generator x^4 + x^3 + x^2 + x + 1: minimum distance 5, so 3 too. -/
theorem witness_BchGuaranteedCorrection :
    (zeros 5).length = 5 ∧ rem 0b11111 (zeros 5) = 0 ∧
    (∀ w : Bits, w.length = 5 → rem 0b11111 w = 0 → true ∈ w → 5 ≤ w.count true) := by
  have key : ∀ v : BitVec 5, rem 0b11111 (bstr 5 v.toNat) = 0 → true ∈ bstr 5 v.toNat → 5 ≤ (bstr 5 v.toNat).count true := by
    decide +kernel
  refine ⟨by decide, by decide +kernel, fun w hl hz ht => ?_⟩
  have h := key (BitVec.ofNat 5 (val w))
  rw [BitVec.toNat_ofNat, Nat.mod_eq_of_lt (hl ▸ val_lt w), show bstr 5 (val w) = w from hl ▸ bstr_val w] at h
  exact h hz ht

/-- Lengths, pad position, region, and 63 zeros with the pad at the front. -/
theorem witness_PadDecodeCommandResults :
    2 ≤ polyAt 2 ∧ (sample [] [] 0 64 0 64).operand 1 ≤ (sample [] [] 0 64 0 64).operand 3 ∧
    (2048 < (sample [] [] 0 64 1985 0).operand 2 + (sample [] [] 0 64 1985 0).operand 1) ∧
    (deg (polyAt 2) < (sample (zeros 63) [] 0 64 0 0).operand 1 ∧
      (sample (zeros 63) [] 0 64 0 0).operand 3 < (sample (zeros 63) [] 0 64 0 0).operand 1 ∧
      (zeros 63).length = 64 - 1 ∧ Holds (sample (zeros 63) [] 0 64 0 0).bitmem 0 (zeros 63)) := by
  refine ⟨slot_two.1, by decide, by decide, ?_, by decide, by decide, (holds_sample _ _ _ _ _ _).1⟩
  have := slot_two.2
  show _ < 64
  omega

theorem witness_Block32CommandResults :
    2 ≤ polyAt 2 ∧ deg (polyAt 2) < 31 ∧ (2048 < (sample [] [] 2017 0 0 0).operand 0 + 32) ∧
    (zeros 32).length = 32 ∧ Holds (sample (zeros 32) [] 0 0 0 0).bitmem 0 (zeros 32) :=
  ⟨slot_two.1, slot_two.2, by decide, by decide, (holds_sample _ _ _ _ _ _).1⟩

/-- An uncorrectable block (B22) and a correctable one (B17). -/
theorem witness_BlockParityOutcome :
    ((bstr 32 0xE91A2BD5).take 31).length = 31 ∧ (bchDecode .coeff 0x4B7 ((bstr 32 0xE91A2BD5).take 31)).errs = none ∧
    (bchDecode .coeff 0x4B7 ((bstr 32 0x0D1A2BD5).take 31)).errs = some 1 := by decide +kernel

/-- 65 blocks, a region past the end, one block and no block. -/
theorem witness_BlockSeqCommandResults :
    2 ≤ polyAt 2 ∧ deg (polyAt 2) < 31 ∧ 64 < (sample [] [] 0 65 0 0).operand 1 ∧
    (2048 < (sample [] [] 2017 1 0 0).operand 0 + 32 * (sample [] [] 2017 1 0 0).operand 1) ∧
    (zeros 32).length = 32 * (sample (zeros 32) [] 0 1 0 0).operand 1 ∧ Holds (sample (zeros 32) [] 0 1 0 0).bitmem 0 (zeros 32) ∧
    Holds (sample [] [] 0 0 0 0).bitmem 0 ([] : Bits) :=
  ⟨slot_two.1, slot_two.2, by decide, by decide, by decide, (holds_sample _ _ _ _ _ _).1, (holds_sample _ _ _ _ _ _).1⟩

/-- Lengths 16 and 256, a region past the end, and 17 zeros. -/
theorem witness_RsFix8CommandResults :
    (sample [] [] 0 16 0 0).operand 1 ≤ 16 ∧ 255 < (sample [] [] 0 256 0 0).operand 1 ∧
    (256 < (sample [] [] 250 17 0 0).operand 0 + (sample [] [] 250 17 0 0).operand 1) ∧
    (List.replicate 17 (0 : Sym)).length = 17 ∧
    Holds (sample [] (List.replicate 17 0) 0 17 0 0).symmem 0 (List.replicate 17 (0 : Sym)) :=
  ⟨by decide, by decide, by decide, by decide, (holds_sample _ _ _ _ _ _).2⟩

/-- Lengths 10 and 64, a region past the end, a symbol of 64, and symbols up to 63. -/
theorem witness_RsFix6CommandResults :
    (sample [] [] 0 10 0 0).operand 1 ≤ 10 ∧ 63 < (sample [] [] 0 64 0 0).operand 1 ∧
    (256 < (sample [] [] 246 11 0 0).operand 0 + (sample [] [] 246 11 0 0).operand 1) ∧
    (∃ v ∈ List.replicate 11 (64 : Sym), 63 < v.toNat) ∧
    Holds (sample [] (List.replicate 11 64) 0 11 0 0).symmem 0 (List.replicate 11 (64 : Sym)) ∧
    (∀ v ∈ List.replicate 11 (63 : Sym), v.toNat ≤ 63) ∧
    Holds (sample [] (List.replicate 11 63) 0 11 0 0).symmem 0 (List.replicate 11 (63 : Sym)) :=
  ⟨by decide, by decide, by decide, by decide, (holds_sample _ _ _ _ _ _).2, by decide, (holds_sample _ _ _ _ _ _).2⟩

/-- A codeword (R1), a corrected word (R3) and a failure (R5) of RS6 at TESTCFG. -/
theorem witness_RsDecodeIsSoundAndCorrectsOneSymbol :
    (rsFix (rs6Code testCfg) [1, 2, 3, 4, 5, 38, 13, 25, 34, 43, 25, 3, 49, 31, 14]).ncorr = 0 ∧
    (rsFix (rs6Code testCfg) [1, 2, 3, 4, 5, 38, 13, 25, 34, 43, 25, 3, 49, 31, 0]).ncorr = 1 ∧
    (rsFix (rs6Code testCfg) [0, 3, 2, 5, 4, 39, 13, 25, 34, 43, 25, 3, 49, 31, 14]).ok = false := by decide +kernel

/-- The codeword of R1 over a valid code, its first symbol changed by 63 and its last by 1. -/
theorem witness_one_symbol_changed :
    rsCodeOk (rs6Code testCfg) = true ∧ 2 ≤ (rs6Code testCfg).nsym ∧
    (∀ v ∈ [1, 2, 3, 4, 5, 38, 13, 25, 34, 43, 25, 3, 49, 31, 14], v < 2 ^ (rs6Code testCfg).m) ∧
    (∀ j < 10, syndrome (rs6Code testCfg)
      (rsPad (rs6Code testCfg) [1, 2, 3, 4, 5, 38, 13, 25, 34, 43, 25, 3, 49, 31, 14]) j = 0) ∧
    rsFix (rs6Code testCfg) ([1, 2, 3, 4, 5, 38, 13, 25, 34, 43, 25, 3, 49, 31, 14].modify 0 (fun v => v ^^^ 63)) =
      { ok := true, word := [1, 2, 3, 4, 5, 38, 13, 25, 34, 43, 25, 3, 49, 31, 14], ncorr := 1 } ∧
    rsFix (rs6Code testCfg) ([1, 2, 3, 4, 5, 38, 13, 25, 34, 43, 25, 3, 49, 31, 14].modify 14 (fun v => v ^^^ 1)) =
      { ok := true, word := [1, 2, 3, 4, 5, 38, 13, 25, 34, 43, 25, 3, 49, 31, 14], ncorr := 1 } := by decide +kernel

/-- An exact match, a fuzzy one (D2), and none (D1, D4). -/
theorem witness_AccessDetectionRule :
    accessDetect testCfg testCfg.accUl false = some { kind := .ul, dist := 0, off := 12 } ∧
    accessDetect testCfg (bstr 16 0b1100100011110000) true = some { kind := .dl, dist := 3, off := 12 } ∧
    accessDetect testCfg (bstr 16 0b1100100011110000) false = none ∧
    accessDetect testCfg (bstr 12 0b000000001111) true = none := by decide +kernel

/-- A region past the end, and the empty region. -/
theorem witness_AccessCommandResults :
    (2048 < (sample [] [] 2048 1 0 0).operand 0 + (sample [] [] 2048 1 0 0).operand 1) ∧
    Holds (sample [] [] 2048 0 0 0).bitmem 2048 ([] : Bits) ∧ Holds (sample (zeros 16) [] 0 16 0 0).bitmem 0 (zeros 16) :=
  ⟨by decide, fun i h => absurd h (by simp), (holds_sample _ _ _ _ _ _).1⟩

/-- No trailer, a lead-out and a filler (D6, D7). -/
theorem witness_StripRule :
    (stripTrailer testCfg (zeros 8)).kind = .none ∧ (stripTrailer testCfg (zeros 20 ++ testCfg.leadout)).kind = .leadout ∧
    (stripTrailer testCfg (zeros 20 ++ bstr 12 0b101010101001)).kind = .filler := by decide +kernel

theorem witness_StripCommandResults :
    (2048 < (sample [] [] 2048 1 0 0).operand 0 + (sample [] [] 2048 1 0 0).operand 1) ∧
    Holds (sample (zeros 16) [] 0 16 0 0).bitmem 0 (zeros 16) := ⟨by decide, (holds_sample _ _ _ _ _ _).1⟩

/-- Forced fields. -/
def force (s : State) (tag : BitVec 4) (sub : BitVec 3) : State :=
  { s with lCtrl := { harder := false, forceEn := true, forceTag := tag, forceSub := sub } }

/-- A region past the end; tags 0 and 9, sub-kind 7, a sub-kind with tag 1; tags 1 and 8 alone, tag 4 with sub-kind 6. -/
theorem witness_ClassifyCommandResults :
    (2048 < (sample [] [] 2048 1 0 0).operand 0 + (sample [] [] 2048 1 0 0).operand 1) ∧
    ((force (sample [] [] 0 0 0 0) 0 0).lCtrl.forceTag.toNat < 1 ∧ 8 < (force (sample [] [] 0 0 0 0) 9 0).lCtrl.forceTag.toNat ∧
      6 < (force (sample [] [] 0 0 0 0) 4 7).lCtrl.forceSub.toNat ∧ forced (force (sample [] [] 0 0 0 0) 1 2).lCtrl = none) ∧
    (forced (force (sample [] [] 0 0 0 0) 1 0).lCtrl = some (.ms, .none) ∧
      forced (force (sample [] [] 0 0 0 0) 8 0).lCtrl = some (.nx, .none) ∧
      forced (force (sample [] [] 0 0 0 0) 4 6).lCtrl = some (.lw, .unknown)) ∧
    Holds (sample (zeros 16) [] 0 16 0 0).bitmem 0 (zeros 16) :=
  ⟨by decide, by decide, by decide, (holds_sample _ _ _ _ _ _).1⟩

/-- No access; next-generation (D19); forced (D20); a winner (D14); too short (D15); no candidate (D17). -/
theorem witness_ClassificationCases :
    accessDetect testCfg (zeros 8) true = none ∧
    (accessDetect testCfg (testCfg.accNxul ++ List.replicate 5 true) false).map AccessMatch.kind = some .nxul ∧
    (classifyBurst testCfg .coeff (testCfg.accDl ++ zeros 20) false (some (.bc, .none))).forced = true ∧
    (winner testCfg .coeff (zeros 30) .ul false).isSome = true ∧
    (winner testCfg .coeff (zeros 20) .dl false).isNone = true ∧
    (classifyBurst testCfg .coeff (testCfg.accDl ++ bstr 32 0xDA5A0FF0 ++ zeros 32) true none).reason = .noCandidate := by
  decide +kernel

/-- Every other candidate wins some payload: D8, D10, D11, D12, D33. -/
theorem witness_winners :
    ([bstr 32 0x5A5A0FF0 ++ zeros 32, bstr 96 0x0123456789ABCDEF0F1E2D3C, zeros 96, zeros 46,
      bstr 96 0xD79D77EF2FBCEB6E7CD76D34].map fun y => (winner testCfg .coeff y .dl false).map fun w => w.2.1) =
    [some .ms, some .tl, some .bc, some .lw, some .ra] := by decide +kernel

/-- A pass-1 winner (D14), a pass-2 winner (D29) and no winner (D15). -/
theorem witness_FirstPassingCandidateWins :
    (winner testCfg .coeff (zeros 30) .ul false).map (fun w => (w.1, w.2.1)) = some (.exact, .aq) ∧
    (winner testCfg .coeff (bstr 46 0x3FC47588FB49) .dl true).map (fun w => (w.1, w.2.1)) = some (.corrected, .lw) ∧
    winner testCfg .coeff (zeros 20) .dl true = none := by decide +kernel

/-- D31 (a sync word) and D26 (sub-kind U3). -/
theorem witness_LcwSubDispatch :
    paramsValid testCfg = true ∧
    (passes testCfg .coeff .lw (bstr 46 0x3FC4778C3BC9) .dl .exact).map (refine testCfg .lw) = some (.sy, .sy) ∧
    (passes testCfg .coeff .lw (bstr 46 0x3FC47788FB49) .dl .exact).map (refine testCfg .lw) = some (.lw, .u3) :=
  ⟨testCfg_valid, by decide +kernel, by decide +kernel⟩

theorem witness_DispatchIsAFunctionOfItsBits :
    ∃ t, exec .strip (sample [] [] 0 0 0 0) = .next t ∧
      (sample [] [] 0 0 0 0).lArg = (harder (sample [] [] 0 0 0 0)).lArg ∧
      (sample [] [] 0 0 0 0).lCtrl = { sample [] [1] 0 0 0 0 with res := Vector.replicate 8 7 }.lCtrl := ⟨_, rfl, rfl, rfl⟩

end Sys2Proof.Tests
end

section
/-! The invariant of the block is kept by every step (O8): one lemma per kind of update, then per agent. -/

namespace Sys2Proof.Machine

variable {s t : State}

/-! ### Updates that keep the invariant -/

/-- The model's own fields do not enter the invariant. -/
theorem Inv.withOwn (h : Inv s) (host : List HostAction) (sched : List Agent) (reads : List Word) :
    Inv { s with host := host, sched := sched, reads := reads } :=
  ⟨h.bitmem, h.symmem, h.outbuf, h.errCode, h.busyStatus, h.busyLastOp, h.busyArg, h.busyCtrl⟩

theorem Inv.takeTurn (h : Inv s) : Inv s.takeTurn := by
  unfold State.takeTurn
  split
  · exact h.withOwn _ _ _
  · exact h

/-- A STATUS update that keeps ERRCODE and LASTOP and does not raise DONE. -/
theorem Inv.withStatus (h : Inv s) {st : Status} (hd : s.status.done = false → st.done = false)
    (he : st.errCode = s.status.errCode) (hl : st.lastOp = s.status.lastOp) : Inv { s with status := st } where
  bitmem := h.bitmem
  symmem := h.symmem
  outbuf := h.outbuf
  errCode := he ▸ h.errCode
  busyStatus := fun hb => ⟨hd (h.busyStatus hb).1, he.trans (h.busyStatus hb).2⟩
  busyLastOp := fun hb => hl.trans (h.busyLastOp hb)
  busyArg := h.busyArg
  busyCtrl := h.busyCtrl

theorem Inv.refuse (h : Inv s) : Inv s.refuse := h.withStatus id rfl rfl

theorem Inv.drop (h : Inv s) : Inv s.drop := h.withStatus id rfl rfl

theorem Inv.clearW1C (h : Inv s) (v : Word) : Inv { s with status := s.status.clearW1C v } :=
  h.withStatus (fun hd => by simp [hd]) rfl rfl

/-- While IDLE only the memories and ERRCODE are constrained. -/
theorem Inv.of_idle (he : t.eng = .idle) (hb : Memory.wf Config.bitmemBits t.bitmem)
    (hs : Memory.wf Config.symmemSyms t.symmem) (ho : Memory.wf Config.outbufWords t.outbuf)
    (hc : t.status.errCode ≤ 9) : Inv t := by
  have notBusy {P : Prop} (hbusy : t.eng = .busy) : P := nomatch he.symm.trans hbusy
  exact ⟨hb, hs, ho, hc, notBusy, notBusy, notBusy, notBusy⟩

/-- Acceptance establishes everything that holds while BUSY (10_state.md rule R49). -/
theorem Inv.accept (h : Inv s) (v : Word) : Inv (s.accept v) :=
  ⟨h.bitmem, h.symmem, h.outbuf, by simp, fun _ => ⟨rfl, rfl⟩, fun _ => rfl, fun _ => rfl, fun _ => rfl⟩

theorem Inv.fail (h : Inv s) (c : CmdError) : Inv (s.fail c) :=
  .of_idle rfl h.bitmem h.symmem h.outbuf (errorCode_le c)

/-- A region an effect of a command writes lies inside its memory, or is empty. -/
theorem Inv.finish (h : Inv s) {i : Instr} {e : Effect} (hf : Fits i s (.success e)) : Inv (s.finish e) := by
  obtain ⟨-, hb, hs, -, ho⟩ := hf
  exact .of_idle rfl (Memory.wf_writeSeq _ _ (hb.elim (.inr ·.2) (.inl ·.2)) h.bitmem)
    (Memory.wf_writeSeq _ _ (hs.elim (.inr ·.2) (.inl ·.2)) h.symmem)
    (Memory.wf_writeSeq _ _ (.inl ((Nat.zero_add _).trans_le ho)) h.outbuf) (by simp)

theorem Inv.writeCtrl (h : Inv s) (he : s.eng = .idle) (v : Word) : Inv (s.writeCtrl v) := by
  unfold State.writeCtrl
  split
  · exact .of_idle he h.bitmem h.symmem h.outbuf (by simp [Status.zero])
  · exact .of_idle he h.bitmem h.symmem h.outbuf h.errCode

theorem Inv.writeBitWord (h : Inv s) (he : s.eng = .idle) {j : Nat} (hj : j < 64) (v : Word) : Inv (s.writeBitWord j v) := by
  have hin : 32 * j + (bstr 32 v.toNat).length ≤ Config.bitmemBits := by rw [bstr_length, Config.bitmemBits]; omega
  exact .of_idle he (Memory.wf_writeSeq _ _ (.inl hin) h.bitmem) h.symmem h.outbuf h.errCode

theorem Inv.writeSymWord (h : Inv s) (he : s.eng = .idle) {j : Nat} (hj : j < 64) (v : Word) : Inv (s.writeSymWord j v) := by
  have hin : 4 * j + (symsOfWord v).length ≤ Config.symmemSyms := by
    rw [show (symsOfWord v).length = 4 from rfl, Config.symmemSyms]; omega
  exact .of_idle he h.bitmem (Memory.wf_writeSeq _ _ (.inl hin) h.symmem) h.outbuf h.errCode

/-! ### The moves of the two agents -/

theorem Inv.hostWrite (h : Inv s) (off : Offset) (size : Nat) (v : Word) : Inv (hostWrite s off size v) := by
  rcases hostWrite_cases s off size v with hw | hw | ⟨-, -, hw⟩ | ⟨-, hw⟩ |
    ⟨he, ⟨-, -, hw⟩ | ⟨-, -, hw⟩ | ⟨i, hw⟩ | ⟨j, hj, hw⟩ | ⟨j, hj, hw⟩⟩ <;> rw [hw]
  · exact h.refuse
  · exact h
  · exact h.clearW1C v
  · exact h.drop
  · exact h.writeCtrl he v
  · exact h.accept v
  · exact .of_idle he h.bitmem h.symmem h.outbuf h.errCode
  · exact h.writeBitWord he hj v
  · exact h.writeSymWord he hj v

theorem Inv.hardReset (s : State) : Inv s.hardReset :=
  .of_idle rfl (Memory.wf_nil _) (Memory.wf_nil _) (Memory.wf_nil _) (by simp [Status.zero])

theorem Inv.perform {p : Params} {a : HostAction} (h : Inv s) (hp : perform p s a = .next t) : Inv t := by
  rcases perform_next hp with ⟨off, size, v, -, rfl⟩ | ⟨off, size, v, u, -, hr, rfl⟩ | ⟨-, rfl | rfl⟩ | ⟨-, rfl⟩
  · exact h.hostWrite off size v
  · rcases hostRead_ok hr with rfl | ⟨-, rfl⟩
    · exact h.withOwn _ _ _
    · exact h.refuse.withOwn _ _ _
  · exact h.withOwn _ _ _
  · exact h.withOwn _ _ _
  · exact .hardReset s

theorem Inv.engineMove (h : Inv s) (hm : engineMove s = .next t) : Inv t := by
  rcases engineMove_outcome hm with ⟨i, e, he, rfl⟩ | ⟨c, rfl⟩
  · exact h.finish (success_fits he)
  · exact h.fail c

/-- Settles O8: whoever moves, the move keeps the invariant. -/
theorem stepKeepsInvariant : Obligations.StepKeepsInvariant := by
  intro s t h hs
  rcases step_cases s with ⟨-, -, hn⟩ | ⟨-, -, hm⟩ | ⟨a, rest, -, -, hp⟩
  · cases hn.symm.trans hs
    exact h
  · exact h.takeTurn.engineMove (hm.symm.trans hs)
  · exact (h.takeTurn.withOwn rest _ _).perform (hp.symm.trans hs)

end Sys2Proof.Machine
end

section
/-! Whose move a step is, and what it runs (O3, O4); acceptance, and the only move that starts the engine (O12, O13). -/

namespace Sys2Proof.Machine

variable {s t : State}

/-! ### The engine's turn -/

theorem engineMove_instr {i : Instr} (h : decode s.lCmd = .instr i) : engineMove s = exec i s := by
  simp only [engineMove, h]

theorem engineMove_reject {e : CmdError} (h : decode s.lCmd = .reject e) :
    engineMove s = .next (failedWith s (errorCode e)) := by
  simp only [engineMove, h, complete_error, fail_eq_failedWith]

theorem step_busy_alone (hb : s.eng = .busy) (hh : s.host = []) : step s = engineMove s := by
  rcases step_cases s with ⟨hi, -⟩ | ⟨-, -, h⟩ | ⟨a, rest, ha, -⟩
  · cases hi.symm.trans hb
  · rwa [State.takeTurn_of_host_nil s hh] at h
  · cases hh.symm.trans ha

theorem step_busy_contested (hb : s.eng = .busy) (hh : s.host ≠ []) (hc : s.sched.head? ≠ some .host) :
    step s = engineMove { s with sched := s.sched.tail } := by
  obtain ⟨a, rest, ha⟩ := List.exists_cons_of_ne_nil hh
  rcases step_cases s with ⟨hi, -⟩ | ⟨-, -, h⟩ | ⟨-, -, -, hi | hc', -⟩
  · cases hi.symm.trans hb
  · rwa [State.takeTurn_of_contested s a rest hb ha] at h
  · cases hi.symm.trans hb
  · exact absurd hc' hc

/-- Settles O3: the step is the engine's move, which runs what the latch decodes to. -/
theorem stepRunsDecodedCommand : Obligations.StepRunsDecodedCommand := fun _ hb =>
  ⟨fun _ hd =>
    ⟨fun hh => (step_busy_alone hb hh).trans (engineMove_instr hd),
      fun hh hc => (step_busy_contested hb hh hc).trans (engineMove_instr hd)⟩,
   fun _ hd =>
    ⟨fun hh => (step_busy_alone hb hh).trans (engineMove_reject hd),
      fun hh hc => (step_busy_contested hb hh hc).trans (engineMove_reject hd)⟩⟩

/-! ### The host's turn -/

theorem step_host_turn {a : HostAction} {rest : List HostAction} (hh : s.host = a :: rest)
    (ht : s.eng = .idle ∨ s.sched.head? = some .host) : step s = perform params { s.takeTurn with host := rest } a := by
  rcases step_cases s with ⟨-, hn, -⟩ | ⟨hb, hn | hc, -⟩ | ⟨a', rest', ha, -, h⟩
  · cases hn.symm.trans hh
  · cases hn.symm.trans hh
  · exact (ht.elim (fun hi => nomatch hi.symm.trans hb) hc).elim
  · cases ha.symm.trans hh
    exact h

theorem step_finished (h : s.finished) : step s = .next s := by
  obtain ⟨hn, hi⟩ := h
  rcases step_cases s with ⟨-, -, h⟩ | ⟨hb, -⟩ | ⟨a, rest, ha, -⟩
  · exact h
  · cases hi.symm.trans hb
  · cases hn.symm.trans ha

/-- Settles O4: the host's action is taken off the list, and a contested turn uses up one entry of the schedule. -/
theorem hostActsInItsTurn : Obligations.HostActsInItsTurn := by
  refine ⟨fun s a rest hh => ⟨fun hi => ?_, fun hb hc => ?_⟩, fun s h => step_finished h⟩
  · rw [step_host_turn hh (.inl hi), State.takeTurn_of_idle s hi]
  · rw [step_host_turn hh (.inr hc), State.takeTurn_of_contested s a rest hb hh]

/-! ### Acceptance -/

theorem opField_eq_setWidth (v : Word) : opField v = v.setWidth 8 :=
  (BitVec.setWidth_eq_extractLsb' (by decide)).symm

/-- Settles O13. -/
theorem acceptanceLatches : Obligations.AcceptanceLatches := fun s v hi => by
  rw [hostWrite_cmd, whenIdle_idle hi, State.accept, Status.accept, Ctrl.latch, opField_eq_setWidth]

@[simp] theorem State.writeCtrl_eng (s : State) (v : Word) : (s.writeCtrl v).eng = s.eng := by
  unfold State.writeCtrl
  split <;> rfl

/-- The one write that changes ENG is the acceptance of a command word (10_state.md rule R48). -/
theorem hostWrite_eng_or_accept (s : State) (off : Offset) (size : Nat) (v : Word) :
    (hostWrite s off size v).eng = s.eng ∨ (off = 0x00C ∧ size = 4 ∧ hostWrite s off size v = s.accept v) := by
  have same {t : State} (hw : hostWrite s off size v = t) (ht : t.eng = s.eng) :
      (hostWrite s off size v).eng = s.eng ∨ (off = 0x00C ∧ size = 4 ∧ hostWrite s off size v = s.accept v) :=
    .inl (hw ▸ ht)
  rcases hostWrite_cases s off size v with hw | hw | ⟨-, -, hw⟩ | ⟨-, hw⟩ |
    ⟨-, ⟨-, -, hw⟩ | hw | ⟨i, hw⟩ | ⟨j, -, hw⟩ | ⟨j, -, hw⟩⟩
  · exact same hw rfl
  · exact same hw rfl
  · exact same hw rfl
  · exact same hw rfl
  · exact same hw (State.writeCtrl_eng s v)
  · exact .inr hw
  · exact same hw rfl
  · exact same hw rfl
  · exact same hw rfl

/-- Settles O12: no other host action, and no idle step, changes ENG to BUSY. -/
theorem onlyCmdWriteStartsEngine : Obligations.OnlyCmdWriteStartsEngine := by
  intro s t hs hi hb
  have notBusy {P : Prop} (h : s.eng = .busy) : P := nomatch hi.symm.trans h
  rcases step_cases s with ⟨-, -, hn⟩ | ⟨hb', -⟩ | ⟨a, rest, hh, -, hp⟩
  · cases hn.symm.trans hs
    exact notBusy hb
  · exact notBusy hb'
  · rw [State.takeTurn_of_idle s hi] at hp
    rcases perform_next (hp.symm.trans hs) with ⟨off, size, v, rfl, rfl⟩ | ⟨off, size, v, u, -, hr, rfl⟩ |
      ⟨-, rfl | rfl⟩ | ⟨-, rfl⟩
    · rcases hostWrite_eng_or_accept { s with host := rest } off size v with he | ⟨rfl, rfl, hw⟩
      · exact notBusy (he.symm.trans hb)
      · exact ⟨v, rest, hh, congrArg State.lCmd hw⟩
    · rcases hostRead_ok hr with rfl | ⟨-, rfl⟩ <;> exact notBusy hb
    · exact notBusy hb
    · exact notBusy hb
    · cases hb

end Sys2Proof.Machine
end

section
/-! The registers as the host sees them: CTRL, STATUS, operands, results and the read-only ports (O17, O18, O21). -/

namespace Sys2Proof.Machine

open Sys2Proof.Claims

variable {s : State} {off : Offset}

/-! ### An access by the word it names -/

theorem hostRead_value {p : Params} {port : Port} {w : Word} (ha : off.toNat % 4 = 0) (hp : port.wordsAt (off.toNat / 4))
    (hr : port ≠ .reserved) (hv : portValue p s port = .ok w) : hostRead p s off 4 = .ok (w, s) := by
  rw [hostRead_word ha (portOf_of hp ▸ hr), portOf_of hp, hv]

theorem hostWrite_arg {i : Fin 4} (h : off.toNat = 0x010 + 4 * i.val) (s : State) (v : Word) :
    hostWrite s off 4 v = s.whenIdle { s with arg := s.arg.set i v } := by
  rw [hostWrite_word (by omega), portOf_of (p := .arg i) (show off.toNat / 4 = 4 + i.val by omega)]

theorem hostWrite_res {i : Fin 8} (h : off.toNat = 0x020 + 4 * i.val) (s : State) (v : Word) : hostWrite s off 4 v = s := by
  rw [hostWrite_word (by omega), portOf_of (p := .res i) (show off.toNat / 4 = 8 + i.val by omega)]

theorem hostWrite_poly {i : Fin 8} (h : off.toNat = 0x040 + 4 * i.val) (s : State) (v : Word) : hostWrite s off 4 v = s := by
  rw [hostWrite_word (by omega), portOf_of (p := .poly i) (show off.toNat / 4 = 16 + i.val by omega)]

theorem hostWrite_outWin {k : Nat} (hk : k < 64) (h : off.toNat = 0x300 + 4 * k) (s : State) (v : Word) :
    hostWrite s off 4 v = s := by
  rw [hostWrite_word (by omega), portOf_of (p := .outWin k) ⟨hk, by omega⟩]

/-! ### CTRL and the operands (10_state.md rules R33, R37) -/

/-- What neither the drop nor the update changes, a write that waits for IDLE leaves. -/
theorem whenIdle_keeps {α : Type} (f : State → α) {t : State} (hd : f s.drop = f s) (ht : f t = f s) :
    f (s.whenIdle t) = f s := by
  unfold State.whenIdle
  split
  · exact hd
  · exact ht

theorem writeCtrl_fields {v : Word} (h : v.getLsbD 31 = false) : s.writeCtrl v = { s with ctrl := Ctrl.ofWord v } := by
  rw [State.writeCtrl, h]; rfl

theorem writeCtrl_reset {v : Word} (h : v.getLsbD 31 = true) : s.writeCtrl v = s.softReset := if_pos h

theorem writeCtrl_lCtrl (s : State) (v : Word) : (s.writeCtrl v).lCtrl = s.lCtrl := by
  unfold State.writeCtrl
  split <;> rfl

/-- The fields stored read back under the mask of the bits that hold something (10_state.md rule R32). -/
theorem toWord_ofWord (v : Word) : (Ctrl.ofWord v).toWord = v &&& 0x000007F7 := by
  apply BitVec.eq_of_getLsbD_eq
  intro i hi
  simp only [Ctrl.toWord, Ctrl.ofWord, BitVec.getLsbD_append, BitVec.getLsbD_and, BitVec.getLsbD_extractLsb',
    BitVec.getLsbD_ofBool]
  interval_cases i <;> simp

/-- Settles O17. -/
theorem ctrlAndOperandWrites : Obligations.CtrlAndOperandWrites := by
  refine ⟨fun s v => ?_, fun s v off => ⟨fun i h => ?_, fun i h => ?_⟩⟩
  · rw [hostWrite_ctrl]
    refine ⟨fun hi hv => ?_, fun hi hv => ?_, fun hb => whenIdle_busy hb,
      whenIdle_keeps State.lCtrl rfl (writeCtrl_lCtrl s v),
      hostRead_value (port := .ctrl) (by decide) rfl nofun rfl⟩
    · exact ⟨Ctrl.ofWord v, by rw [whenIdle_idle hi, writeCtrl_fields hv], toWord_ofWord v⟩
    · rw [whenIdle_idle hi, writeCtrl_reset hv]
      exact ⟨rfl, show Ctrl.zero.toWord = 0 by decide⟩
  · rw [hostWrite_arg h]
    refine ⟨fun hi => ⟨s.arg.set i v, whenIdle_idle hi, by simp, fun j hj => ?_⟩, fun hb => whenIdle_busy hb,
      whenIdle_keeps State.lArg rfl rfl,
      hostRead_value (port := .arg i) (by omega) (show off.toNat / 4 = 4 + i.val by omega) nofun rfl⟩
    exact Vector.getElem_set_ne i.isLt j.isLt fun hij => hj (Fin.ext hij.symm)
  · exact ⟨hostWrite_res h s v,
      hostRead_value (port := .res i) (by omega) (show off.toNat / 4 = 8 + i.val by omega) nofun rfl⟩

/-! ### STATUS (10_state.md rule R35) -/

theorem clearW1C_toWord (t : Status) (v : Word) (busy : Bool) :
    (t.clearW1C v).toWord busy = t.toWord busy &&& ~~~(v &&& 0x0000001E) := by
  apply BitVec.eq_of_getLsbD_eq
  intro i hi
  simp only [Status.toWord, Status.clearW1C, BitVec.getLsbD_append, BitVec.getLsbD_and, BitVec.getLsbD_not,
    BitVec.getLsbD_ofBool]
  interval_cases i <;> simp

/-- Settles O18. -/
theorem statusWriteClearsBits : Obligations.StatusWriteClearsBits := by
  intro s v
  rw [hostWrite_status]
  exact ⟨⟨_, rfl⟩, clearW1C_toWord s.status v s.busy, hostRead_value (port := .status) (by decide) rfl nofun rfl⟩

/-! ### Read-only ports (10_state.md rules R31, R39, R40, R44) -/

/-- Adding up powers of two over the set bits gives the number with these bits. -/
theorem sum_two_pow_eq_ofBits {n : Nat} (b : Fin n → Bool) :
    ((List.finRange n).map fun i => if b i then 2 ^ i.val else 0).sum = Nat.ofBits b := by
  induction n with
  | zero => rfl
  | succ n ih =>
    have double (i : Fin n) : (if b i.succ then 2 ^ i.succ.val else 0) = 2 * if b i.succ then 2 ^ i.val else 0 := by
      split <;> simp [pow_succ']
    have tail : ((List.finRange n).map fun i => if b i.succ then 2 ^ i.val else 0).sum = Nat.ofBits (b ∘ Fin.succ) :=
      ih (b ∘ Fin.succ)
    rw [List.finRange_succ, List.map_cons, List.map_map, List.sum_cons, Nat.ofBits_succ, ← tail, ← List.sum_map_mul_left,
      Nat.add_comm]
    congr 1
    · exact congrArg List.sum (List.map_congr_left fun i _ => double i)
    · cases b 0 <;> rfl

theorem capsWord_eq (p : Params) :
    capsWord p = BitVec.ofNat 8 (Nat.ofBits (generatorPresent p)) ++ BitVec.ofNat 8 64 ++ BitVec.ofNat 16 2048 := by
  rw [← sum_two_pow_eq_ofBits, List.sum_eq_foldl_nat, List.foldl_map]
  rfl

/-- `N_MAX` and `BITMEM_BITS` in the low 24 bits. -/
theorem capsWord_low (p : Params) : (capsWord p).toNat % 2 ^ 24 = 0x400800 := by
  rw [capsWord_eq, BitVec.toNat_append, BitVec.toNat_append,
    ← Nat.shiftLeft_add_eq_or_of_lt (BitVec.isLt _), ← Nat.shiftLeft_add_eq_or_of_lt (BitVec.isLt _)]
  simp only [Nat.shiftLeft_eq, BitVec.toNat_ofNat]
  omega

/-- Bit 24 + s tells whether slot s is present. -/
theorem capsWord_present (p : Params) (slot : Fin 8) : (capsWord p).getLsbD (24 + slot.val) = generatorPresent p slot := by
  have h1 : ¬ 24 + slot.val < 16 := by omega
  have h2 : ¬ 24 + slot.val - 16 < 8 := by omega
  have h3 : 24 + slot.val - 16 - 8 = slot.val := by omega
  simp only [capsWord_eq, BitVec.getLsbD_append, h1, h2, h3, if_false, BitVec.getLsbD_ofNat, slot.isLt,
    decide_true, decide_false, Bool.true_and, Nat.testBit_ofBits_lt]

/-- Settles O21. -/
theorem readOnlyPortsRead : Obligations.ReadOnlyPortsRead := by
  intro s v
  refine ⟨hostRead_value (port := .id) (by decide) rfl nofun rfl,
    ⟨capsWord params, hostRead_value (port := .caps) (by decide) rfl nofun rfl, capsWord_low params, fun slot => ?_⟩,
    ?_, ?_, fun slot off h => ⟨?_, hostWrite_poly h s v⟩, fun k off hk h => ⟨fun w hw => ?_, hostWrite_outWin hk h s v⟩⟩
  · rw [capsWord_present, Bool.eq_iff_iff, generatorPresent_iff, decide_eq_true_iff]
    rfl
  · rw [hostWrite_word (by decide), portOf_of (p := .id) (by rfl)]
  · rw [hostWrite_word (by decide), portOf_of (p := .caps) (by rfl)]
  · exact hostRead_value (port := .poly slot) (by omega) (show off.toNat / 4 = 16 + slot.val by omega) nofun rfl
  · exact hostRead_value (port := .outWin k) (by omega) ⟨hk, by omega⟩ nofun (by simp only [portValue, hw])

end Sys2Proof.Machine
end

section
/-! What every completion leaves and raises (O23, O24, O27, O28), and the fault over an unwritten source (O22). -/

namespace Sys2Proof.Machine

open Sys2Proof.Claims

variable {s : State}

/-! ### Frames of a completion -/

/-- Settles O23. -/
theorem faultsOnlyOnUnwrittenCells : Obligations.FaultsOnlyOnUnwrittenCells := fun i s =>
  ⟨fun _ h => exec_fault h, exec_ne_refused i s⟩

/-- ERR accumulates (60_exceptions.md rule R297). -/
theorem exec_err {i : Instr} {t : State} (h : exec i s = .next t) :
    t.status.err = (s.status.err || decide (t.status.errCode ≠ 0)) := by
  rcases exec_next h with ⟨e, -, rfl⟩ | ⟨c, -, rfl⟩
  · simp
  · rw [State.fail_status, Status.complete_err, Status.complete_errCode, bne_iff_ne.2 (errorCode_ne_zero c),
      decide_eq_true (errorCode_ne_zero c)]

/-- Settles O27. -/
theorem completionFrame : Obligations.CompletionFrame := by
  intro i s t h
  obtain ⟨hi, hd⟩ := exec_next_idle h
  exact ⟨hi, hd, exec_err h, exec_keepsRest h⟩

/-- Settles O28: a success writes as many registers as the command lists, an error none. -/
theorem resultRegisterFrame : Obligations.ResultRegisterFrame := by
  intro i s t h k hk
  rcases exec_next h with ⟨e, he, rfl⟩ | ⟨c, -, rfl⟩
  · have hlen : e.res.length = resCount i := (success_fits he).1
    rw [finish_res_get, List.getD_eq_default _ _ (hlen.trans_le hk)]
  · rfl

/-! ### The interrupt line (10_state.md rule R51) -/

theorem exec_irq {i : Instr} {t : State} (h : exec i s = .next t) : t.irq = s.ctrl.irqEn := by
  rw [State.irq, (exec_keepsRest h).ctrl, (exec_next_idle h).2, Bool.and_true]

/-- Settles O24. -/
theorem irqFollowsEnableAndDone : Obligations.IrqFollowsEnableAndDone := by
  intro s v
  rw [hostWrite_cmd, hostWrite_ctrl, hostWrite_status]
  refine ⟨fun i t h => exec_irq h, fun hi => ?_, fun hi hv => ?_, fun hb => ?_, ?_⟩
  · rw [whenIdle_idle hi]
    simp [State.irq]
  · rw [whenIdle_idle hi, writeCtrl_fields hv]
    rfl
  · rw [whenIdle_busy hb]
    rfl
  · simp [State.irq, Bool.and_assoc]

/-! ### Reads over an unwritten cell (10_state.md rule R45; log entries 6, 7) -/

theorem hostRead_fault {p : Params} {off : Offset} {port : Port} {f : Fault} (ha : off.toNat % 4 = 0)
    (hp : port.wordsAt (off.toNat / 4)) (hr : port ≠ .reserved) (hv : portValue p s port = .error f) :
    hostRead p s off 4 = .error f := by
  rw [hostRead_word ha (portOf_of hp ▸ hr), portOf_of hp, hv]

/-- The outcome is UNINIT of a cell of memory `m`. -/
def Stops (m : MemKind) (r : CmdResult) : Prop := ∃ a, r = .uninit m a

theorem exec_of_stops {i : Instr} {m : MemKind} (h : Stops m (resultOf i s)) : ∃ a, exec i s = .fault (.uninit m a) := by
  obtain ⟨a, ha⟩ := h
  exact ⟨a, by rw [exec_eq_complete, ha, complete_uninit]⟩

/-- A check that passes. -/
theorem stops_ite {m : MemKind} {c : Prop} [Decidable c] {e r : CmdResult} (hc : ¬ c) (h : Stops m r) :
    Stops m (if c then e else r) := by
  rwa [if_neg hc]

/-- The region `r` of a memory, as address and length, covers a cell with a clear written mark. -/
def Unwritten {α : Type} (m : Memory α) (r : Nat × Nat) : Prop := ∃ k, k < r.2 ∧ Memory.read m (r.1 + k) = none

theorem readSeq_of_unwritten {α : Type} {m : Memory α} {a n : Nat} (h : Unwritten m (a, n)) :
    ∃ e, Memory.readSeq m a n = .error e := by
  obtain ⟨k, hk, hu⟩ := h
  exact Memory.readSeq_error_of hk hu

theorem stops_readBits {a n : Nat} (hu : Unwritten s.bitmem (a, n)) (f : Bits → CmdResult) :
    Stops .bitmem (readBits s a n f) := by
  obtain ⟨e, he⟩ := readSeq_of_unwritten hu
  exact ⟨e, by simp only [readBits, he]⟩

theorem stops_readSyms {a n : Nat} (hu : Unwritten s.symmem (a, n)) (f : List Sym → CmdResult) :
    Stops .symmem (readSyms s a n f) := by
  obtain ⟨e, he⟩ := readSeq_of_unwritten hu
  exact ⟨e, by simp only [readSyms, he]⟩

/-- A read before the one that stops either hands on or stops on the same memory. -/
theorem stops_readBits_then {a n : Nat} {f : Bits → CmdResult} (h : ∀ x, Stops .bitmem (f x)) :
    Stops .bitmem (readBits s a n f) := by
  rcases readBits_cases s a n f with ⟨x, -, -, hx⟩ | ⟨e, -, -, -, he⟩
  · rw [hx]; exact h x
  · exact ⟨e, he⟩

theorem slotOf_selOf (slot : Fin 8) : slotOf (selOf slot) = some slot := by
  revert slot
  decide

theorem stops_permute {tables : List PermTable} {f : List Nat → Bits → Bits}
    (h : s.operand 0 + s.operand 2 ≤ 2048 ∧ s.operand 1 + s.operand 2 ≤ 2048 ∧ findTable tables (s.operand 2) ≠ none)
    (hu : Unwritten s.bitmem (s.operand 0, s.operand 2)) : Stops .bitmem (permuteResult tables f s) := by
  obtain ⟨hs, hd, ht⟩ := h
  obtain ⟨t, ht⟩ := Option.ne_none_iff_exists'.1 ht
  refine stops_ite (and_iff_not_or_not.1 ⟨hs, hd⟩) ?_
  rw [ht]
  exact stops_readBits hu _

theorem stops_permuteLcw {f : List Nat → Bits → Bits}
    (h : s.operand 2 = 46 ∧ s.operand 0 + 46 ≤ 2048 ∧ s.operand 1 + 46 ≤ 2048)
    (hu : Unwritten s.bitmem (s.operand 0, 46)) : Stops .bitmem (permuteLcwResult params f s) := by
  obtain ⟨hl, hs, hd⟩ := h
  exact stops_ite (not_not_intro hl) (stops_ite (and_iff_not_or_not.1 ⟨hs, hd⟩) (stops_readBits hu _))

theorem stops_checksum {f : List (BitVec 8) → Nat} (h : s.operand 0 + 8 * s.operand 1 ≤ 2048)
    (hu : Unwritten s.bitmem (s.operand 0, 8 * s.operand 1)) : Stops .bitmem (checksumResult f s) :=
  stops_ite (not_not_intro h) (stops_readBits hu _)

/-- The forced type that CLASSIFY checks, in the words of the claims (44_dispatch.md rule R259). -/
theorem forced_passes {l : CtrlLatch} (h : l.forceEn = true → 1 ≤ l.forceTag.toNat ∧ l.forceTag.toNat ≤ 8 ∧
    l.forceSub.toNat ≤ 6 ∧ (l.forceSub.toNat = 0 ∨ l.forceTag.toNat = 4 ∨ l.forceTag.toNat = 7)) :
    ¬ (l.forceEn = true ∧ forced l = none) := by
  rintro ⟨he, hn⟩
  have h1 := h he
  have h2 := forced_eq_none.1 hn
  omega

/-- A command whose operands pass stops on an unwritten cell of any BITMEM region it reads. -/
theorem resultOf_stops_bits {i : Instr} (h : OperandsPass i s) :
    ∀ r ∈ sourceBits i s, Unwritten s.bitmem r → Stops .bitmem (resultOf i s) := by
  cases i with
  | nop => exact List.forall_mem_nil _
  | rsFix8 => exact List.forall_mem_nil _
  | rsFix6 => exact List.forall_mem_nil _
  | extract =>
    obtain ⟨hlo, hhi, hr⟩ := h
    exact List.forall_mem_singleton.2 fun hu =>
      stops_ite (by omega) (stops_ite (not_not_intro hr) (stops_readBits hu _))
  | slice =>
    obtain ⟨hlo, hhi, hr, hc⟩ := h
    exact List.forall_mem_singleton.2 fun hu =>
      stops_ite (by omega) (stops_ite (not_not_intro hr) (stops_ite (Nat.not_lt.2 hc) (stops_readBits hu _)))
  | deint2 => exact List.forall_mem_singleton.2 (stops_permute h)
  | deint3 => exact List.forall_mem_singleton.2 (stops_permute h)
  | int2 => exact List.forall_mem_singleton.2 (stops_permute h)
  | int3 => exact List.forall_mem_singleton.2 (stops_permute h)
  | deintlcw => exact List.forall_mem_singleton.2 (stops_permuteLcw h)
  | intlcw => exact List.forall_mem_singleton.2 (stops_permuteLcw h)
  | cksum8 => exact List.forall_mem_singleton.2 (stops_checksum (f := fun bs => (params.cksum8 bs).toNat) h)
  | cksum16 => exact List.forall_mem_singleton.2 (stops_checksum (f := fun bs => (params.cksum16 bs).toNat) h)
  | hamming =>
    obtain ⟨ha, hb⟩ := h
    have hr := and_iff_not_or_not.1 ⟨ha, hb⟩
    exact List.forall_mem_cons.2 ⟨fun hu => stops_ite hr (stops_readBits hu _),
      List.forall_mem_singleton.2 fun hu => stops_ite hr (stops_readBits_then fun _ => stops_readBits hu _)⟩
  | bchDiv sel =>
    obtain ⟨slot, rfl, hp, hlo, hhi, hr⟩ := h
    refine List.forall_mem_singleton.2 fun hu => ?_
    rw [resultOf, bchDivResult, withPoly_present (slotOf_selOf slot) hp]
    exact stops_ite (not_or.2 ⟨Nat.not_lt.2 hlo, Nat.not_lt.2 hhi⟩) (stops_ite (not_not_intro hr) (stops_readBits hu _))
  | bchDecode sel =>
    obtain ⟨slot, rfl, hp, hlo, hhi, hs, hd⟩ := h
    refine List.forall_mem_singleton.2 fun hu => ?_
    rw [resultOf, bchDecodeResult, withPoly_present (slotOf_selOf slot) hp]
    exact stops_ite (not_or.2 ⟨Nat.not_le.2 hlo, Nat.not_lt.2 hhi⟩)
      (stops_ite (and_iff_not_or_not.1 ⟨hs, hd⟩) (stops_readBits hu _))
  | bchDecode2p sel =>
    obtain ⟨slot, rfl, hp, hlo, hhi, hpad, hs, hd⟩ := h
    refine List.forall_mem_singleton.2 fun hu => ?_
    rw [resultOf, bchDecode2pResult, withPoly_present (slotOf_selOf slot) hp]
    exact stops_ite (not_or.2 ⟨Nat.not_le.2 hlo, not_or.2 ⟨Nat.not_lt.2 hhi, Nat.not_lt.2 (Nat.le_pred_of_lt hpad)⟩⟩)
      (stops_ite (and_iff_not_or_not.1 ⟨hs, hd⟩) (stops_readBits hu _))
  | bchBlock32 sel =>
    obtain ⟨slot, rfl, hp, hdeg, hs, hd⟩ := h
    refine List.forall_mem_singleton.2 fun hu => ?_
    rw [resultOf, bchBlock32Result, withPoly_present (slotOf_selOf slot) hp]
    exact stops_ite (Nat.not_le.2 hdeg)
      (stops_ite (and_iff_not_or_not.1 ⟨hs, hd⟩) (stops_readBits hu _))
  | bchBlockseq sel =>
    obtain ⟨slot, rfl, hp, hdeg, hhi, hs, hd⟩ := h
    refine List.forall_mem_singleton.2 fun hu => ?_
    rw [resultOf, bchBlockseqResult, withPoly_present (slotOf_selOf slot) hp]
    exact stops_ite (not_or.2 ⟨Nat.not_le.2 hdeg, Nat.not_lt.2 hhi⟩)
      (stops_ite (and_iff_not_or_not.1 ⟨hs, hd⟩) (stops_readBits hu _))
  | access => exact List.forall_mem_singleton.2 fun hu => stops_ite (not_not_intro h) (stops_readBits hu _)
  | strip => exact List.forall_mem_singleton.2 fun hu => stops_ite (not_not_intro h) (stops_readBits hu _)
  | classify =>
    obtain ⟨hr, hf⟩ := h
    exact List.forall_mem_singleton.2 fun hu =>
      stops_ite (not_not_intro hr) (stops_ite (forced_passes hf) (stops_readBits hu _))

/-- A command whose operands pass stops on an unwritten cell of the SYMMEM region it reads. -/
theorem resultOf_stops_syms {i : Instr} (h : OperandsPass i s) :
    ∀ r ∈ sourceSyms i s, Unwritten s.symmem r → Stops .symmem (resultOf i s) := by
  cases i
  case rsFix8 =>
    obtain ⟨hlo, hhi, hs, hd⟩ := h
    exact List.forall_mem_singleton.2 fun hu => stops_ite (by omega)
      (stops_ite (and_iff_not_or_not.1 ⟨hs, hd⟩) (stops_readSyms hu _))
  case rsFix6 =>
    obtain ⟨hlo, hhi, hs, hd⟩ := h
    exact List.forall_mem_singleton.2 fun hu => stops_ite (by omega)
      (stops_ite (and_iff_not_or_not.1 ⟨hs, hd⟩) (stops_readSyms hu _))
  all_goals exact List.forall_mem_nil _

/-- A window read stops on an unwritten cell of its word. -/
theorem hostRead_bitWin_fault {j : Nat} {off : Offset} (hj : j < 64) (h : off.toNat = 0x100 + 4 * j)
    (hu : Unwritten s.bitmem (32 * j, 32)) : ∃ a, hostRead params s off 4 = .error (.uninit .bitmem a) := by
  obtain ⟨e, he⟩ := readSeq_of_unwritten hu
  exact ⟨e, hostRead_fault (port := .bitWin j) (by omega) ⟨hj, by omega⟩ nofun (by simp only [portValue, he])⟩

theorem hostRead_symWin_fault {j : Nat} {off : Offset} (hj : j < 64) (h : off.toNat = 0x200 + 4 * j)
    (hu : Unwritten s.symmem (4 * j, 4)) : ∃ a, hostRead params s off 4 = .error (.uninit .symmem a) := by
  obtain ⟨e, he⟩ := readSeq_of_unwritten hu
  exact ⟨e, hostRead_fault (port := .symWin j) (by omega) ⟨hj, by omega⟩ nofun (by simp only [portValue, he])⟩

theorem hostRead_outWin_fault {j : Nat} {off : Offset} (hj : j < 64) (h : off.toNat = 0x300 + 4 * j)
    (hu : Memory.read s.outbuf j = none) : hostRead params s off 4 = .error (.uninit .outbuf j) :=
  hostRead_fault (port := .outWin j) (by omega) ⟨hj, by omega⟩ nofun (by simp only [portValue, hu])

/-- Settles O22. -/
theorem unwrittenReadsFault : Obligations.UnwrittenReadsFault :=
  ⟨fun _ _ _ hj => ⟨hostRead_bitWin_fault hj, hostRead_symWin_fault hj, hostRead_outWin_fault hj⟩,
   fun _ _ _ _ k h hk =>
    ⟨fun hm hu => exec_of_stops (resultOf_stops_bits h _ hm ⟨k, hk, hu⟩),
      fun hm hu => exec_of_stops (resultOf_stops_syms h _ hm ⟨k, hk, hu⟩)⟩⟩

end Sys2Proof.Machine
end

section
/-! Host accesses by port: refused, ignored and dropped ones, repeated reads, and the packings of the two windows
(O14, O15, O16, O19, O20). -/

namespace Sys2Proof.Machine

variable {s : State} {off : Offset}

/-! ### Writes by range of offsets -/

/-- The writes that wait for IDLE: CTRL, CMD, ARG and the BITMEM and SYMMEM windows (20_memory.md rule R98). -/
theorem hostWrite_busy_eq_drop (hb : s.eng = .busy) (ha : off.toNat % 4 = 0)
    (h : off.toNat = 0x004 ∨ off.toNat = 0x00C ∨ (0x010 ≤ off.toNat ∧ off.toNat < 0x020) ∨
      (0x100 ≤ off.toNat ∧ off.toNat < 0x300)) (v : Word) : hostWrite s off 4 v = s.drop := by
  rw [hostWrite_word ha]
  have hp := portOf_wordsAt off
  cases hq : portOf off <;> simp only [hq, Port.wordsAt] at hp
  case ctrl => exact whenIdle_busy hb
  case cmd => exact whenIdle_busy hb
  case arg => exact whenIdle_busy hb
  case bitWin => exact whenIdle_busy hb
  case symWin => exact whenIdle_busy hb
  all_goals omega

/-- The read-only ports ID, RES, POLY, CAPS and OUTBUF (20_memory.md rule R87). -/
theorem hostWrite_readOnly (ha : off.toNat % 4 = 0)
    (h : off.toNat = 0x000 ∨ (0x020 ≤ off.toNat ∧ off.toNat < 0x064) ∨ 0x300 ≤ off.toNat) (s : State) (v : Word) :
    hostWrite s off 4 v = s := by
  rw [hostWrite_word ha]
  have hp := portOf_wordsAt off
  cases hq : portOf off <;> simp only [hq, Port.wordsAt] at hp
  case id => rfl
  case res => rfl
  case poly => rfl
  case caps => rfl
  case outWin => rfl
  all_goals omega

theorem portOf_reserved_iff : portOf off = .reserved ↔ 0x064 ≤ off.toNat ∧ off.toNat < 0x100 := by
  rw [portOf_eq_iff, Port.wordsAt]
  omega

theorem hostWrite_reserved (ha : off.toNat % 4 = 0) (hr : portOf off = .reserved) (s : State) (v : Word) :
    hostWrite s off 4 v = s.refuse := by
  rw [hostWrite_word ha, hr]

/-! ### Reads -/

/-- A read of a port the block has answers with the port's value and changes nothing. -/
theorem hostRead_ok_iff {p : Params} {t : State} {w : Word} (ha : off.toNat % 4 = 0) (hr : portOf off ≠ .reserved) :
    hostRead p s off 4 = .ok (w, t) ↔ portValue p s (portOf off) = .ok w ∧ t = s := by
  rw [hostRead_word ha hr]
  cases portValue p s (portOf off) with
  | ok v => simp [eq_comm]
  | error e => simp

/-- STATUS is the only port whose value depends on ENG. -/
theorem portValue_setEng {port : Port} (h : port ≠ .status) (p : Params) (s : State) (e : Engine) :
    portValue p { s with eng := e } port = portValue p s port := by
  cases port
  case status => exact absurd rfl h
  all_goals rfl

/-- Settles O14: by the range of the offset, and for a read because the port's value does not depend on ENG. -/
theorem busyWritesAreDropped : Obligations.BusyWritesAreDropped := by
  intro s off hb ha
  refine ⟨fun v => ⟨fun h => hostWrite_busy_eq_drop hb ha h v, fun h => ?_, fun h => hostWrite_readOnly ha h s v⟩,
    fun hs hoff w hw => ?_⟩
  · rw [hostWrite_word ha, portOf_of (p := .status) (show off.toNat / 4 = 2 by omega)]
  · have hr : portOf off ≠ .reserved := by rw [Ne, portOf_reserved_iff]; omega
    have hst : portOf off ≠ .status := by rw [Ne, portOf_eq_iff, Port.wordsAt]; omega
    obtain ⟨hv, -⟩ := (hostRead_ok_iff ha hr).1 hw
    exact (hostRead_ok_iff ha hr).2 ⟨(portValue_setEng hst params s .idle).symm.trans hv, rfl⟩

/-- Settles O15. -/
theorem refusedAndIgnoredAccesses : Obligations.RefusedAndIgnoredAccesses := by
  intro s off size v
  refine ⟨fun h => ?_, fun ha h => hostWrite_readOnly ha h s v, hostRead_value (port := .cmd) (by decide) rfl nofun rfl⟩
  rw [← portOf_reserved_iff] at h
  refine ⟨?_, hostRead_refused (or_left_comm.1 h)⟩
  by_cases hm : size ≠ 4 ∨ off.toNat % 4 ≠ 0
  · exact hostWrite_refused hm
  · obtain ⟨rfl, ha⟩ : size = 4 ∧ off.toNat % 4 = 0 := by omega
    exact hostWrite_reserved ha (by simpa [ha] using h) s v

/-- Settles O16: a refused read is refused again and BUSERR is set already; any other leaves the state as it was. -/
theorem readsAreIdempotent : Obligations.ReadsAreIdempotent := by
  intro s t off size w h
  refine ⟨hostRead_ok h, ?_⟩
  rcases hostRead_cases params s off size with ⟨hc, hr⟩ | ⟨-, -, -, ⟨v, -, hv⟩ | ⟨e, -, he⟩⟩
  · cases h.symm.trans hr
    exact hostRead_refused hc
  · cases h.symm.trans hv
    exact h
  · cases h.symm.trans he

/-! ### The BITMEM window (20_memory.md rule R83) -/

theorem Memory.read_writeSeq_add {α : Type} {vs : List α} {k : Nat} (hk : k < vs.length) (m : Memory α) (a : Nat) :
    Memory.read (Memory.writeSeq m a vs) (a + k) = vs[k]? := by
  rw [Memory.writeSeq_holds m a vs k hk, List.getElem?_eq_getElem hk]

theorem bstr_getElem?_word (v : Word) {k : Nat} (hk : k < 32) : (bstr 32 v.toNat)[k]? = some (v.getLsbD (31 - k)) := by
  have hk' : k < (bstr 32 v.toNat).length := by rwa [bstr_length]
  rw [List.getElem?_eq_getElem hk', bstr_getElem]
  rfl

/-- The bits of a window word, packed and unpacked. -/
theorem bstr_wordOf_val {x : Bits} (h : x.length = 32) : bstr 32 (wordOf (val x)).toNat = x := by
  rw [val_toNat_of_length h.le, ← h, bstr_val]

theorem hostWrite_bitWin {j : Nat} (hj : j < 64) (h : off.toNat = 0x100 + 4 * j) (s : State) (v : Word) :
    hostWrite s off 4 v = s.whenIdle (s.writeBitWord j v) := by
  rw [hostWrite_word (by omega), portOf_of (p := .bitWin j) ⟨hj, by omega⟩]

theorem hostRead_bitWin {j : Nat} {x : Bits} (hj : j < 64) (h : off.toNat = 0x100 + 4 * j) (hl : x.length = 32)
    (hx : Holds s.bitmem (32 * j) x) : hostRead params s off 4 = .ok (wordOf (val x), s) :=
  hostRead_value (port := .bitWin j) (by omega) ⟨hj, by omega⟩ nofun
    (by simp only [portValue, Memory.readSeq_of_holds hl hx])

/-- Settles O19. -/
theorem bitWindowPacking : Obligations.BitWindowPacking := by
  intro s j off hj h
  refine ⟨fun x hl hx => ⟨wordOf (val x), hostRead_bitWin hj h hl hx, fun k hk => ?_⟩,
    fun hi v => ⟨Memory.writeSeq s.bitmem (32 * j) (bstr 32 v.toNat), ?_, fun k hk => ?_, ?_⟩⟩
  · rw [← bstr_getElem?_word _ hk, bstr_wordOf_val hl]
  · rw [hostWrite_bitWin hj h, whenIdle_idle hi, State.writeBitWord]
  · rw [Memory.read_writeSeq_add (by rwa [bstr_length]), bstr_getElem?_word v hk]
  · simpa only [bstr_length] using Memory.writeSeq_sameOutside s.bitmem (32 * j) (bstr 32 v.toNat)

/-! ### The SYMMEM window (20_memory.md rule R84) -/

theorem symsOfWord_getElem? (v : Word) {k : Nat} (hk : k < 4) :
    (symsOfWord v)[k]? = some (v.extractLsb' (8 * k) 8) := by
  interval_cases k <;> rfl

/-- The symbols of a window word, packed and unpacked. -/
theorem symsOfWord_wordOfSyms {x : List Sym} (h : x.length = 4) : symsOfWord (wordOfSyms x) = x := by
  obtain ⟨a, b, c, d, rfl⟩ := List.length_eq_four.1 h
  have ha := a.isLt
  have hb := b.isLt
  have hc := c.isLt
  have hd := d.isLt
  simp only [symsOfWord, wordOfSyms, List.foldr_cons, List.foldr_nil, List.cons.injEq, and_true]
  refine ⟨?_, ?_, ?_, ?_⟩ <;> apply BitVec.eq_of_toNat_eq <;>
    simp only [BitVec.extractLsb'_toNat, wordOf_toNat, Nat.shiftRight_eq_div_pow] <;> omega

theorem hostWrite_symWin {j : Nat} (hj : j < 64) (h : off.toNat = 0x200 + 4 * j) (s : State) (v : Word) :
    hostWrite s off 4 v = s.whenIdle (s.writeSymWord j v) := by
  rw [hostWrite_word (by omega), portOf_of (p := .symWin j) ⟨hj, by omega⟩]

theorem hostRead_symWin {j : Nat} {x : List Sym} (hj : j < 64) (h : off.toNat = 0x200 + 4 * j) (hl : x.length = 4)
    (hx : Holds s.symmem (4 * j) x) : hostRead params s off 4 = .ok (wordOfSyms x, s) :=
  hostRead_value (port := .symWin j) (by omega) ⟨hj, by omega⟩ nofun
    (by simp only [portValue, Memory.readSeq_of_holds hl hx])

/-- Settles O20. -/
theorem symWindowPacking : Obligations.SymWindowPacking := by
  intro s j off hj h
  refine ⟨fun x hl hx => ⟨wordOfSyms x, hostRead_symWin hj h hl hx, fun k hk => ?_⟩,
    fun hi v => ⟨Memory.writeSeq s.symmem (4 * j) (symsOfWord v), ?_, fun k hk => ?_,
      Memory.writeSeq_sameOutside s.symmem (4 * j) (symsOfWord v)⟩⟩
  · rw [← symsOfWord_getElem? _ hk, symsOfWord_wordOfSyms hl]
  · rw [hostWrite_symWin hj h, whenIdle_idle hi, State.writeSymWord]
  · rw [Memory.read_writeSeq_add (show k < (symsOfWord v).length from hk), symsOfWord_getElem? v hk]

end Sys2Proof.Machine
end

section
/-! The command word: decoding inverts encoding (O1, O2), and the words that name no command, an illegal opcode, or an
absent slot (O5, O6). -/

namespace Sys2Proof.Machine

open Sys2Proof.Claims
open Sys2Proof.Laws.Encoding (opField_encode selField_encode reservedField_encode)

variable {v : Word} {i : Instr} {op : BitVec 8} {sel : BitVec 4} {s : State}

/-! ### The fields of a word (30_encoding.md rule R100) -/

theorem opField_toNat (v : Word) : (opField v).toNat = v.toNat % 256 := by
  simp [opField, BitVec.extractLsb'_toNat]

theorem selField_toNat (v : Word) : (selField v).toNat = v.toNat / 256 % 16 := by
  simp [selField, BitVec.extractLsb'_toNat, Nat.shiftRight_eq_div_pow]

theorem reservedField_toNat (v : Word) : (reservedField v).toNat = v.toNat / 4096 := by
  have hv := v.isLt
  simp only [reservedField, BitVec.extractLsb'_toNat, Nat.shiftRight_eq_div_pow]
  omega

/-- The three fields are the whole word. -/
theorem word_ext {w : Word} (ho : opField v = opField w) (hs : selField v = selField w)
    (hr : reservedField v = reservedField w) : v = w := by
  apply BitVec.eq_of_toNat_eq
  have ho := congrArg BitVec.toNat ho
  have hs := congrArg BitVec.toNat hs
  have hr := congrArg BitVec.toNat hr
  rw [opField_toNat, opField_toNat] at ho
  rw [selField_toNat, selField_toNat] at hs
  rw [reservedField_toNat, reservedField_toNat] at hr
  omega

theorem encode_eq_iff : encode i = v ↔ opField v = i.opcode ∧ selField v = i.sel ∧ reservedField v = 0 := by
  constructor
  · rintro rfl
    exact ⟨opField_encode i, selField_encode i, reservedField_encode i⟩
  · rintro ⟨ho, hs, hr⟩
    exact word_ext ((opField_encode i).trans ho.symm) ((selField_encode i).trans hs.symm)
      ((reservedField_encode i).trans hr.symm)

/-! ### The opcode map (30_encoding.md rules R102, R105) -/

theorem commandOf_opcode (i : Instr) : commandOf i.opcode i.sel = some i := by
  cases i <;> rfl

theorem opcode_of_commandOf (h : commandOf op sel = some i) : i.opcode = op := by
  unfold commandOf at h
  split at h <;> cases h <;> exact BitVec.eq_of_toNat_eq (Eq.symm ‹_›)

theorem commandOf_eq_none_iff : commandOf op sel = none ↔ op.toNat ∉ legalOps := by
  unfold commandOf
  split <;> simp_all [legalOps]

/-- Only a BCH command carries the SEL field. -/
theorem sel_of_commandOf (h : commandOf op sel = some i) : i.sel = if op.toNat ∈ bchOps then sel else 0 := by
  unfold commandOf at h
  split at h <;> cases h <;> simp [Instr.sel, bchOps, *]

theorem exists_commandOf (h : op.toNat ∈ legalOps) (sel : BitVec 4) : ∃ i, commandOf op sel = some i :=
  Option.ne_none_iff_exists'.1 fun hn => commandOf_eq_none_iff.1 hn h

theorem bchOps_subset_legalOps : bchOps ⊆ legalOps := by decide

theorem wellFormed_iff : i.wellFormed = true ↔ i.sel.toNat < 8 := by
  rw [Instr.wellFormed, decide_eq_true_iff, BitVec.lt_def]
  rfl

/-! ### The decoder, an equation per answer (30_encoding.md rules R101 to R103) -/

theorem decode_illegal (h : v.toNat % 256 ∉ legalOps) : decode v = .reject .illegalOp := by
  rw [← opField_toNat, ← commandOf_eq_none_iff (sel := selField v)] at h
  simp only [decode, h]

theorem decode_of_commandOf (hc : commandOf (opField v) (selField v) = some i) : decode v =
    if reservedField v = 0 ∧ selField v = i.sel ∧ i.wellFormed = true then .instr i else .reject .reservedBits := by
  simp only [decode, hc]

theorem decode_eq_instr_iff : decode v = .instr i ↔
    commandOf (opField v) (selField v) = some i ∧ reservedField v = 0 ∧ selField v = i.sel ∧ i.wellFormed = true := by
  constructor
  · intro h
    cases hc : commandOf (opField v) (selField v) with
    | none => simp only [decode, hc, reduceCtorEq] at h
    | some j =>
      rw [decode_of_commandOf hc] at h
      split at h
      · cases h
        exact ⟨rfl, ‹_›⟩
      · cases h
  · rintro ⟨hc, hf⟩
    rw [decode_of_commandOf hc, if_pos hf]

/-- Settles O1: the fields fix the word, and the opcode map inverts the opcodes. -/
theorem decodeExactlyInvertsEncode : Obligations.DecodeExactlyInvertsEncode := by
  intro v i
  rw [decode_eq_instr_iff, encode_eq_iff]
  constructor
  · rintro ⟨hc, hr, hs, hw⟩
    exact ⟨hw, (opcode_of_commandOf hc).symm, hs, hr⟩
  · rintro ⟨hw, ho, hs, hr⟩
    exact ⟨by rw [ho, hs, commandOf_opcode], hr, hs, hw⟩

/-- Settles O2: the decoder evaluates to the listed answers. -/
theorem sampleWordsDecode : Obligations.SampleWordsDecode := by
  unfold Obligations.SampleWordsDecode
  decide

/-! ### Words that complete with an error (30_encoding.md rules R101 to R103) -/

theorem engineMove_illegal (h : s.lCmd.toNat % 256 ∉ legalOps) : engineMove s = .next (failedWith s 0x01) :=
  engineMove_reject (decode_illegal h)

theorem engineMove_reserved (hl : s.lCmd.toNat % 256 ∈ legalOps)
    (hf : ∀ i, commandOf (opField s.lCmd) (selField s.lCmd) = some i →
      ¬ (reservedField s.lCmd = 0 ∧ selField s.lCmd = i.sel ∧ i.wellFormed = true)) :
    engineMove s = .next (failedWith s 0x02) := by
  rw [← opField_toNat] at hl
  obtain ⟨i, hi⟩ := exists_commandOf hl (selField s.lCmd)
  exact engineMove_reject ((decode_of_commandOf hi).trans (if_neg (hf i hi)))

/-- A BCH command checks its slot before anything else (10_state.md rule R39). -/
theorem resultOf_noPoly {slot : Fin 8} (hb : i.opcode.toNat ∈ bchOps) (hs : i.sel = selOf slot) (hp : polyAt slot < 2) :
    resultOf i s = .error .noPoly := by
  have absent (k : Nat → CmdResult) : withPoly params i.sel k = .error .noPoly :=
    withPoly_absent (hs ▸ slotOf_selOf slot) hp k
  cases i
  case bchDiv => rw [resultOf, bchDivResult]; exact absent _
  case bchDecode => rw [resultOf, bchDecodeResult]; exact absent _
  case bchDecode2p => rw [resultOf, bchDecode2pResult]; exact absent _
  case bchBlock32 => rw [resultOf, bchBlock32Result]; exact absent _
  case bchBlockseq => rw [resultOf, bchBlockseqResult]; exact absent _
  all_goals exact absurd hb (by decide)

theorem engineMove_noPoly {slot : Fin 8} (hb : s.lCmd.toNat % 256 ∈ bchOps) (hr : s.lCmd.toNat / 4096 = 0)
    (hs : s.lCmd.toNat / 256 % 16 = slot.val) (hp : polyAt slot < 2) : engineMove s = .next (failedWith s 0x05) := by
  rw [← opField_toNat] at hb
  obtain ⟨i, hi⟩ := exists_commandOf (bchOps_subset_legalOps hb) (selField s.lCmd)
  have hsel : i.sel = selField s.lCmd := (sel_of_commandOf hi).trans (if_pos hb)
  have hslot : (selField s.lCmd).toNat = slot.val := (selField_toNat _).trans hs
  have hres : reservedField s.lCmd = 0 := BitVec.eq_of_toNat_eq ((reservedField_toNat _).trans hr)
  have hw : i.wellFormed = true := wellFormed_iff.2 (by rw [hsel, hslot]; exact slot.isLt)
  have hd : decode s.lCmd = .instr i := decode_eq_instr_iff.2 ⟨hi, hres, hsel.symm, hw⟩
  have hn : resultOf i s = .error .noPoly :=
    resultOf_noPoly (by rwa [opcode_of_commandOf hi])
      (hsel.trans (BitVec.eq_of_toNat_eq (by rw [hslot, selOf, BitVec.toNat_ofNat]; omega))) hp
  rw [engineMove_instr hd, exec_eq_complete, hn, complete_error, fail_eq_failedWith]
  rfl

/-- Settles O5: the illegal word is latched by the write like any other. -/
theorem illegalOpcodeCompletesWithError : Obligations.IllegalOpcodeCompletesWithError := by
  intro s v hi hv
  rw [hostWrite_cmd, whenIdle_idle hi]
  exact ⟨rfl, rfl, engineMove_illegal hv⟩

/-- Settles O6: each clause breaks one condition of the decoder, the last one the slot check of the command. -/
theorem reservedBitsAndSelectorErrors : Obligations.ReservedBitsAndSelectorErrors := by
  rintro s op sel high rfl rfl rfl
  refine ⟨engineMove_illegal, fun hl hh => engineMove_reserved hl ?_,
    fun hb hs => engineMove_reserved (bchOps_subset_legalOps hb) ?_, fun hl hb hs => engineMove_reserved hl ?_,
    fun hb hr slot hs hp => engineMove_noPoly hb hr hs hp⟩
  · rintro i - ⟨hr, -⟩
    exact hh (by rw [← reservedField_toNat, hr]; rfl)
  · rintro i - ⟨-, hsel, hw⟩
    rw [wellFormed_iff, ← hsel, selField_toNat] at hw
    exact absurd hs (Nat.not_le.2 hw)
  · rintro i hi ⟨-, hsel, -⟩
    rw [← opField_toNat] at hb
    exact hs (by rw [← selField_toNat, hsel, sel_of_commandOf hi, if_neg hb]; rfl)

end Sys2Proof.Machine
end

section
/-! What a command leaves of the three memories (O29). -/

namespace Sys2Proof.Machine

open Sys2Proof.Claims

/-- Writing the destination region, or nothing when there is none, keeps the cells outside it. -/
theorem Memory.read_writeSeq_of_outside {α : Type} {vs : List α} {a b : Nat} {region : Option (Nat × Nat)}
    (hd : (region = none ∧ vs = []) ∨ region = some (a, vs.length))
    (hb : ∀ d n, region = some (d, n) → ¬ (d ≤ b ∧ b < d + n)) (m : Memory α) :
    Memory.read (Memory.writeSeq m a vs) b = Memory.read m b := by
  rcases hd with ⟨-, rfl⟩ | hd
  · rfl
  · exact Memory.writeSeq_sameOutside m a vs b (hb a vs.length hd)

/-- Settles O29: a success writes the destinations its command lists, an error nothing. -/
theorem memoryFrame : Obligations.MemoryFrame := by
  intro i s t h
  rcases exec_next h with ⟨e, he, rfl⟩ | ⟨c, -, rfl⟩
  · obtain ⟨-, hbits, hsyms, hout, -⟩ := success_fits he
    refine ⟨fun b hb => ?_, fun b hb => ?_, fun b hb => ?_⟩
    · exact Memory.read_writeSeq_of_outside (hbits.imp_right And.left) hb s.bitmem
    · exact Memory.read_writeSeq_of_outside (hsyms.imp_right And.left) hb s.symmem
    · exact Memory.writeSeq_sameOutside s.outbuf 0 e.out b (by omega)
  · exact ⟨fun _ _ => rfl, fun _ _ => rfl, fun _ _ => rfl⟩

end Sys2Proof.Machine
end

section
/-! NOP, and the words with OP 0 that are not NOP (O30). -/

namespace Sys2Proof.Machine

open Sys2Proof.Claims

variable {s : State}

theorem exec_nop (s : State) : exec .nop s = .next (doneState s) := by
  rw [exec_eq_complete, resultOf, complete_success, finish_empty]

/-- A bit above OP lies in SEL, which only a BCH command reads, or in the reserved bits (30_encoding.md rule R102). -/
theorem engineMove_reserved_of_upper_ne_zero (hl : s.lCmd.toNat % 256 ∈ legalOps) (hb : s.lCmd.toNat % 256 ∉ bchOps)
    (hu : s.lCmd.toNat / 256 ≠ 0) : engineMove s = .next (failedWith s 0x02) := by
  obtain ⟨-, reserved, -, selector, -⟩ := reservedBitsAndSelectorErrors s _ _ _ rfl rfl rfl
  by_cases hsel : s.lCmd.toNat / 256 % 16 = 0
  · have hhigh : s.lCmd.toNat / 4096 ≠ 0 := by omega
    exact reserved hl hhigh
  · exact selector hl hb hsel

/-- Settles O30: OP 0 is legal and takes no SEL, so every other bit has to be 0. -/
theorem nopCompletes : Obligations.NopCompletes :=
  ⟨exec_nop, fun s h0 hu =>
    engineMove_reserved_of_upper_ne_zero (h0.symm ▸ by decide) (h0.symm ▸ by decide) hu⟩

end Sys2Proof.Machine
end

section
/-! How a command completes, given its outcome: with an error, with result registers only, with a string in BITMEM. -/

namespace Sys2Proof.Machine

variable {i : Instr} {s t : State} {ws : List Word}

theorem exec_of_error {c : CmdError} {code : BitVec 8} (h : resultOf i s = .error c) (hc : errorCode c = code) :
    exec i s = .next (failedWith s code) := by
  rw [exec_eq_complete, h, complete_error, fail_eq_failedWith, hc]

theorem exec_of_success {e : Effect} (h : resultOf i s = .success e) : exec i s = .next (s.finish e) := by
  rw [exec_eq_complete, h, complete_success]

theorem Succeeds.res_zero {w : Word} (h : Succeeds s t (w :: ws)) : t.res[0] = w := h.res 0

theorem Succeeds.res_one {v w : Word} (h : Succeeds s t (v :: w :: ws)) : t.res[1] = w := h.res 1

/-- A command that writes result registers only. -/
theorem exec_of_res (h : resultOf i s = .success { res := ws }) :
    ∃ t, exec i s = .next t ∧ Succeeds s t ws ∧ KeepsBits s t ∧ KeepsSyms s t ∧ KeepsOut s t :=
  ⟨_, exec_of_success h, finish_succeeds s _, finish_keepsBits s _ rfl, finish_keepsSyms s _ rfl, finish_keepsOut s _ rfl⟩

/-- `t` is `s` after a success that leaves `ws` in the result registers and puts `y` at `dst`, and changes no other cell. -/
structure Stores (s t : State) (ws : List Word) (dst : Nat) (y : Bits) : Prop where
  succeeds : Succeeds s t ws
  holds : Holds t.bitmem dst y
  outside : SameOutside s.bitmem t.bitmem dst y.length
  syms : KeepsSyms s t
  out : KeepsOut s t

/-- A command that writes result registers and one string of BITMEM. -/
theorem exec_of_bits {dst : Nat} {y : Bits} (h : resultOf i s = .success { res := ws, bits := (dst, y) }) :
    ∃ t, exec i s = .next t ∧ Stores s t ws dst y :=
  ⟨_, exec_of_success h, finish_succeeds s _, Memory.writeSeq_holds s.bitmem dst y,
    Memory.writeSeq_sameOutside s.bitmem dst y, finish_keepsSyms s _ rfl, finish_keepsOut s _ rfl⟩

end Sys2Proof.Machine
end

section
/-! Interleaving and de-interleaving: the inverse law (O36), and the six commands (O33, O34, O35). -/

namespace Sys2Proof.Machine

open Sys2Proof.Claims

variable {i : Instr} {s : State} {f : List Nat → Bits → Bits}

/-! ### The inverse law (41_bitutil.md rule R140) -/

/-- Bit P(k) of the interleaved string is bit k of `deinterleave x`, which is bit P(k) of `x`; every position is a P(k). -/
theorem interleave_deinterleave {perm : List Nat} {x : Bits} (hb : isBijection perm = true) (hl : x.length = perm.length) :
    interleave perm (deinterleave perm x) = x := by
  refine List.ext_getElem?' fun j hj => ?_
  have hjL : j < perm.length := by simpa [hl] using hj
  obtain ⟨k, hk, rfl⟩ := List.getElem_of_mem (isBijection_mem hb hjL)
  obtain ⟨j, b, hpj, hyb, hzb, -⟩ := interleave_get hb (deinterleave_length perm x) hk
  obtain ⟨j', b', hpj', hxb, hyb'⟩ := deinterleave_get hb hl hk
  rw [List.getElem?_eq_getElem hk] at hpj hpj'
  cases hpj
  cases hpj'
  rw [hzb, hxb, ← hyb, ← hyb']

/-- Bit k of the de-interleaved string is bit P(k) of `interleave x`, which is bit k of `x`. -/
theorem deinterleave_interleave {perm : List Nat} {x : Bits} (hb : isBijection perm = true) (hl : x.length = perm.length) :
    deinterleave perm (interleave perm x) = x := by
  refine List.ext_getElem?' fun k hk => ?_
  have hkL : k < perm.length := by simpa [hl] using hk
  obtain ⟨j, b, hpj, hyb, hzb⟩ := deinterleave_get hb (interleave_length perm x) hkL
  obtain ⟨j', b', hpj', hxb, hyb', -⟩ := interleave_get hb hl hkL
  cases hpj.symm.trans hpj'
  rw [hzb, hxb, ← hyb, ← hyb']

/-- Settles O36. -/
theorem interleaveInverseLaw : Obligations.InterleaveInverseLaw := by
  have inverse : ∀ {perm : List Nat}, isBijection perm = true → ∀ x : Bits, x.length = perm.length →
      interleave perm (deinterleave perm x) = x ∧ deinterleave perm (interleave perm x) = x :=
    fun hb _ hl => ⟨interleave_deinterleave hb hl, deinterleave_interleave hb hl⟩
  refine ⟨fun tbl htbl => ?_, fun x hx => inverse params_ok.lcwBijection x (hx.trans params_ok.lcwLength.symm)⟩
  rcases List.mem_append.1 htbl with h2 | h3
  · exact inverse (tableOk_bijection (params_ok.perm2 tbl h2))
  · exact inverse (tableOk_bijection (params_ok.perm3 tbl h3))

/-! ### The outcomes -/

theorem permuteResult_range {tables : List PermTable}
    (h : 2048 < s.operand 0 + s.operand 2 ∨ 2048 < s.operand 1 + s.operand 2) :
    permuteResult tables f s = .error .range :=
  if_pos (h.imp Nat.not_le.2 Nat.not_le.2)

theorem permuteResult_noTable {tables : List PermTable} (hs : s.operand 0 + s.operand 2 ≤ 2048)
    (hd : s.operand 1 + s.operand 2 ≤ 2048) (ht : findTable tables (s.operand 2) = none) :
    permuteResult tables f s = .error .noTable := by
  refine (if_neg (and_iff_not_or_not.1 ⟨hs, hd⟩)).trans ?_
  rw [ht]

theorem permuteResult_ready {tables : List PermTable} {tbl : PermTable} {x : Bits} (h : PermuteReady tables s tbl x) :
    permuteResult tables f s = .success { res := tbl.streams.map wordOf, bits := (s.operand 1, f tbl.perm x) } := by
  obtain ⟨ht, hs, hd, hl, hx⟩ := h
  refine (if_neg (and_iff_not_or_not.1 ⟨hs, hd⟩)).trans ?_
  rw [ht]
  exact readBits_of_holds _ hl hx

theorem permuteLcwResult_length {p : Params} (h : s.operand 2 ≠ 46) : permuteLcwResult p f s = .error .length := if_pos h

theorem permuteLcwResult_range {p : Params} (hl : s.operand 2 = 46)
    (h : 2048 < s.operand 0 + 46 ∨ 2048 < s.operand 1 + 46) : permuteLcwResult p f s = .error .range :=
  (if_neg (not_not_intro hl)).trans (if_pos (h.imp Nat.not_le.2 Nat.not_le.2))

theorem permuteLcwResult_ready {p : Params} {x : Bits} (hl : s.operand 2 = 46) (hs : s.operand 0 + 46 ≤ 2048)
    (hd : s.operand 1 + 46 ≤ 2048) (hxl : x.length = 46) (hx : Holds s.bitmem (s.operand 0) x) :
    permuteLcwResult p f s =
      .success { res := [wordOf p.lcwW1, wordOf p.lcwW2, wordOf p.lcwW3], bits := (s.operand 1, f p.permLcw x) } :=
  ((if_neg (not_not_intro hl)).trans (if_neg (and_iff_not_or_not.1 ⟨hs, hd⟩))).trans (readBits_of_holds _ hxl hx)

/-! ### Which bit goes where (41_bitutil.md rule R133) -/

theorem Holds.getElem? {α : Type} {m : Memory α} {a k : Nat} {xs : List α} {v : α} (h : Holds m a xs)
    (hk : xs[k]? = some v) : Memory.read m (a + k) = some v := by
  obtain ⟨hlt, rfl⟩ := List.getElem?_eq_some_iff.1 hk
  exact h k hlt

/-- A command that stores a de-interleaved string. -/
theorem exec_of_deinterleave {perm : List Nat} {x : Bits} {ws : List Word} {dst n : Nat} (hb : isBijection perm = true)
    (hp : perm.length = n) (hl : x.length = n)
    (h : resultOf i s = .success { res := ws, bits := (dst, deinterleave perm x) }) :
    ∃ t, exec i s = .next t ∧ Succeeds s t ws ∧
      (∀ k, k < n → ∃ j b, perm[k]? = some j ∧ x[j]? = some b ∧ Memory.read t.bitmem (dst + k) = some b) ∧
      SameOutside s.bitmem t.bitmem dst n ∧ KeepsSyms s t ∧ KeepsOut s t := by
  subst hp
  obtain ⟨t, hex, ht⟩ := exec_of_bits h
  refine ⟨t, hex, ht.succeeds, fun k hk => ?_, deinterleave_length perm x ▸ ht.outside, ht.syms, ht.out⟩
  obtain ⟨j, b, hj, hxj, hy⟩ := deinterleave_get hb hl hk
  exact ⟨j, b, hj, hxj, ht.holds.getElem? hy⟩

/-- A command that stores an interleaved string. -/
theorem exec_of_interleave {perm : List Nat} {y : Bits} {ws : List Word} {dst n : Nat} (hb : isBijection perm = true)
    (hp : perm.length = n) (hl : y.length = n)
    (h : resultOf i s = .success { res := ws, bits := (dst, interleave perm y) }) :
    ∃ t, exec i s = .next t ∧ Succeeds s t ws ∧
      (∀ k, k < n → ∃ j b, perm[k]? = some j ∧ y[k]? = some b ∧ Memory.read t.bitmem (dst + j) = some b) ∧
      SameOutside s.bitmem t.bitmem dst n ∧ KeepsSyms s t ∧ KeepsOut s t := by
  subst hp
  obtain ⟨t, hex, ht⟩ := exec_of_bits h
  refine ⟨t, hex, ht.succeeds, fun k hk => ?_, interleave_length perm y ▸ ht.outside, ht.syms, ht.out⟩
  obtain ⟨j, b, hj, hyk, hx, -⟩ := interleave_get hb hl hk
  exact ⟨j, b, hj, hyk, ht.holds.getElem? hx⟩

/-! ### The commands -/

/-- The table a 2-way or 3-way command found: a bijection of the operand's length with `k` streams. -/
theorem table_of_ready {tables : List PermTable} {k : Nat} (hok : ∀ t ∈ tables, tableOk k t = true) {tbl : PermTable}
    {x : Bits} (h : PermuteReady tables s tbl x) :
    isBijection tbl.perm = true ∧ tbl.perm.length = s.operand 2 ∧ x.length = s.operand 2 ∧ tbl.streams.length = k := by
  obtain ⟨ht, -, -, hl, -⟩ := h
  obtain ⟨hmem, hlen⟩ := findTable_some ht
  exact ⟨tableOk_bijection (hok tbl hmem), hlen, hl, (tableOk_streams (hok tbl hmem)).1⟩

/-- The streams of a 2-way table, named. -/
theorem exists_two_streams {streams : List Nat} {R : State → Prop} (hk : streams.length = 2)
    (h : ∃ t, exec i s = .next t ∧ Succeeds s t (streams.map wordOf) ∧ R t) :
    ∃ t s0 s1, exec i s = .next t ∧ streams = [s0, s1] ∧ Succeeds s t [wordOf s0, wordOf s1] ∧ R t := by
  obtain ⟨s0, s1, rfl⟩ := List.length_eq_two.1 hk
  obtain ⟨t, hex, hsucc, hr⟩ := h
  exact ⟨t, s0, s1, hex, rfl, hsucc, hr⟩

/-- The streams of a 3-way table, named. -/
theorem exists_three_streams {streams : List Nat} {R : State → Prop} (hk : streams.length = 3)
    (h : ∃ t, exec i s = .next t ∧ Succeeds s t (streams.map wordOf) ∧ R t) :
    ∃ t s0 s1 s2, exec i s = .next t ∧ streams = [s0, s1, s2] ∧ Succeeds s t [wordOf s0, wordOf s1, wordOf s2] ∧ R t := by
  obtain ⟨s0, s1, s2, rfl⟩ := List.length_eq_three.1 hk
  obtain ⟨t, hex, hsucc, hr⟩ := h
  exact ⟨t, s0, s1, s2, hex, rfl, hsucc, hr⟩

/-- Settles O33: one argument for both families, then the streams of each named. -/
theorem deinterleaveMovesBits : Obligations.DeinterleaveMovesBits := by
  refine ⟨fun s tbl x h => ?_, fun s tbl x h => ?_, fun s h => ?_, fun s hs hd => ⟨fun ht => ?_, fun ht => ?_⟩⟩
  · obtain ⟨hb, hp, hl, hk⟩ := table_of_ready params_ok.perm2 h
    exact exists_two_streams hk (exec_of_deinterleave hb hp hl (permuteResult_ready h))
  · obtain ⟨hb, hp, hl, hk⟩ := table_of_ready params_ok.perm3 h
    exact exists_three_streams hk (exec_of_deinterleave hb hp hl (permuteResult_ready h))
  · exact ⟨exec_of_error (permuteResult_range h) rfl, exec_of_error (permuteResult_range h) rfl⟩
  · exact exec_of_error (permuteResult_noTable hs hd ht) rfl
  · exact exec_of_error (permuteResult_noTable hs hd ht) rfl

/-- Settles O34, as O33 with the other permutation lemma. -/
theorem interleaveMovesBits : Obligations.InterleaveMovesBits := by
  refine ⟨fun s tbl y h => ?_, fun s tbl y h => ?_, fun s h => ?_, fun s hs hd => ⟨fun ht => ?_, fun ht => ?_⟩⟩
  · obtain ⟨hb, hp, hl, hk⟩ := table_of_ready params_ok.perm2 h
    exact exists_two_streams hk (exec_of_interleave hb hp hl (permuteResult_ready h))
  · obtain ⟨hb, hp, hl, hk⟩ := table_of_ready params_ok.perm3 h
    exact exists_three_streams hk (exec_of_interleave hb hp hl (permuteResult_ready h))
  · exact ⟨exec_of_error (permuteResult_range h) rfl, exec_of_error (permuteResult_range h) rfl⟩
  · exact exec_of_error (permuteResult_noTable hs hd ht) rfl
  · exact exec_of_error (permuteResult_noTable hs hd ht) rfl

/-- Settles O35. -/
theorem lcwPermutationMovesBits : Obligations.LcwPermutationMovesBits := by
  refine ⟨fun s h => ?_, fun s hl h => ?_, fun s x hl hs hd hxl hx => ?_⟩
  · exact ⟨exec_of_error (permuteLcwResult_length h) rfl, exec_of_error (permuteLcwResult_length h) rfl⟩
  · exact ⟨exec_of_error (permuteLcwResult_range hl h) rfl, exec_of_error (permuteLcwResult_range hl h) rfl⟩
  · have hb := params_ok.lcwBijection
    have hp := params_ok.lcwLength
    exact ⟨exec_of_deinterleave hb hp hxl (permuteLcwResult_ready hl hs hd hxl hx),
      exec_of_interleave hb hp hxl (permuteLcwResult_ready hl hs hd hxl hx)⟩

end Sys2Proof.Machine
end

section
/-! Extraction and slicing (O31, O32). -/

namespace Sys2Proof.Machine

variable {s : State}

/-! ### EXTRACT (41_bitutil.md rule R131) -/

theorem extractResult_length (h : s.operand 1 < 1 ∨ 32 < s.operand 1) : extractResult s = .error .length := if_pos h

theorem extractResult_range (hlo : 1 ≤ s.operand 1) (hhi : s.operand 1 ≤ 32) (h : 2048 < s.operand 0 + s.operand 1) :
    extractResult s = .error .range :=
  (if_neg (by omega)).trans (if_pos (Nat.not_le.2 h))

theorem extractResult_ready {x : Bits} (hlo : 1 ≤ s.operand 1) (hhi : s.operand 1 ≤ 32)
    (hr : s.operand 0 + s.operand 1 ≤ 2048) (hl : x.length = s.operand 1) (hx : Holds s.bitmem (s.operand 0) x) :
    extractResult s = .success { res := [wordOf (val x)] } :=
  ((if_neg (by omega)).trans (if_neg (not_not_intro hr))).trans (readBits_of_holds _ hl hx)

/-- Bit k of a string is bit `length - 1 - k` of its register (00_scope.md rule R10). -/
theorem getElem?_eq_getLsbD_wordOf_val {x : Bits} (h : x.length ≤ 32) {k : Nat} (hk : k < x.length) :
    x[k]? = some ((wordOf (val x)).getLsbD (x.length - 1 - k)) := by
  have hk' : k < (bstr x.length (val x)).length := by rwa [bstr_length]
  calc x[k]? = (bstr x.length (val x))[k]? := by rw [bstr_val]
    _ = some ((val x).testBit (x.length - 1 - k)) := by rw [List.getElem?_eq_getElem hk', bstr_getElem]
    _ = some ((wordOf (val x)).getLsbD (x.length - 1 - k)) := by rw [BitVec.getLsbD, val_toNat_of_length h]

/-- Settles O31. -/
theorem extractReadsField : Obligations.ExtractReadsField := by
  rintro s _ _ rfl rfl
  refine ⟨fun h => exec_of_error (extractResult_length h) rfl,
    fun hlo hhi h => exec_of_error (extractResult_range hlo hhi h) rfl, fun hlo hhi hr x hl hx => ?_⟩
  obtain ⟨t, hex, hsucc, hkeeps⟩ := exec_of_res (i := .extract) (extractResult_ready hlo hhi hr hl hx)
  have hl32 : x.length ≤ 32 := hl.trans_le hhi
  refine ⟨t, hex, ?_⟩
  rw [hsucc.res_zero, ← hl]
  exact ⟨hsucc, fun k hk => getElem?_eq_getLsbD_wordOf_val hl32 hk, (val_toNat_of_length hl32).trans_lt (val_lt x), hkeeps⟩

/-! ### SLICE (41_bitutil.md rule R132) -/

theorem sliceResult_length (h : s.operand 2 < 1 ∨ 32 < s.operand 2) : sliceResult s = .error .length := if_pos h

theorem sliceResult_range (hlo : 1 ≤ s.operand 2) (hhi : s.operand 2 ≤ 32) (h : 2048 < s.operand 0 + s.operand 1) :
    sliceResult s = .error .range :=
  (if_neg (by omega)).trans (if_pos (Nat.not_le.2 h))

theorem sliceResult_capacity (hlo : 1 ≤ s.operand 2) (hhi : s.operand 2 ≤ 32) (hr : s.operand 0 + s.operand 1 ≤ 2048)
    (h : 64 < s.operand 1 / s.operand 2) : sliceResult s = .error .capacity :=
  ((if_neg (by omega)).trans (if_neg (not_not_intro hr))).trans (if_pos h)

/-- What SLICE writes for the string x of its region, with width w. -/
def sliceEffect (w : Nat) (x : Bits) : Effect :=
  { res := [wordOf (x.length / w), wordOf (val (x.drop (x.length / w * w))), wordOf (x.length % w)]
    out := (groups w (x.length / w) x).map fun y => wordOf (val y) }

theorem sliceResult_ready {x : Bits} (hlo : 1 ≤ s.operand 2) (hhi : s.operand 2 ≤ 32)
    (hr : s.operand 0 + s.operand 1 ≤ 2048) (hc : s.operand 1 / s.operand 2 ≤ 64) (hl : x.length = s.operand 1)
    (hx : Holds s.bitmem (s.operand 0) x) : sliceResult s = .success (sliceEffect (s.operand 2) x) := by
  refine (((if_neg (by omega)).trans (if_neg (not_not_intro hr))).trans (if_neg (Nat.not_lt.2 hc))).trans ?_
  rw [readBits_of_holds _ hl hx, sliceEffect, hl]

theorem finish_read_out (e : Effect) {k : Nat} (h : k < e.out.length) : Memory.read (s.finish e).outbuf k = e.out[k]? := by
  rw [State.finish_outbuf, Memory.read_writeSeq, if_pos (by omega), Nat.sub_zero]

theorem finish_read_out_of_le (e : Effect) {k : Nat} (h : e.out.length ≤ k) :
    Memory.read (s.finish e).outbuf k = Memory.read s.outbuf k :=
  Memory.writeSeq_sameOutside s.outbuf 0 e.out k (by omega)

theorem sliceEffect_out_length (w : Nat) (x : Bits) : (sliceEffect w x).out.length = x.length / w := by
  simp [sliceEffect, groups_length]

theorem sliceEffect_out_get {w : Nat} {x : Bits} {k : Nat} (hk : k < x.length / w) :
    (sliceEffect w x).out[k]? = some (wordOf (val ((x.drop (k * w)).take w))) := by
  have hk' : k < (groups w (x.length / w) x).length := by rwa [groups_length]
  rw [sliceEffect, List.getElem?_map, List.getElem?_eq_getElem hk', groups_getElem]
  rfl

/-- The remainder is shorter than a group. -/
theorem length_drop_groups_le (w : Nat) (x : Bits) (hw : 1 ≤ w) : (x.drop (x.length / w * w)).length ≤ w := by
  rw [List.length_drop, ← Nat.mod_eq_sub_div_mul]
  exact (Nat.mod_lt _ hw).le

/-- Settles O32. -/
theorem sliceWritesGroups : Obligations.SliceWritesGroups := by
  rintro s _ _ _ rfl rfl rfl
  refine ⟨fun h => exec_of_error (sliceResult_length h) rfl,
    fun hlo hhi h => exec_of_error (sliceResult_range hlo hhi h) rfl,
    fun hlo hhi hr h => exec_of_error (sliceResult_capacity hlo hhi hr h) rfl, fun hlo hhi hr hc x hl hx => ?_⟩
  have hsucc := finish_succeeds s (sliceEffect (s.operand 2) x)
  have hout := sliceEffect_out_length (s.operand 2) x
  refine ⟨s.finish (sliceEffect (s.operand 2) x), exec_of_success (sliceResult_ready hlo hhi hr hc hl hx), ?_⟩
  rw [← hl, hsucc.res_one]
  refine ⟨hsucc, fun k hk => ?_, fun k hk => ?_, ?_, finish_keepsBits s _ rfl, finish_keepsSyms s _ rfl⟩
  · refine ⟨_, (finish_read_out _ (hk.trans_eq hout.symm)).trans (sliceEffect_out_get hk), val_toNat_of_length ?_⟩
    exact (List.length_take_le _ _).trans hhi
  · exact finish_read_out_of_le _ (hout.trans_le hk)
  · exact val_toNat_of_length ((length_drop_groups_le _ x hlo).trans hhi)

end Sys2Proof.Machine
end

section
/-! Hamming distance and checksums (O37, O38). -/

namespace Sys2Proof.Machine

variable {s : State}

/-! ### HAMMING (41_bitutil.md rule R141) -/

theorem hammingResult_range (h : 2048 < s.operand 0 + s.operand 2 ∨ 2048 < s.operand 1 + s.operand 2) :
    hammingResult s = .error .range :=
  if_pos (h.imp Nat.not_le.2 Nat.not_le.2)

theorem hammingResult_ready {x y : Bits} (ha : s.operand 0 + s.operand 2 ≤ 2048) (hb : s.operand 1 + s.operand 2 ≤ 2048)
    (hxl : x.length = s.operand 2) (hyl : y.length = s.operand 2) (hx : Holds s.bitmem (s.operand 0) x)
    (hy : Holds s.bitmem (s.operand 1) y) : hammingResult s = .success { res := [wordOf (hd x y)] } :=
  ((if_neg (and_iff_not_or_not.1 ⟨ha, hb⟩)).trans (readBits_of_holds _ hxl hx)).trans (readBits_of_holds _ hyl hy)

/-- The Hamming distance counts the positions that differ (00_scope.md rule R9). -/
theorem length_filter_ne_eq_hd {x y : Bits} (h : x.length = y.length) :
    ((List.range x.length).filter fun i => decide (x[i]? ≠ y[i]?)).length = hd x y := by
  induction x generalizing y with
  | nil => rfl
  | cons a x ih =>
    cases y with
    | nil => simp at h
    | cons b y =>
      rw [hd_cons, ← ih (by simpa using h), List.length_cons, List.range_succ_eq_map, List.filter_cons, List.filter_map]
      by_cases hab : a = b <;> simp [hab, Function.comp_def]

/-- Settles O37. -/
theorem hammingCountsDifferences : Obligations.HammingCountsDifferences := by
  rintro s _ _ _ rfl rfl rfl
  refine ⟨fun h => exec_of_error (hammingResult_range h) rfl, fun ha hb x y hxl hyl hx hy => ?_⟩
  obtain ⟨t, hex, hsucc, hkeeps⟩ := exec_of_res (i := .hamming) (hammingResult_ready ha hb hxl hyl hx hy)
  have hle := hd_le_length x y
  refine ⟨t, hex, ?_⟩
  rw [hsucc.res_zero, ← hxl, length_filter_ne_eq_hd (hxl.trans hyl.symm)]
  exact ⟨hsucc, wordOf_toNat_of_lt (by omega), hkeeps⟩

/-! ### Checksums (41_bitutil.md rules R142 to R144) -/

theorem checksumResult_range {f : List (BitVec 8) → Nat} (h : 2048 < s.operand 0 + 8 * s.operand 1) :
    checksumResult f s = .error .range :=
  if_pos (Nat.not_le.2 h)

theorem checksumResult_ready {f : List (BitVec 8) → Nat} {bs : List (BitVec 8)} (hr : s.operand 0 + 8 * s.operand 1 ≤ 2048)
    (hn : bs.length = s.operand 1)
    (hx : Holds s.bitmem (s.operand 0) (bs.flatMap fun b => (List.range 8).map fun i => b.getLsbD (7 - i))) :
    checksumResult f s = .success { res := [wordOf (f bs)] } := by
  refine ((if_neg (not_not_intro hr)).trans (readBits_of_holds _ ?_ hx)).trans ?_
  · simp [List.length_flatMap, hn, Nat.mul_comm]
  · rw [← hn, bytes_flatMap]

theorem resultOf_cksum8 (s : State) : resultOf .cksum8 s = checksumResult (fun bs => (params.cksum8 bs).toNat) s := rfl

theorem resultOf_cksum16 (s : State) : resultOf .cksum16 s = checksumResult (fun bs => (params.cksum16 bs).toNat) s := rfl

theorem wordOf_toNat_eq_setWidth {n : Nat} (v : BitVec n) : wordOf v.toNat = v.setWidth 32 := BitVec.ofNat_toNat 32 v

/-- Settles O38. -/
theorem checksumsOfBytes : Obligations.ChecksumsOfBytes := by
  rintro s _ _ rfl rfl
  refine ⟨fun h => ⟨?_, ?_⟩, fun hr bs hn hx => ?_⟩
  · exact exec_of_error ((resultOf_cksum8 s).trans (checksumResult_range h)) rfl
  · exact exec_of_error ((resultOf_cksum16 s).trans (checksumResult_range h)) rfl
  · rw [← wordOf_toNat_eq_setWidth, ← wordOf_toNat_eq_setWidth]
    exact ⟨exec_of_res ((resultOf_cksum8 s).trans (checksumResult_ready hr hn hx)),
      exec_of_res ((resultOf_cksum16 s).trans (checksumResult_ready hr hn hx))⟩

end Sys2Proof.Machine
end

section
/-! Which flips the BCH decode takes: the number of candidates (O44), the nearest codeword (O41), the first match (O42),
and guaranteed correction (O43). -/

namespace Sys2Proof.Machine

variable {ord : FlipOrder} {g n : Nat} {c : Bits}

/-! ### The list of flips (42_bch.md rule R172) -/

/-- Settles O44: index j1 is the smaller index of n - 1 - j1 pairs, and these numbers are 0 to n - 1 in reverse. -/
theorem bchSearchBound : Obligations.BchSearchBound := by
  intro ord n
  have pairs : ((List.range n).map fun j => n - 1 - j).sum = n * (n - 1) / 2 := by
    rw [← Finset.sum_range_id, ← Finset.sum_range_reflect]
    rfl
  simp only [flipSets, List.length_cons, List.length_append, List.length_map, List.length_range, List.length_flatMap,
    List.length_range', pairs]
  omega

/-- Fewer flips come first, then the lexicographic order of their indices. -/
def TriedBefore (ord : FlipOrder) (n : Nat) (a b : List Nat) : Prop :=
  List.Shortlex (· < ·) (a.map (flipPos ord n)) (b.map (flipPos ord n))

theorem triedBefore_of_length_lt {a b : List Nat} (h : a.length < b.length) : TriedBefore ord n a b :=
  .of_length_lt (by simpa using h)

theorem TriedBefore.length_le {a b : List Nat} (h : TriedBefore ord n a b) : a.length ≤ b.length := by
  rcases List.shortlex_def.1 h with hlen | ⟨hlen, -⟩ <;> simp only [List.length_map] at hlen <;> omega

theorem triedBefore_single_iff {i j : Nat} (hi : i < n) (hj : j < n) :
    TriedBefore ord n [flipPos ord n i] [flipPos ord n j] ↔ i < j := by
  simp only [TriedBefore, List.map_cons, List.map_nil, flipPos_flipPos hi, flipPos_flipPos hj, List.shortlex_singleton_iff]

theorem triedBefore_pair_iff {i1 i2 j1 j2 : Nat} (hi1 : i1 < n) (hi2 : i2 < n) (hj1 : j1 < n) (hj2 : j2 < n) :
    TriedBefore ord n [flipPos ord n i1, flipPos ord n i2] [flipPos ord n j1, flipPos ord n j2] ↔
      i1 < j1 ∨ (i1 = j1 ∧ i2 < j2) := by
  simp only [TriedBefore, List.map_cons, List.map_nil, flipPos_flipPos hi1, flipPos_flipPos hi2, flipPos_flipPos hj1,
    flipPos_flipPos hj2, List.shortlex_def, List.cons_lex_cons_iff, List.length_cons, lt_self_iff_false, false_or, true_and,
    List.not_lex_nil, and_false, or_false]

theorem singleFlips_triedBefore (ord : FlipOrder) (n : Nat) :
    ((List.range n).map fun j => [flipPos ord n j]).Pairwise (TriedBefore ord n) :=
  List.pairwise_map.2 (List.pairwise_lt_range.imp_of_mem fun hi hj hij =>
    (triedBefore_single_iff (List.mem_range.1 hi) (List.mem_range.1 hj)).2 hij)

theorem doubleFlips_triedBefore (ord : FlipOrder) (n : Nat) :
    ((List.range n).flatMap fun j1 => (List.range' (j1 + 1) (n - 1 - j1)).map fun j2 =>
      [flipPos ord n j1, flipPos ord n j2]).Pairwise (TriedBefore ord n) := by
  refine List.pairwise_flatMap.2 ⟨fun j1 h1 => ?_, List.pairwise_lt_range.imp_of_mem fun hi hj hij => ?_⟩
  · rw [List.mem_range] at h1
    refine List.pairwise_map.2 ((List.pairwise_lt_range' _).imp_of_mem fun hi hj hij => ?_)
    rw [List.mem_range'_1] at hi hj
    exact (triedBefore_pair_iff h1 (by omega) h1 (by omega)).2 (.inr ⟨rfl, hij⟩)
  · simp only [List.mem_map, List.mem_range'_1]
    rw [List.mem_range] at hi hj
    rintro _ ⟨i2, hi2, rfl⟩ _ ⟨j2, hj2, rfl⟩
    exact (triedBefore_pair_iff hi (by omega) hj (by omega)).2 (.inl hij)

theorem flipSets_triedBefore (ord : FlipOrder) (n : Nat) : (flipSets ord n).Pairwise (TriedBefore ord n) := by
  refine List.pairwise_cons.2 ⟨fun b hb => triedBefore_of_length_lt ?_, List.pairwise_append.2
    ⟨singleFlips_triedBefore ord n, doubleFlips_triedBefore ord n, fun a ha b hb => triedBefore_of_length_lt ?_⟩⟩
  · simp only [List.mem_append, List.mem_map, List.mem_flatMap] at hb
    obtain ⟨j, -, rfl⟩ | ⟨j1, -, j2, -, rfl⟩ := hb <;> simp
  · simp only [List.mem_map, List.mem_flatMap] at ha hb
    obtain ⟨i, -, rfl⟩ := ha
    obtain ⟨j1, -, j2, -, rfl⟩ := hb
    simp

/-! ### The flips taken (42_bch.md rule R173) -/

/-- `ps` is the first set of flips, in the order of the search, that gives a valid codeword. -/
structure FirstFlips (ord : FlipOrder) (g : Nat) (c : Bits) (ps : List Nat) : Prop where
  mem : ps ∈ flipSets ord c.length
  valid : rem g (ps.foldl flip c) = 0
  first : ∀ qs ∈ flipSets ord c.length, rem g (qs.foldl flip c) = 0 → qs = ps ∨ TriedBefore ord c.length ps qs

theorem firstFlips_of_find? {ps : List Nat}
    (h : (flipSets ord c.length).find? (fun ps => decide (rem g (ps.foldl flip c) = 0)) = some ps) :
    FirstFlips ord g c ps where
  mem := List.mem_of_find?_eq_some h
  valid := of_decide_eq_true (List.find?_some (p := fun qs : List Nat => decide (rem g (qs.foldl flip c) = 0)) h)
  first _ hq hv := find?_le_of_pairwise (flipSets_triedBefore ord c.length) h hq (decide_eq_true hv)

/-- A decode takes the first flips that give a valid codeword, or fails when none do. -/
theorem bchDecode_takes (ord : FlipOrder) (g : Nat) (c : Bits) :
    (FirstFlips ord g c [] ∧ bchDecode ord g c = { errs := some 0, word := c, p1 := none, p2 := none }) ∨
    (∃ j, j < c.length ∧ FirstFlips ord g c [flipPos ord c.length j] ∧ bchDecode ord g c =
      { errs := some 1, word := flip c (flipPos ord c.length j), p1 := some (flipPos ord c.length j), p2 := none }) ∨
    (∃ j1 j2, j1 < j2 ∧ j2 < c.length ∧ FirstFlips ord g c [flipPos ord c.length j1, flipPos ord c.length j2] ∧
      bchDecode ord g c =
        { errs := some 2
          word := flip (flip c (flipPos ord c.length j1)) (flipPos ord c.length j2)
          p1 := some (min (flipPos ord c.length j1) (flipPos ord c.length j2))
          p2 := some (max (flipPos ord c.length j1) (flipPos ord c.length j2)) }) ∨
    ((∀ ps ∈ flipSets ord c.length, rem g (ps.foldl flip c) ≠ 0) ∧
      bchDecode ord g c = { errs := none, word := c, p1 := none, p2 := none }) := by
  rcases bchDecode_cases ord g c with ⟨ps, hps, hcases⟩ | ⟨hnone, hr⟩
  · have hfirst := firstFlips_of_find? hps
    rcases mem_flipSets.1 hfirst.mem with rfl | ⟨j, hj, rfl⟩ | ⟨j1, j2, hlt, hj, rfl⟩
    · obtain ⟨-, hr⟩ | ⟨_, ⟨⟩, -⟩ | ⟨_, _, _, ⟨⟩, -⟩ := hcases
      exact .inl ⟨hfirst, hr⟩
    · obtain ⟨⟨⟩, -⟩ | ⟨_, ⟨⟩, hr⟩ | ⟨_, _, _, ⟨⟩, -⟩ := hcases
      exact .inr (.inl ⟨j, hj, hfirst, hr⟩)
    · obtain ⟨⟨⟩, -⟩ | ⟨_, ⟨⟩, -⟩ | ⟨_, _, _, ⟨⟩, hr⟩ := hcases
      exact .inr (.inr (.inl ⟨j1, j2, hlt, hj, hfirst, hr⟩))
  · exact .inr (.inr (.inr ⟨fun ps hps => by simpa using List.find?_eq_none.1 hnone ps hps, hr⟩))

/-! ### The nearest codeword (42_bch.md rule R171) -/

theorem FirstFlips.length_le {ps qs : List Nat} (h : FirstFlips ord g c ps) (hq : qs ∈ flipSets ord c.length)
    (hv : rem g (qs.foldl flip c) = 0) : ps.length ≤ qs.length := by
  rcases h.first qs hq hv with rfl | hlt
  · exact Nat.le_refl _
  · exact hlt.length_le

theorem length_le_two_of_mem_flipSets {ps : List Nat} (h : ps ∈ flipSets ord n) : ps.length ≤ 2 := by
  rcases mem_flipSets.1 h with rfl | ⟨j, -, rfl⟩ | ⟨j1, j2, -, -, rfl⟩ <;> simp

theorem foldl_flip_length (ps : List Nat) (c : Bits) : (ps.foldl flip c).length = c.length := by
  induction ps generalizing c with
  | nil => rfl
  | cons i ps ih => rw [List.foldl_cons, ih, flip_length]

/-- A word nearer than the one the first flips give would have been found by fewer flips. -/
theorem FirstFlips.nearest {ps : List Nat} (h : FirstFlips ord g c ps) {w : Bits} (hl : w.length = c.length)
    (hw : hd c w < ps.length) : rem g w ≠ 0 := by
  have h2 := length_le_two_of_mem_flipSets h.mem
  obtain ⟨qs, hq, rfl, hlen⟩ := flipSets_cover ord hl (by omega)
  intro hv
  have := h.length_le hq hv
  omega

/-- The answer of a decode that takes the flips `ps`. -/
theorem FirstFlips.sound {ps : List Nat} (h : FirstFlips ord g c ps) :
    ps.length ≤ 2 ∧ (ps.foldl flip c).length = c.length ∧ rem g (ps.foldl flip c) = 0 ∧
      hd c (ps.foldl flip c) = ps.length ∧ ∀ w : Bits, w.length = c.length → hd c w < ps.length → rem g w ≠ 0 :=
  ⟨length_le_two_of_mem_flipSets h.mem, foldl_flip_length ps c, h.valid, hd_foldl_flip h.mem, fun _ => h.nearest⟩

/-- Settles O41. -/
theorem bchDecodeFindsNearestCodeword : Obligations.BchDecodeFindsNearestCodeword := by
  rintro ord g c _ rfl
  rcases bchDecode_takes ord g c with ⟨h, hr⟩ | ⟨j, -, h, hr⟩ | ⟨j1, j2, -, -, h, hr⟩ | ⟨h, hr⟩ <;> rw [hr]
  · exact ⟨fun e he => Option.some.inj he ▸ h.sound, nofun⟩
  · exact ⟨fun e he => Option.some.inj he ▸ h.sound, nofun⟩
  · exact ⟨fun e he => Option.some.inj he ▸ h.sound, nofun⟩
  · refine ⟨nofun, fun _ => ⟨rfl, rfl, rfl, fun w hl hw => ?_⟩⟩
    obtain ⟨ps, hps, rfl, -⟩ := flipSets_cover ord hl hw
    exact h ps hps

/-! ### The first match (42_bch.md rule R172) -/

theorem FirstFlips.first_single {j j' : Nat} (h : FirstFlips ord g c [flipPos ord c.length j]) (hj : j < c.length)
    (hlt : j' < j) : rem g (flip c (flipPos ord c.length j')) ≠ 0 := by
  have hj' : j' < c.length := by omega
  intro hv
  rcases h.first _ (mem_flipSets.2 (.inr (.inl ⟨j', hj', rfl⟩))) hv with heq | hord
  · exact flipPos_ne hj' hj (by omega) (List.singleton_inj.1 heq)
  · rw [triedBefore_single_iff hj hj'] at hord
    omega

theorem FirstFlips.first_pair {j1 j2 k1 k2 : Nat}
    (h : FirstFlips ord g c [flipPos ord c.length j1, flipPos ord c.length j2]) (hj : j1 < j2) (hj2 : j2 < c.length)
    (hk : k1 < k2) (hk2 : k2 < c.length) (hlt : k1 < j1 ∨ (k1 = j1 ∧ k2 < j2)) :
    rem g (flip (flip c (flipPos ord c.length k1)) (flipPos ord c.length k2)) ≠ 0 := by
  have hj1 : j1 < c.length := by omega
  have hk1 : k1 < c.length := by omega
  intro hv
  rcases h.first _ (mem_flipSets.2 (.inr (.inr ⟨k1, k2, hk, hk2, rfl⟩))) hv with heq | hord
  · obtain ⟨h1, h2⟩ := List.cons_eq_cons.1 heq
    rcases hlt with hlt | ⟨-, hlt⟩
    · exact flipPos_ne hk1 hj1 (by omega) h1
    · exact flipPos_ne hk2 hj2 (by omega) (List.singleton_inj.1 h2)
  · rw [triedBefore_pair_iff hj1 hj2 hk1 hk2] at hord
    omega

/-- Settles O42. -/
theorem bchFirstMatchWins : Obligations.BchFirstMatchWins := by
  rintro ord g c _ rfl
  rcases bchDecode_takes ord g c with ⟨-, hr⟩ | ⟨j, hj, h, hr⟩ | ⟨j1, j2, hlt, hj, h, hr⟩ | ⟨-, hr⟩ <;> rw [hr]
  · exact ⟨fun _ => ⟨rfl, rfl, rfl⟩, nofun, nofun⟩
  · exact ⟨nofun, fun _ => ⟨j, hj, rfl, rfl, rfl, fun _ => h.first_single hj⟩, nofun⟩
  · exact ⟨nofun, nofun, fun _ => ⟨j1, j2, hlt, hj, rfl, rfl, rfl, fun _ _ => h.first_pair hlt hj⟩⟩
  · exact ⟨nofun, nofun, nofun⟩

/-! ### Guaranteed correction (42_bch.md rule R182) -/

/-- The non-zero valid words as long as `c` have weight at least `d`. -/
def MinWeight (g : Nat) (c : Bits) (d : Nat) : Prop :=
  ∀ w : Bits, w.length = c.length → rem g w = 0 → true ∈ w → d ≤ w.count true

/-- Two valid words nearer than the minimum weight are equal: their XOR is a valid word too. -/
theorem eq_of_hd_lt {d : Nat} {w : Bits} (hmin : MinWeight g c d) (hc : rem g c = 0) (hl : w.length = c.length)
    (hw : rem g w = 0) (hlt : hd w c < d) : w = c := by
  by_contra hne
  have hv : rem g (bitsXor w c) = 0 := by rw [rem_bitsXor g hl, hw, hc, Nat.xor_self]
  have hpos : 0 < hd w c := Nat.pos_of_ne_zero fun h => hne (hd_eq_zero hl h)
  have hd_le := hmin (bitsXor w c) ((bitsXor_length hl).trans hl) hv (List.count_pos_iff.1 (count_bitsXor w c ▸ hpos))
  rw [count_bitsXor] at hd_le
  omega

/-- The nearest valid word to one `k` bits away from `c` is `c`, as two valid words near it are near each other. -/
theorem bchDecode_of_hd {k : Nat} {x : Bits} (hmin : MinWeight g c (2 * k + 1)) (hc : rem g c = 0) (hk : k ≤ 2)
    (hl : x.length = c.length) (hx : hd x c = k) : (bchDecode ord g x).errs = some k ∧ (bchDecode ord g x).word = c := by
  obtain ⟨hsome, hnone⟩ := bchDecodeFindsNearestCodeword ord g x _ rfl
  cases he : (bchDecode ord g x).errs with
  | none =>
    obtain ⟨-, -, -, hfar⟩ := hnone he
    exact absurd hc (hfar c hl.symm (hx.trans_le hk))
  | some e =>
    obtain ⟨-, hwl, hw, hxw, hnearest⟩ := hsome e he
    have hek : e ≤ k := Nat.le_of_not_lt fun h => hnearest c hl.symm (hx.trans_lt h) hc
    have htri := hd_triangle hwl hl
    rw [hd_symm hwl] at htri
    have hwc := eq_of_hd_lt hmin hc (hwl.trans hl) hw (by omega)
    rw [hwc, hx] at hxw
    exact ⟨by rw [hxw], hwc⟩

/-- Settles O43. -/
theorem bchGuaranteedCorrection : Obligations.BchGuaranteedCorrection := by
  rintro ord g _ c rfl hc
  refine ⟨fun hmin i hi => bchDecode_of_hd (k := 1) hmin hc (by omega) (by simp) ?_,
    fun hmin i j hij hj => bchDecode_of_hd (k := 2) hmin hc (by omega) (by simp) ?_⟩
  · rw [hd_symm (by simp), hd_flip hi]
  · rw [hd_symm (by simp), hd_flip_flip hij hj]

end Sys2Proof.Machine
end

section
/-! The 32-bit block function (O47), and the loop of BCH_BLOCKSEQ over a list of blocks. -/

namespace Sys2Proof.Machine

/-! ### Parity (42_bch.md rule R178) -/

theorem par_append_singleton (x : Bits) (b : Bool) : par (x ++ [b]) = xor (par x) b := by
  rw [par, List.foldl_append]
  rfl

theorem par_eq_false_iff {x : Bits} : par x = false ↔ x.count true % 2 = 0 := by
  rw [par_count, decide_eq_false_iff_not, Nat.mod_two_not_eq_one]

theorem par_eq_true_iff {x : Bits} : par x = true ↔ x.count true % 2 = 1 := by
  rw [par_count, decide_eq_true_iff]

/-- Settles O47. -/
theorem blockParityOutcome : Obligations.BlockParityOutcome := by
  rintro ord g c q h d _ hl hd rfl
  have hcases := block32_cases ord g (c ++ [q]) h d (by rwa [List.take_left' hl])
  have hq : (c ++ [q]).getD 31 false = q := by simp [← hl]
  rw [hq, ← par_append_singleton] at hcases
  rcases hcases with ⟨he, hr⟩ | ⟨e, he, ⟨hpar, hr⟩ | ⟨hpar, hh, hr⟩ | ⟨hpar, hh, hr⟩⟩ <;> rw [hr, he]
  · exact ⟨fun _ => ⟨rfl, rfl, rfl, rfl, rfl⟩, nofun⟩
  · exact ⟨nofun, fun _ hsome => ⟨rfl, rfl, .inl ⟨par_eq_false_iff.1 hpar, rfl, hsome, rfl⟩⟩⟩
  · exact ⟨nofun, fun _ hsome => ⟨rfl, rfl, .inr (.inl ⟨par_eq_true_iff.1 hpar, hh, rfl, hsome, rfl⟩)⟩⟩
  · have hfixed : par (d.word ++ [!q]) = false := by
      rw [par_append_singleton] at hpar ⊢
      rw [Bool.xor_not, hpar]
      rfl
    refine ⟨nofun, fun _ hsome => ⟨rfl, rfl, .inr (.inr ⟨par_eq_true_iff.1 hpar, hh, rfl, ?_, rfl,
      par_eq_false_iff.1 hfixed⟩)⟩⟩
    rw [Option.some.inj hsome]

/-! ### The loop of BCH_BLOCKSEQ (42_bch.md rule R181) -/

/-- `q` sums up the results `rs`, with the counts `es`, of the blocks of `blks` before the first uncorrectable one, and
copies the others. -/
structure SumsGoodBlocks (block : Bits → BlockDecoded) (blks : List Bits) (rs : List BlockDecoded) (es : List Nat)
    (q : SeqDecoded) : Prop where
  good_le : q.good ≤ blks.length
  results : rs = (blks.take q.good).map block
  errs : rs.map (fun r => r.errs) = es.map some
  stops : ∀ b, blks[q.good]? = some b → (block b).errs = none
  total : q.total = es.sum
  flagged : q.flagged = (rs.filter fun r => decide (r.parity = 1)).length
  trunc : q.trunc = decide (q.good < blks.length)
  out : q.out = (rs.map fun r => r.word).flatten ++ (blks.drop q.good).flatten

variable (ord : FlipOrder) (g : Nat) (h : Bool)

theorem exists_sumsGoodBlocks (blks : List Bits) :
    ∃ rs es, SumsGoodBlocks (fun b => block32 ord g b h) blks rs es (blockSeq ord g h blks) := by
  induction blks with
  | nil => exact ⟨[], [], by constructor <;> simp [blockSeq]⟩
  | cons b bs ih =>
    obtain ⟨rs, es, hseq⟩ := ih
    cases he : (block32 ord g b h).errs with
    | none =>
      refine ⟨[], [], ?_⟩
      simp only [blockSeq, he]
      constructor <;> simp [he]
    | some e =>
      refine ⟨block32 ord g b h :: rs, e :: es, ?_⟩
      simp only [blockSeq, he]
      obtain ⟨hle, hrs, herrs, hstops, htotal, hflagged, htrunc, hout⟩ := hseq
      constructor
      case good_le => simpa using hle
      case results => simpa using hrs
      case errs => simpa [he] using herrs
      case stops => simpa using hstops
      case total => simp [htotal, Nat.add_comm]
      case flagged => by_cases hp : (block32 ord g b h).parity = 1 <;> simp [hp, hflagged]
      case trunc => simp [htrunc]
      case out => simp [hout]

end Sys2Proof.Machine
end

section
/-! The BCH commands (O39, O40, O45, O46, O48): each checks its slot, a length, its regions, and then reads its source. -/

namespace Sys2Proof.Machine

open Sys2Proof.Claims

variable {i : Instr} {s t : State} {slot : Fin 8}

/-! ### What the commands share -/

theorem exec_of_noPoly (hb : i.opcode.toNat ∈ bchOps) (hs : i.sel = selOf slot) (hp : polyAt slot < 2) :
    exec i s = .next (failedWith s 0x05) :=
  exec_of_error (resultOf_noPoly hb hs hp) rfl

/-- A command that checks a length, then its regions, then reads its source. -/
def checkedRead (s : State) (badLength badRange : Prop) [Decidable badLength] [Decidable badRange] (src n : Nat)
    (k : Bits → CmdResult) : CmdResult :=
  if badLength then .error .length else if badRange then .error .range else readBits s src n k

section
variable {badLength badRange : Prop} [Decidable badLength] [Decidable badRange] {src n : Nat} {k : Bits → CmdResult}
  (hc : resultOf i s = checkedRead s badLength badRange src n k)
include hc

theorem exec_of_badLength (h : badLength) : exec i s = .next (failedWith s 0x04) :=
  exec_of_error (hc.trans (if_pos h)) rfl

theorem exec_of_badRange (hl : ¬ badLength) (h : badRange) : exec i s = .next (failedWith s 0x03) :=
  exec_of_error (hc.trans ((if_neg hl).trans (if_pos h))) rfl

theorem resultOf_of_checks (hl : ¬ badLength) (hr : ¬ badRange) {x : Bits} (hx : x.length = n) (hh : Holds s.bitmem src x) :
    resultOf i s = k x :=
  hc.trans ((if_neg hl).trans ((if_neg hr).trans (readBits_of_holds k hx hh)))

end

theorem Succeeds.res_four {a b c d w : Word} {ws : List Word} (h : Succeeds s t (a :: b :: c :: d :: w :: ws)) :
    t.res[4] = w := h.res 4

theorem Succeeds.res_five {a b c d e w : Word} {ws : List Word} (h : Succeeds s t (a :: b :: c :: d :: e :: w :: ws)) :
    t.res[5] = w := h.res 5

/-! ### BCH_DIV (42_bch.md rule R176) -/

theorem resultOf_bchDiv (hp : 2 ≤ polyAt slot) : resultOf (.bchDiv (selOf slot)) s =
    checkedRead s (s.operand 1 < 1 ∨ 64 < s.operand 1) (¬ s.operand 0 + s.operand 1 ≤ 2048) (s.operand 0) (s.operand 1)
      fun c => .success { res := [wordOf (rem (polyAt slot) c), wordOf (deg (polyAt slot))] } := by
  rw [resultOf, bchDivResult, withPoly_present (slotOf_selOf slot) hp]
  rfl

/-- Settles O39. -/
theorem bchDivGivesRemainder : Obligations.BchDivGivesRemainder := by
  rintro s slot _ _ rfl rfl
  refine ⟨exec_of_noPoly (i := .bchDiv (selOf slot)) (by simp [bchOps, Instr.opcode]) rfl,
    fun hp h => exec_of_badLength (resultOf_bchDiv hp) h,
    fun hp hlo hhi h => exec_of_badRange (resultOf_bchDiv hp) (by omega) (Nat.not_le.2 h), fun hp hlo hhi hr c hl hc => ?_⟩
  obtain ⟨t, hex, hsucc, hkeeps⟩ := exec_of_res (resultOf_of_checks (resultOf_bchDiv hp) (by omega) (by omega) hl hc)
  refine ⟨t, hex, ?_⟩
  rw [hsucc.res_zero, show (wordOf (rem (polyAt slot) c)).toNat = rem (polyAt slot) c from rem_word hp c, ← hl]
  exact ⟨hsucc, polyMod_lt (by omega) _, polyMod_spec _ _ _ (val_lt c), hkeeps⟩

/-! ### BCH_DECODE (42_bch.md rule R177) -/

theorem resultOf_bchDecode (hp : 2 ≤ polyAt slot) : resultOf (.bchDecode (selOf slot)) s =
    checkedRead s (s.operand 1 ≤ deg (polyAt slot) ∨ 64 < s.operand 1)
      (¬ s.operand 0 + s.operand 1 ≤ 2048 ∨ ¬ s.operand 2 + s.operand 1 ≤ 2048) (s.operand 0) (s.operand 1) fun c =>
        let r := bchDecode .coeff (polyAt slot) c
        let k := s.operand 1 - deg (polyAt slot)
        .success
          { res := [optWord r.errs, optWord r.p1, optWord r.p2, wordOf k, dataWord r.word k, wordOf (rem (polyAt slot) c)]
            bits := (s.operand 2, r.word) } := by
  rw [resultOf, bchDecodeResult, withPoly_present (slotOf_selOf slot) hp]
  rfl

/-- Settles O40. -/
theorem bchDecodeCommandResults : Obligations.BchDecodeCommandResults := by
  rintro s slot _ _ _ rfl rfl rfl
  refine ⟨exec_of_noPoly (i := .bchDecode (selOf slot)) (by simp [bchOps, Instr.opcode]) rfl,
    fun hp h => exec_of_badLength (resultOf_bchDecode hp) h,
    fun hp hlo hhi h => exec_of_badRange (resultOf_bchDecode hp) (by omega) (by omega), ?_⟩
  rintro hp hlo hhi hs hd c _ hl hc rfl
  obtain ⟨t, hex, ht⟩ := exec_of_bits (resultOf_of_checks (resultOf_bchDecode hp) (by omega) (by omega) hl hc)
  have hlen : (bchDecode .coeff (polyAt slot) c).word.length = s.operand 1 := (bchDecode_length _ _ c).trans hl
  refine ⟨t, hex, ?_⟩
  rw [ht.succeeds.res_four, ht.succeeds.res_five]
  exact ⟨ht.succeeds, dataWord_toNat _ _, rem_word hp c, hlen, ht.holds, hlen ▸ ht.outside, ht.syms, ht.out⟩

/-! ### BCH_DECODE2P (42_bch.md rule R179) -/

theorem resultOf_bchDecode2p (hp : 2 ≤ polyAt slot) : resultOf (.bchDecode2p (selOf slot)) s =
    checkedRead s (s.operand 1 ≤ deg (polyAt slot) ∨ 64 < s.operand 1 ∨ s.operand 3 > s.operand 1 - 1)
      (¬ s.operand 0 + (s.operand 1 - 1) ≤ 2048 ∨ ¬ s.operand 2 + s.operand 1 ≤ 2048) (s.operand 0) (s.operand 1 - 1)
      fun x =>
        let r := (padDecode .coeff (polyAt slot) x (s.operand 3)).1
        let b := (padDecode .coeff (polyAt slot) x (s.operand 3)).2
        let k := s.operand 1 - deg (polyAt slot)
        .success
          { res := [optWord r.errs, optWord r.p1, optWord r.p2, wordOf k, dataWord r.word k,
              wordOf (rem (polyAt slot) (padded x (s.operand 3) b)), boolWord b]
            bits := (s.operand 2, r.word) } := by
  rw [resultOf, bchDecode2pResult, withPoly_present (slotOf_selOf slot) hp]
  rfl

/-- The candidate with a pad bit, in the words of the claims. -/
theorem append_singleton_append_eq_padded (x : Bits) (p : Nat) (b : Bool) : x.take p ++ [b] ++ x.drop p = padded x p b := by
  rw [List.append_assoc]
  rfl

/-- Settles O45. -/
theorem padDecodeCommandResults : Obligations.PadDecodeCommandResults := by
  rintro s slot _ _ _ _ rfl rfl rfl rfl
  refine ⟨exec_of_noPoly (i := .bchDecode2p (selOf slot)) (by simp [bchOps, Instr.opcode]) rfl,
    fun hp h => exec_of_badLength (resultOf_bchDecode2p hp) (by omega),
    fun hp hlo hhi hpad h => exec_of_badRange (resultOf_bchDecode2p hp) (by omega) (by omega), ?_⟩
  intro hp hlo hhi hpad hs hd x _ _ hl hx
  simp only [append_singleton_append_eq_padded]
  rintro rfl rfl
  obtain ⟨t, hex, ht⟩ := exec_of_bits (resultOf_of_checks (resultOf_bchDecode2p hp) (by omega) (by omega) hl hx)
  have hlen : (padDecode .coeff (polyAt slot) x (s.operand 3)).1.word.length = s.operand 1 := by
    rw [padDecode_length (by omega)]
    omega
  refine ⟨t, (padDecode .coeff (polyAt slot) x (s.operand 3)).1, (padDecode .coeff (polyAt slot) x (s.operand 3)).2, hex,
    ?_, ?_⟩
  · rcases padDecode_cases .coeff (polyAt slot) x (s.operand 3) with ⟨hle, hr⟩ | ⟨hlt, hr⟩ <;> rw [hr]
    · exact .inl ⟨rfl, rfl, hle⟩
    · exact .inr ⟨rfl, rfl, hlt⟩
  · rw [ht.succeeds.res_four, ht.succeeds.res_five]
    exact ⟨ht.succeeds, dataWord_toNat _ _, rem_word hp _, hlen, ht.holds, hlen ▸ ht.outside, ht.syms, ht.out⟩

/-! ### BCH_BLOCK32 (42_bch.md rule R180) -/

theorem resultOf_bchBlock32 (hp : 2 ≤ polyAt slot) : resultOf (.bchBlock32 (selOf slot)) s =
    checkedRead s (31 ≤ deg (polyAt slot)) (¬ s.operand 0 + 32 ≤ 2048 ∨ ¬ s.operand 1 + 32 ≤ 2048) (s.operand 0) 32
      fun blk =>
        let r := block32 .coeff (polyAt slot) blk s.lCtrl.harder
        .success
          { res := [optWord r.errs, wordOf r.parity, optWord r.p1, optWord r.p2,
              wordOf (val (r.word.take (31 - deg (polyAt slot)))), wordOf (rem (polyAt slot) (blk.take 31))]
            bits := (s.operand 1, r.word) } := by
  rw [resultOf, bchBlock32Result, withPoly_present (slotOf_selOf slot) hp]
  rfl

/-- Settles O46. -/
theorem block32CommandResults : Obligations.Block32CommandResults := by
  rintro s slot _ _ rfl rfl
  refine ⟨exec_of_noPoly (i := .bchBlock32 (selOf slot)) (by simp [bchOps, Instr.opcode]) rfl,
    fun hp h => exec_of_badLength (resultOf_bchBlock32 hp) h,
    fun hp hdeg h => exec_of_badRange (resultOf_bchBlock32 hp) (by omega) (by omega), ?_⟩
  rintro hp hdeg hs hd blk _ hl hx rfl
  obtain ⟨t, hex, ht⟩ := exec_of_bits (resultOf_of_checks (resultOf_bchBlock32 hp) (by omega) (by omega) hl hx)
  have hlen : (block32 .coeff (polyAt slot) blk s.lCtrl.harder).word.length = 32 := block32_length hl
  have hdata : ((block32 .coeff (polyAt slot) blk s.lCtrl.harder).word.take (31 - deg (polyAt slot))).length ≤ 32 :=
    (List.length_take_le _ _).trans (by omega)
  refine ⟨t, hex, ?_⟩
  rw [ht.succeeds.res_four, ht.succeeds.res_five]
  exact ⟨ht.succeeds, val_toNat_of_length hdata, rem_word hp _, hlen, ht.holds, hlen ▸ ht.outside, ht.syms, ht.out⟩

/-! ### BCH_BLOCKSEQ (42_bch.md rule R181) -/

theorem resultOf_bchBlockseq (hp : 2 ≤ polyAt slot) : resultOf (.bchBlockseq (selOf slot)) s =
    checkedRead s (31 ≤ deg (polyAt slot) ∨ 64 < s.operand 1)
      (¬ s.operand 0 + 32 * s.operand 1 ≤ 2048 ∨ ¬ s.operand 2 + 32 * s.operand 1 ≤ 2048) (s.operand 0)
      (32 * s.operand 1) fun x =>
        let q := blockSeq .coeff (polyAt slot) s.lCtrl.harder (groups 32 (s.operand 1) x)
        .success
          { res := [wordOf q.good, wordOf q.total, wordOf q.flagged, wordOf (32 * q.good), boolWord q.trunc]
            bits := (s.operand 2, q.out) } := by
  rw [resultOf, bchBlockseqResult, withPoly_present (slotOf_selOf slot) hp]
  rfl

theorem groups_getElem? {w k m : Nat} (x : Bits) (h : m < k) : (groups w k x)[m]? = some ((x.drop (w * m)).take w) := by
  have hm : m < (groups w k x).length := by rwa [groups_length]
  rw [List.getElem?_eq_getElem hm, groups_getElem, Nat.mul_comm]
  rfl

theorem groups_take {w k m : Nat} (x : Bits) (h : m ≤ k) :
    (groups w k x).take m = (List.range m).map fun i => (x.drop (w * i)).take w := by
  refine List.ext_getElem? fun i => ?_
  by_cases hi : i < m
  · rw [List.getElem?_take_of_lt hi, groups_getElem? x (by omega), List.getElem?_map, List.getElem?_range hi]
    rfl
  · simp [hi]

theorem groups_drop (w k m : Nat) (x : Bits) : (groups w (m + k) x).drop m = groups w k (x.drop (m * w)) := by
  induction m generalizing x with
  | zero => simp
  | succ m ih => rw [Nat.succ_add, groups, List.drop_succ_cons, ih, List.drop_drop, Nat.succ_mul, Nat.add_comm w]

/-- Everything from group `m` on, put together again. -/
theorem groups_drop_flatten {w k m : Nat} {x : Bits} (hl : x.length = w * k) (h : m ≤ k) :
    ((groups w k x).drop m).flatten = x.drop (w * m) := by
  obtain ⟨j, rfl⟩ := Nat.exists_eq_add_of_le h
  rw [groups_drop, groups_flatten, Nat.mul_comm]
  rw [List.length_drop, hl, Nat.mul_add]
  simp [Nat.mul_comm]

/-- Settles O48. -/
theorem blockSeqCommandResults : Obligations.BlockSeqCommandResults := by
  rintro s slot _ _ _ rfl rfl rfl
  refine ⟨exec_of_noPoly (i := .bchBlockseq (selOf slot)) (by simp [bchOps, Instr.opcode]) rfl,
    fun hp h => exec_of_badLength (resultOf_bchBlockseq hp) h,
    fun hp hdeg hhi h => exec_of_badRange (resultOf_bchBlockseq hp) (by omega) (by omega), ?_⟩
  intro hp hdeg hhi hs hd x hl hx
  obtain ⟨t, hex, ht⟩ := exec_of_bits (resultOf_of_checks (resultOf_bchBlockseq hp) (by omega) (by omega) hl hx)
  obtain ⟨rs, es, hle, hrs, herrs, hstops, htotal, hflagged, htrunc, hout⟩ :=
    exists_sumsGoodBlocks .coeff (polyAt slot) s.lCtrl.harder (groups 32 (s.operand 1) x)
  have hlen := blockSeq_length (ord := .coeff) (g := polyAt slot) (h := s.lCtrl.harder)
    (blks := groups 32 (s.operand 1) x) fun b => groups_mem_length (by omega)
  rw [groups_length] at hle htrunc hlen
  rw [groups_take x hle, List.map_map] at hrs
  rw [groups_drop_flatten hl hle] at hout
  rw [htotal, hflagged, htrunc] at ht
  refine ⟨t, rs, es, _, hex, hle, hrs, herrs, fun hlt => hstops _ (groups_getElem? x hlt), ht.succeeds,
    hout ▸ ht.holds, hlen ▸ ht.outside, ht.syms, ht.out⟩

end Sys2Proof.Machine
end

section
/-! One changed symbol (O51): the syndromes it gives, and what each stage of the decoder makes of them. -/

namespace Sys2Proof.Machine

variable {f : RsCode}

/-! ### Field arithmetic on the model's numbers (43_rs.md rules R210, R211) -/

namespace RsCode.Field

variable (F : f.Field) {a b c : Nat}
include F

theorem elt_mul_right_cancel (ha : a < 2 ^ f.m) (hb : b < 2 ^ f.m) (hc : c < 2 ^ f.m) (h0 : c ≠ 0)
    (h : f.elt a * f.elt c = f.elt b * f.elt c) : a = b := by
  obtain ⟨k, -, hk⟩ := F.exists_alpha_pow hc h0
  rw [hk] at h
  exact F.elt_inj ha hb ((Units.mul_left_inj _).1 h)

theorem gfMul_one (ha : a < 2 ^ f.m) : gfMul f a 1 = a :=
  F.elt_inj (F.mul_lt _ _) ha (by rw [RsCode.elt_mul _ F.one_lt, RsCode.elt_one, mul_one])

theorem gfMul_zero (a : Nat) : gfMul f a 0 = 0 := by
  have hz : 0 < 2 ^ f.m := Nat.two_pow_pos _
  exact F.elt_inj (F.mul_lt _ _) hz (by rw [RsCode.elt_mul _ hz, RsCode.elt_zero, mul_zero])

theorem gfMul_comm (ha : a < 2 ^ f.m) (hb : b < 2 ^ f.m) : gfMul f a b = gfMul f b a :=
  F.elt_inj (F.mul_lt _ _) (F.mul_lt _ _) (by rw [RsCode.elt_mul _ ha, RsCode.elt_mul _ hb, mul_comm])

/-- `a` is the quotient when `a * b` is the dividend. -/
theorem gfDiv_eq (ha : a < 2 ^ f.m) (hb : b < 2 ^ f.m) (h0 : b ≠ 0) (h : f.elt a * f.elt b = f.elt c) : gfDiv f c b = a :=
  F.elt_mul_right_cancel (F.div_lt _ _) ha hb h0 ((F.elt_div _ hb h0).trans h.symm)

theorem gfDiv_one (ha : a < 2 ^ f.m) : gfDiv f a 1 = a :=
  F.gfDiv_eq ha F.one_lt one_ne_zero (by rw [RsCode.elt_one, mul_one])

theorem alphaPow_ne_zero (e : Int) : alphaPow f e ≠ 0 := by
  intro h
  have hz : (0 : AdjoinRoot (natPoly f.prim)) = (F.alpha ^ e : (AdjoinRoot (natPoly f.prim))ˣ) := by
    rw [← F.elt_alphaPow, h, RsCode.elt_zero]
  have h01 : f.elt 0 = f.elt 1 := by
    rw [RsCode.elt_zero, RsCode.elt_one, ← Units.mul_inv (F.alpha ^ e), ← hz, zero_mul]
  exact absurd (F.elt_inj (Nat.two_pow_pos _) F.one_lt h01) zero_ne_one

theorem gfMul_alphaPow (d e : Int) : gfMul f (alphaPow f d) (alphaPow f e) = alphaPow f (d + e) := by
  refine F.elt_inj (F.mul_lt _ _) (F.alphaPow_lt _) ?_
  rw [RsCode.elt_mul _ (F.alphaPow_lt _), F.elt_alphaPow, F.elt_alphaPow, F.elt_alphaPow, zpow_add, Units.val_mul]

theorem alphaPow_eq_one_iff (e : Int) : alphaPow f e = 1 ↔ F.alpha ^ e = 1 := by
  rw [← Units.val_inj, ← F.elt_alphaPow, Units.val_one, ← RsCode.elt_one (f := f)]
  exact ⟨congrArg _, F.elt_inj (F.alphaPow_lt _) F.one_lt⟩

/-- Different positions have different locators. -/
theorem alpha_locatorExp_inj {i j : Nat} (hi : i < f.n) (hj : j < f.n)
    (h : F.alpha ^ locatorExp f i = F.alpha ^ locatorExp f j) : i = j := by
  have hexp : ∀ k, k < f.n → locatorExp f k = ((f.n - 1 - k : Nat) : Int) := fun k hk => by
    simp only [locatorExp]
    omega
  rw [hexp i hi, hexp j hj, zpow_natCast, zpow_natCast] at h
  have := F.alpha_pow_inj (by omega) (by omega) h
  omega

end RsCode.Field

/-- A changed symbol is still a symbol (43_rs.md rule R210). -/
theorem forall_mem_modify_xor_lt {c : List Nat} {i e : Nat} (hc : ∀ v ∈ c, v < 2 ^ f.m) (he : e < 2 ^ f.m) :
    ∀ v ∈ c.modify i (fun v => v ^^^ e), v < 2 ^ f.m := by
  intro v hv
  obtain ⟨k, hk, rfl⟩ := List.mem_iff_getElem.1 hv
  have hck := hc _ (List.getElem_mem (by simpa using hk))
  rw [List.getElem_modify]
  split
  · exact Nat.xor_lt_two_pow hck he
  · exact hck

/-! ### The syndromes of one error (43_rs.md rule R214) -/

/-- The syndromes of a word with one error of locator `a`: not zero, and each is the one before times `a`. -/
structure OneErrorSyndromes (f : RsCode) (a : Nat) (c : List Nat) : Prop where
  lt : ∀ j, syndrome f c j < 2 ^ f.m
  ne_zero : syndrome f c 0 ≠ 0
  succ : ∀ j, j + 1 < f.nsym → syndrome f c (j + 1) = gfMul f a (syndrome f c j)

theorem syndromes_getD {c : List Nat} {j : Nat} (h : j < f.nsym) : (syndromes f c).getD j 0 = syndrome f c j := by
  simp [syndromes, h]

/-- The locator `X_i` of a position (43_rs.md rule R213). -/
def locator (f : RsCode) (i : Nat) : Nat := alphaPow f (locatorExp f i)

section
variable (F : f.Field) {c : List Nat} (hc : ∀ v ∈ c, v < 2 ^ f.m) (hl : c.length = f.n) {i e : Nat} (hi : i < f.n)
  (he : e < 2 ^ f.m)
include F hc hl hi he

/-- The syndromes of a codeword position i of which is changed by e (43_rs.md rule R214). -/
theorem elt_syndrome_modify_codeword {j : Nat} (hz : syndrome f c j = 0) :
    f.elt (syndrome f (c.modify i fun v => v ^^^ e) j) =
      f.elt e * ((F.alpha ^ locatorExp f i) ^ (f.fcr + j) : (AdjoinRoot (natPoly f.prim))ˣ) := by
  rw [F.elt_syndrome_modify hc hl hi he, hz, RsCode.elt_zero, zero_add]

theorem oneErrorSyndromes_modify (h2 : 2 ≤ f.nsym) (h0 : 0 < e) (hz : ∀ j, j < f.nsym → syndrome f c j = 0) :
    OneErrorSyndromes f (locator f i) (c.modify i fun v => v ^^^ e) := by
  have hlt : ∀ j, syndrome f (c.modify i fun v => v ^^^ e) j < 2 ^ f.m :=
    F.syndrome_lt (forall_mem_modify_xor_lt hc he)
  refine ⟨hlt, fun h => ?_, fun j hj => F.elt_inj (hlt _) (F.mul_lt _ _) ?_⟩
  · have helt := elt_syndrome_modify_codeword F hc hl hi he (hz 0 (by omega))
    rw [h, RsCode.elt_zero, eq_comm, Units.mul_left_eq_zero, F.elt_eq_zero he] at helt
    omega
  · rw [RsCode.elt_mul _ (hlt _), elt_syndrome_modify_codeword F hc hl hi he (hz _ hj),
      elt_syndrome_modify_codeword F hc hl hi he (hz j (by omega)), locator, F.elt_alphaPow, ← add_assoc, pow_succ,
      Units.val_mul]
    ring

end

/-! ### Berlekamp–Massey (43_rs.md rule R215) -/

theorem bmStep_of_delta_eq_zero {synd : List Nat} {st : BmState} {r : Nat} (h : bmDelta f synd st r = 0) :
    bmStep f synd st r = { st with k := st.k + 1 } := if_pos h

theorem bmDelta_of_nu_eq_one {synd : List Nat} {st : BmState} {r : Nat} (h : st.nu = 1) :
    bmDelta f synd st r = synd.getD r 0 ^^^ gfMul f (st.lam.getD 1 0) (synd.getD (r - 1) 0) := by
  rw [bmDelta, h]
  rfl

theorem bmStep_of_lt_two_mul_nu {synd : List Nat} {st : BmState} {r : Nat} (h : bmDelta f synd st r ≠ 0)
    (hr : r < 2 * st.nu) : bmStep f synd st r =
      { st with
        lam := gfPolyAdd st.lam (gfPolyScaleShift f (gfDiv f (bmDelta f synd st r) st.b) st.k st.prev)
        k := st.k + 1 } :=
  (if_neg h).trans (if_neg (Nat.not_le.2 hr))

/-- The state before iteration 0. -/
def bmInit : BmState := { lam := [1], prev := [1], nu := 0, k := 1, b := 1 }

/-- The state after iteration 0, when S_0 is `d` and not zero: the locator polynomial is 1 + d x. -/
def bmFirst (d : Nat) : BmState := { lam := [1, d], prev := [1], nu := 1, k := 1, b := d }

/-- The locator polynomial is 1 + a x, of length 1. -/
def HasLocator (a : Nat) (st : BmState) : Prop := st.lam = [1, a] ∧ st.nu = 1

theorem berlekampMassey_eq (f : RsCode) (synd : List Nat) :
    berlekampMassey f synd = (List.range f.nsym).foldl (bmStep f synd) bmInit := rfl

section
variable {a : Nat} {c : List Nat} (h : OneErrorSyndromes f a c)
include h

/-- Iteration r, from 2 on, finds no discrepancy: S_r = a S_(r-1). -/
theorem bmStep_keeps_hasLocator {st : BmState} {r : Nat} (hr : r + 2 < f.nsym) (hst : HasLocator a st) :
    HasLocator a (bmStep f (syndromes f c) st (r + 2)) := by
  obtain ⟨hlam, hnu⟩ := hst
  have hd : bmDelta f (syndromes f c) st (r + 2) = 0 := by
    rw [bmDelta_of_nu_eq_one hnu, hlam, syndromes_getD hr, Nat.add_sub_cancel (r + 1) 1,
      syndromes_getD (j := r + 1) (by omega), h.succ _ hr]
    exact Nat.xor_self _
  rw [bmStep_of_delta_eq_zero hd]
  exact ⟨hlam, hnu⟩

variable (F : f.Field) (h2 : 2 ≤ f.nsym)
include F h2

theorem bmStep_zero : bmStep f (syndromes f c) bmInit 0 = bmFirst (syndrome f c 0) := by
  have hd : bmDelta f (syndromes f c) bmInit 0 = syndrome f c 0 := syndromes_getD (by omega)
  simp only [bmStep, hd, if_neg h.ne_zero]
  simp [bmInit, bmFirst, gfPolyScaleShift, gfPolyAdd, F.gfDiv_one (h.lt 0), F.gfMul_one (h.lt 0)]

variable (ha : a < 2 ^ f.m)
include ha

/-- Iteration 1 corrects the locator polynomial 1 + S_0 x to 1 + a x, by (S_1 + S_0 S_0) / S_0 = a + S_0. -/
theorem bmStep_one_hasLocator : HasLocator a (bmStep f (syndromes f c) (bmFirst (syndrome f c 0)) 1) := by
  have h0 := h.lt 0
  have hd : bmDelta f (syndromes f c) (bmFirst (syndrome f c 0)) 1 =
      gfMul f a (syndrome f c 0) ^^^ gfMul f (syndrome f c 0) (syndrome f c 0) := by
    rw [bmDelta_of_nu_eq_one rfl, syndromes_getD h2, Nat.sub_self, syndromes_getD (by omega), h.succ 0 h2]
    rfl
  by_cases hz : bmDelta f (syndromes f c) (bmFirst (syndrome f c 0)) 1 = 0
  · have hS0 : syndrome f c 0 = a := by
      rw [hd, Nat.xor_eq_zero_iff] at hz
      refine F.elt_mul_right_cancel h0 ha h0 h.ne_zero ?_
      rw [← RsCode.elt_mul _ h0, ← RsCode.elt_mul _ h0, hz]
    rw [bmStep_of_delta_eq_zero hz, bmFirst, hS0]
    exact ⟨rfl, rfl⟩
  · have hq : gfDiv f (bmDelta f (syndromes f c) (bmFirst (syndrome f c 0)) 1) (syndrome f c 0) =
        syndrome f c 0 ^^^ a := by
      refine F.gfDiv_eq (Nat.xor_lt_two_pow h0 ha) h0 h.ne_zero ?_
      rw [hd, RsCode.elt_xor, RsCode.elt_xor, RsCode.elt_mul _ h0, RsCode.elt_mul _ h0, add_mul, add_comm]
    rw [bmStep_of_lt_two_mul_nu hz Nat.one_lt_two, show (bmFirst (syndrome f c 0)).b = syndrome f c 0 from rfl, hq]
    refine ⟨?_, rfl⟩
    simp [bmFirst, gfPolyScaleShift, gfPolyAdd, F.gfMul_one (Nat.xor_lt_two_pow h0 ha)]

theorem foldl_bmStep_hasLocator (k : Nat) (hk : k + 2 ≤ f.nsym) :
    HasLocator a ((List.range (k + 2)).foldl (bmStep f (syndromes f c)) bmInit) := by
  induction k with
  | zero =>
    have hfold : (List.range 2).foldl (bmStep f (syndromes f c)) bmInit =
        bmStep f (syndromes f c) (bmFirst (syndrome f c 0)) 1 :=
      congrArg (bmStep f (syndromes f c) · 1) (bmStep_zero h F h2)
    exact hfold ▸ bmStep_one_hasLocator h F h2 ha
  | succ k ih =>
    rw [List.range_succ, List.foldl_concat]
    exact bmStep_keeps_hasLocator h hk (ih (by omega))

theorem berlekampMassey_hasLocator : HasLocator a (berlekampMassey f (syndromes f c)) := by
  obtain ⟨k, hk⟩ := Nat.exists_eq_add_of_le' h2
  rw [berlekampMassey_eq, hk]
  exact foldl_bmStep_hasLocator h F h2 ha k hk.ge

end

/-! ### The search (43_rs.md rule R216) -/

theorem gfEval_cons (a : Nat) (cs : List Nat) (x : Nat) : gfEval f (a :: cs) x = a ^^^ gfMul f x (gfEval f cs x) := rfl

theorem RsCode.Field.gfEval_constant (F : f.Field) (a k x : Nat) : gfEval f (a :: List.replicate k 0) x = a := by
  induction k generalizing a with
  | zero => rw [gfEval_cons, List.replicate_zero, show gfEval f [] x = 0 from rfl, F.gfMul_zero, Nat.xor_zero]
  | succ k ih => rw [gfEval_cons, List.replicate_succ, ih, F.gfMul_zero, Nat.xor_zero]

theorem RsCode.Field.gfEval_pair (F : f.Field) (b a x : Nat) : gfEval f [b, a] x = b ^^^ gfMul f x a := by
  rw [gfEval_cons, show gfEval f [a] x = a from F.gfEval_constant a 0 x]

/-- The only position whose inverse locator is a root of 1 + X_i x is i. -/
theorem RsCode.Field.errorPositions_locator (F : f.Field) {i : Nat} (hi : i < f.n) :
    errorPositions f [1, locator f i] = [i] := by
  have hroot : ∀ j, j < f.n → (gfEval f [1, locator f i] (alphaPow f (-locatorExp f j)) = 0 ↔ j = i) := by
    intro j hj
    rw [F.gfEval_pair, Nat.xor_eq_zero_iff, eq_comm, locator, F.gfMul_alphaPow, F.alphaPow_eq_one_iff, zpow_add, zpow_neg,
      inv_mul_eq_one]
    exact ⟨F.alpha_locatorExp_inj hj hi, fun h => h ▸ rfl⟩
  have hfilter : errorPositions f [1, locator f i] = (List.range f.n).filter fun j => j == i :=
    List.filter_congr fun j hj => by
      rw [decide_eq_decide.2 (hroot j (List.mem_range.1 hj))]
      rfl
  rw [hfilter, List.filter_beq, List.count_range, if_pos hi]
  rfl

/-! ### The error value (43_rs.md rule R217) -/

/-- The product of S_0 + S_1 x + … by 1 + a x is S_0, up to the last power, when each S is `a` times the one before. -/
theorem RsCode.Field.gfPolyMul_take (F : f.Field) {a s : Nat} {ss : List Nat} (hs : ∀ v ∈ s :: ss, v < 2 ^ f.m)
    (hc : (s :: ss).IsChain fun u v => v = gfMul f u a) :
    (gfPolyMul f (s :: ss) [1, a]).take (ss.length + 1) = s :: List.replicate ss.length 0 := by
  have hs1 : gfMul f s 1 = s := F.gfMul_one (hs s List.mem_cons_self)
  induction ss generalizing s with
  | nil => simp [gfPolyMul, gfPolyAdd, hs1]
  | cons s' ss ih =>
    have hs' : ∀ v ∈ s' :: ss, v < 2 ^ f.m := fun v hv => hs v (List.mem_cons_of_mem _ hv)
    obtain ⟨hstep, hc⟩ := List.isChain_cons_cons.1 hc
    have htail := ih hs' hc (F.gfMul_one (hs' s' List.mem_cons_self))
    cases hp : gfPolyMul f (s' :: ss) [1, a] with
    | nil => simp [hp] at htail
    | cons p ps =>
      rw [hp, List.take_succ_cons, List.cons.injEq] at htail
      rw [gfPolyMul, hp]
      simp [gfPolyAdd, hs1, htail, ← hstep, List.replicate_succ]

theorem RsCode.Field.omega_oneError (F : f.Field) {a : Nat} (ha : a < 2 ^ f.m) {c : List Nat} (h : OneErrorSyndromes f a c)
    (h2 : 2 ≤ f.nsym) :
    (gfPolyMul f (syndromes f c) [1, a]).take f.nsym = syndrome f c 0 :: List.replicate (f.nsym - 1) 0 := by
  have hchain : (syndromes f c).IsChain fun u v => v = gfMul f u a := by
    refine List.isChain_iff_getElem.2 fun j hj => ?_
    have hj' : j + 1 < f.nsym := by simpa [syndromes] using hj
    simp only [syndromes, List.getElem_map, List.getElem_range]
    rw [h.succ j hj', F.gfMul_comm ha (h.lt j)]
  have hlt : ∀ v ∈ syndromes f c, v < 2 ^ f.m := by
    simp only [syndromes, List.mem_map]
    rintro _ ⟨j, -, rfl⟩
    exact h.lt j
  obtain ⟨k, hk⟩ : ∃ k, f.nsym = k + 1 := ⟨f.nsym - 1, by omega⟩
  have hcons : syndromes f c = syndrome f c 0 :: (List.range k).map fun j => syndrome f c (j + 1) := by
    rw [syndromes, hk, List.range_succ_eq_map, List.map_cons, List.map_map]
    rfl
  rw [hcons] at hchain hlt ⊢
  simpa [hk] using F.gfPolyMul_take hlt hchain

/-- Forney's formula with S_0 = e X_i^FCR gives e. -/
theorem RsCode.Field.errorValue_oneError (F : f.Field) {s e i k : Nat} (hs : s < 2 ^ f.m) (he : e < 2 ^ f.m)
    (h : f.elt s = f.elt e * ((F.alpha ^ locatorExp f i) ^ f.fcr : (AdjoinRoot (natPoly f.prim))ˣ)) :
    errorValue f [1, locator f i] (s :: List.replicate k 0) i = some e := by
  have hd : gfEval f (gfDerivative [1, locator f i]) (alphaPow f (-locatorExp f i)) = locator f i :=
    F.gfEval_constant (locator f i) 0 _
  have hx0 : locator f i ≠ 0 := F.alphaPow_ne_zero _
  rw [errorValue]
  simp only [hd, if_neg hx0, F.gfEval_constant]
  refine congrArg some (F.gfDiv_eq he (F.alphaPow_lt _) hx0 ?_)
  have hexp : F.alpha ^ (locatorExp f i * (1 - (f.fcr : Int))) * (F.alpha ^ locatorExp f i) ^ f.fcr =
      F.alpha ^ locatorExp f i := by
    rw [← zpow_natCast, ← zpow_mul, ← zpow_add]
    congr 1
    ring
  rw [RsCode.elt_mul _ hs, h, locator, F.elt_alphaPow, F.elt_alphaPow, mul_left_comm, ← Units.val_mul, hexp]

/-! ### The decoder -/

theorem rsPad_modify {c : List Nat} {i : Nat} (hi : i < c.length) (g : Nat → Nat) :
    rsPad f (c.modify i g) = (rsPad f c).modify i g := by
  refine List.ext_getElem? fun k => ?_
  simp only [rsPad, List.length_modify, List.getElem?_modify, List.getElem?_append]
  by_cases hk : k < c.length
  · simp [hk]
  · simp [hk, show i ≠ k by omega]

theorem modify_xor_modify_xor (c : List Nat) (i e : Nat) :
    (c.modify i fun v => v ^^^ e).modify i (fun v => v ^^^ e) = c := by
  rw [List.modify_modify_eq]
  have : ((fun v => v ^^^ e) ∘ fun v => v ^^^ e) = id := funext fun v => Nat.xor_xor_cancel_right v e
  rw [this, List.modify_id]

theorem take_rsPad (c : List Nat) : (rsPad f c).take c.length = c := List.take_left' rfl

/-- A decode whose corrections, at the positions found, give a codeword (43_rs.md rules R216 to R219). -/
theorem rsCorrect_of_corrected {r c' : List Nat} {bm : BmState} (hbm : berlekampMassey f (syndromes f (rsPad f r)) = bm)
    (hnu : bm.nu ≤ f.t) (hcount : (errorPositions f bm.lam).length = bm.nu)
    (hpos : ∀ i ∈ errorPositions f bm.lam, i < r.length)
    (hc : correctAt f bm.lam ((gfPolyMul f (syndromes f (rsPad f r)) bm.lam).take f.nsym) (rsPad f r)
      (errorPositions f bm.lam) = some c')
    (hz : ∀ j, j < f.nsym → syndrome f c' j = 0) :
    rsCorrect f r = some { ok := true, word := c'.take r.length, ncorr := bm.nu } := by
  have hany : ¬ ((errorPositions f bm.lam).length ≠ bm.nu ∨
      (errorPositions f bm.lam).any (fun i => decide (r.length ≤ i)) = true) := by
    simpa [hcount] using hpos
  simp only [rsCorrect, hbm, if_neg (Nat.not_lt.2 hnu), if_neg hany, hc, if_pos ((syndromes_all_zero f c').2 hz)]

theorem rsFix_of_rsCorrect {r : List Nat} {q : RsFixed} (h0 : syndrome f (rsPad f r) 0 ≠ 0) (hn : 0 < f.nsym)
    (h : rsCorrect f r = some q) : rsFix f r = q := by
  rw [rsFix, if_neg fun hz => h0 ((syndromes_all_zero _ _).1 hz 0 hn), h]
  rfl

/-- One changed symbol of a codeword is corrected (43_rs.md rule R222). -/
theorem RsCode.Field.rsFix_modify (F : f.Field) (h2 : 2 ≤ f.nsym) {c : List Nat} {i e : Nat} (hl : c.length ≤ f.n)
    (hc : ∀ v ∈ c, v < 2 ^ f.m) (hz : ∀ j, j < f.nsym → syndrome f (rsPad f c) j = 0) (hi : i < c.length) (h0 : 0 < e)
    (he : e < 2 ^ f.m) : rsFix f (c.modify i fun v => v ^^^ e) = { ok := true, word := c, ncorr := 1 } := by
  have hpl := rsPad_length hl
  have hpc := RsCode.Field.rsPad_lt hc
  have hin : i < f.n := by omega
  have hX : locator f i < 2 ^ f.m := F.alphaPow_lt _
  have hsynd := oneErrorSyndromes_modify F hpc hpl hin he h2 h0 hz
  have hS0 := elt_syndrome_modify_codeword F hpc hpl hin he (hz 0 (by omega))
  obtain ⟨hlam, hnu⟩ := berlekampMassey_hasLocator hsynd F h2 hX
  have hpos := F.errorPositions_locator hin
  rw [← rsPad_modify hi] at hsynd hS0 hlam hnu
  have hcorr : correctAt f [1, locator f i]
      ((gfPolyMul f (syndromes f (rsPad f (c.modify i fun v => v ^^^ e))) [1, locator f i]).take f.nsym)
      (rsPad f (c.modify i fun v => v ^^^ e)) [i] = some (rsPad f c) := by
    rw [correctAt, F.omega_oneError hX hsynd h2, F.errorValue_oneError (hsynd.lt 0) he hS0, rsPad_modify hi]
    exact congrArg some (modify_xor_modify_xor _ _ _)
  rw [rsFix_of_rsCorrect hsynd.ne_zero (by omega)
    (rsCorrect_of_corrected rfl (hnu.trans_le (by simp only [RsCode.t]; omega)) (by rw [hlam, hpos, hnu]; rfl)
      (by simpa [hlam, hpos] using hi) (by rw [hlam, hpos]; exact hcorr) hz),
    hnu, List.length_modify, take_rsPad]

/-! ### Soundness (43_rs.md rules R218, R219) -/

/-- A correction leaves the padding zero. -/
theorem rsPad_take_correctAt {lam omega is r c' : List Nat} (h : correctAt f lam omega (rsPad f r) is = some c')
    (hpos : ∀ i ∈ is, i < r.length) : rsPad f (c'.take r.length) = c' := by
  have hlen : r.length ≤ c'.length := by
    rw [correctAt_length h]
    simp [rsPad]
  have hpad : c'.drop r.length = List.replicate (f.n - r.length) 0 := by
    refine List.ext_getElem? fun k => ?_
    rw [List.getElem?_drop, correctAt_get h _ fun hm => absurd (hpos _ hm) (by omega), rsPad,
      List.getElem?_append_right (Nat.le_add_right _ _), Nat.add_sub_cancel_left]
  rw [rsPad, List.length_take_of_le hlen, ← hpad, List.take_append_drop]

/-- Only the positions found are changed. -/
theorem length_changed_le {lam omega is r c' : List Nat} (h : correctAt f lam omega (rsPad f r) is = some c') :
    ((List.range r.length).filter fun i => decide ((c'.take r.length)[i]? ≠ r[i]?)).length ≤ is.length := by
  refine ((List.nodup_range.filter _).subperm fun i hi => ?_).length_le
  obtain ⟨hir, hne⟩ := List.mem_filter.1 hi
  have hlt := List.mem_range.1 hir
  by_contra hm
  refine of_decide_eq_true hne ?_
  rw [List.getElem?_take_of_lt hlt, correctAt_get h i hm, rsPad, List.getElem?_append_left hlt]

/-- What a correction gives. -/
theorem rsCorrect_sound {r : List Nat} {q : RsFixed} (h : rsCorrect f r = some q) :
    q.ok = true ∧ (∀ j, j < f.nsym → syndrome f (rsPad f q.word) j = 0) ∧ q.ncorr ≤ f.t ∧
      ((List.range r.length).filter fun i => decide (q.word[i]? ≠ r[i]?)).length ≤ q.ncorr := by
  obtain ⟨bm, c', -, hnu, hcount, hpos, hc, hz, rfl⟩ := rsCorrect_some h
  refine ⟨rfl, ?_, hnu, (length_changed_le hc).trans_eq hcount⟩
  rw [rsPad_take_correctAt hc hpos]
  exact (syndromes_all_zero f c').1 hz

theorem rsFix_codeword {r : List Nat} (h : ∀ j, j < f.nsym → syndrome f (rsPad f r) j = 0) :
    rsFix f r = { ok := true, word := r, ncorr := 0 } :=
  if_pos ((syndromes_all_zero f _).2 h)

theorem rsFix_ok {r : List Nat} (h : (rsFix f r).ok = true) :
    (∀ j, j < f.nsym → syndrome f (rsPad f (rsFix f r).word) j = 0) ∧ (rsFix f r).ncorr ≤ f.t ∧
      ((List.range r.length).filter fun i => decide ((rsFix f r).word[i]? ≠ r[i]?)).length ≤ (rsFix f r).ncorr := by
  rcases rsFix_cases f r with ⟨hz, hq⟩ | ⟨-, ⟨q, hq, hfix⟩ | ⟨-, hq⟩⟩
  · rw [hq]
    exact ⟨(syndromes_all_zero f _).1 hz, Nat.zero_le _, by simp⟩
  · rw [hfix]
    exact (rsCorrect_sound hq).2
  · simp [hq] at h

theorem rsFix_not_ok {r : List Nat} (h : (rsFix f r).ok = false) :
    (rsFix f r).word = r ∧ (rsFix f r).ncorr = 0 ∧ ∃ j, j < f.nsym ∧ syndrome f (rsPad f r) j ≠ 0 := by
  rcases rsFix_cases f r with ⟨-, hq⟩ | ⟨hz, ⟨q, hq, hfix⟩ | ⟨-, hq⟩⟩
  · simp [hq] at h
  · rw [hfix, (rsCorrect_sound hq).1] at h
    cases h
  · rw [hq]
    refine ⟨rfl, rfl, ?_⟩
    by_contra! hall
    exact absurd ((syndromes_all_zero f _).2 hall) (by simp [hz])

/-- Settles O51: the verification step gives soundness, and one changed symbol is followed through each stage. -/
theorem rsDecodeIsSoundAndCorrectsOneSymbol : Obligations.RsDecodeIsSoundAndCorrectsOneSymbol := by
  rintro f r _ hl rfl
  refine ⟨fun h => ⟨rsFix_length f r, rsFix_ok h⟩, rsFix_not_ok, fun h => ?_, ?_⟩
  · rw [rsFix_codeword h]
    exact ⟨rfl, rfl, rfl⟩
  · rintro hok h2 c i e hc hz hi h0 he rfl
    rw [(field_of_rsCodeOk hok).rsFix_modify h2 (by simpa using hl) hc hz hi h0 he]
    exact ⟨rfl, rfl, rfl⟩

end Sys2Proof.Machine
end

section
/-! The Reed–Solomon commands (O49, O50): each checks a length, then its regions, then reads its symbols. -/

namespace Sys2Proof.Machine

open Sys2Proof.Claims

variable {i : Instr} {s t : State} {ws : List Word}

/-- `t` is `s` after a success that leaves `ws` in the result registers and puts `y` at `dst` of SYMMEM, and changes no
other cell. -/
structure StoresSyms (s t : State) (ws : List Word) (dst : Nat) (y : List Sym) : Prop where
  succeeds : Succeeds s t ws
  holds : Holds t.symmem dst y
  outside : SameOutside s.symmem t.symmem dst y.length
  bits : KeepsBits s t
  out : KeepsOut s t

/-- A command that writes result registers and one string of SYMMEM. -/
theorem exec_of_syms {dst : Nat} {y : List Sym} (h : resultOf i s = .success { res := ws, syms := (dst, y) }) :
    ∃ t, exec i s = .next t ∧ StoresSyms s t ws dst y :=
  ⟨_, exec_of_success h, finish_succeeds s _, Memory.writeSeq_holds s.symmem dst y,
    Memory.writeSeq_sameOutside s.symmem dst y, finish_keepsBits s _ rfl, finish_keepsOut s _ rfl⟩

/-! ### What the two commands share -/

/-- The checks and the read of an RS command whose length is more than `lo` and at most `hi` (43_rs.md rules R220, R221). -/
def rsRead (s : State) (lo hi : Nat) (k : List Sym → CmdResult) : CmdResult :=
  if s.operand 1 ≤ lo ∨ s.operand 1 > hi then .error .length
  else if ¬ s.operand 0 + s.operand 1 ≤ 256 ∨ ¬ s.operand 2 + s.operand 1 ≤ 256 then .error .range
  else readSyms s (s.operand 0) (s.operand 1) k

section
variable {lo hi : Nat} {k : List Sym → CmdResult} (hc : resultOf i s = rsRead s lo hi k)
include hc

theorem exec_of_rsLength (h : s.operand 1 ≤ lo ∨ hi < s.operand 1) : exec i s = .next (failedWith s 0x04) :=
  exec_of_error (hc.trans (if_pos h)) rfl

theorem exec_of_rsRange (hlo : lo < s.operand 1) (hhi : s.operand 1 ≤ hi)
    (h : 256 < s.operand 0 + s.operand 1 ∨ 256 < s.operand 2 + s.operand 1) : exec i s = .next (failedWith s 0x03) :=
  exec_of_error (hc.trans ((if_neg (by omega)).trans (if_pos (h.imp Nat.not_le.2 Nat.not_le.2)))) rfl

theorem resultOf_of_rsRead (hlo : lo < s.operand 1) (hhi : s.operand 1 ≤ hi) (hs : s.operand 0 + s.operand 1 ≤ 256)
    (hd : s.operand 2 + s.operand 1 ≤ 256) {r : List Sym} (hl : r.length = s.operand 1)
    (hr : Holds s.symmem (s.operand 0) r) : resultOf i s = k r :=
  hc.trans ((if_neg (by omega)).trans ((if_neg (by omega)).trans (readSyms_of_holds k hl hr)))

end

theorem map_toNat_map_ofNat {ws : List Nat} (h : ∀ v ∈ ws, v < 256) :
    (ws.map (BitVec.ofNat 8)).map BitVec.toNat = ws := by
  rw [List.map_map]
  exact (List.map_congr_left fun v hv => by simpa using h v hv).trans (List.map_id ws)

/-- An RS command that decodes the symbols `r` of a valid code. -/
theorem exec_of_rsEffect {f : RsCode} {dst : Nat} {r : List Sym} (hd : deg f.prim = f.m) (hm : 1 ≤ f.m) (hm8 : f.m ≤ 8)
    (hr : ∀ v ∈ r, v.toNat < 2 ^ f.m) (h : resultOf i s = .success (rsEffect f dst r)) :
    ∃ (t : State) (c : List Sym), exec i s = .next t ∧
      StoresSyms s t
        [boolWord (rsFix f (r.map BitVec.toNat)).ok, wordOf (rsFix f (r.map BitVec.toNat)).ncorr,
          wordOf (r.length - f.nsym), wordOf f.nsym] dst c ∧
      c.map BitVec.toNat = (rsFix f (r.map BitVec.toNat)).word ∧ c.length = r.length ∧ ∀ v ∈ c, v.toNat < 2 ^ f.m := by
  obtain ⟨t, hex, ht⟩ := exec_of_syms h
  have hlt : ∀ v ∈ (rsFix f (r.map BitVec.toNat)).word, v < 2 ^ f.m := rsFix_lt hd hm (by simpa using hr)
  have hle : 2 ^ f.m ≤ 256 := Nat.pow_le_pow_right (show 0 < 2 by decide) hm8
  have hmap := map_toNat_map_ofNat fun v hv => (hlt v hv).trans_le hle
  refine ⟨t, _, hex, ht, hmap, by simp [rsFix_length], fun v hv => hlt _ ?_⟩
  rw [← hmap]
  exact List.mem_map_of_mem hv

/-! ### RS_FIX8 (43_rs.md rule R220) -/

theorem resultOf_rsFix8 (s : State) :
    resultOf .rsFix8 s = rsRead s 16 255 fun r => .success (rsEffect (rs8Code params) (s.operand 2) r) := rfl

/-- Settles O49. -/
theorem rsFix8CommandResults : Obligations.RsFix8CommandResults := by
  rintro s _ _ _ rfl rfl rfl
  refine ⟨exec_of_rsLength (resultOf_rsFix8 s), exec_of_rsRange (resultOf_rsFix8 s), ?_⟩
  rintro hlo hhi hs hd r _ hl hr rfl
  obtain ⟨t, c, hex, ht, hc, hcl, -⟩ := exec_of_rsEffect (rsCodeOk_deg params_ok.rs8) (by decide) (by decide)
    (fun v _ => v.isLt) (resultOf_of_rsRead (resultOf_rsFix8 s) hlo hhi hs hd hl hr)
  rw [hl] at ht hcl
  exact ⟨t, hex, ht.succeeds, ⟨c, hc, hcl, ht.holds⟩, hcl ▸ ht.outside, ht.bits, ht.out⟩

/-! ### RS_FIX6 (43_rs.md rule R221) -/

theorem resultOf_rsFix6 (s : State) :
    resultOf .rsFix6 s = rsRead s 10 63 fun r =>
      if r.any (fun v => 63 < v.toNat) then .error .symbol else .success (rsEffect (rs6Code params) (s.operand 2) r) := rfl

/-- Settles O50. -/
theorem rsFix6CommandResults : Obligations.RsFix6CommandResults := by
  rintro s _ _ _ rfl rfl rfl
  refine ⟨exec_of_rsLength (resultOf_rsFix6 s), exec_of_rsRange (resultOf_rsFix6 s), fun hlo hhi hs hd r hl hr => ?_⟩
  have hres := resultOf_of_rsRead (resultOf_rsFix6 s) hlo hhi hs hd hl hr
  refine ⟨fun hbad => exec_of_error (hres.trans (if_pos (by simpa using hbad))) rfl, ?_⟩
  rintro hsym _ rfl
  have hlt : ∀ v ∈ r, v.toNat < 2 ^ (rs6Code params).m := fun v hv => Nat.lt_succ_of_le (hsym v hv)
  obtain ⟨t, c, hex, ht, hc, hcl, hclt⟩ := exec_of_rsEffect (rsCodeOk_deg params_ok.rs6) (by decide) (by decide) hlt
    (hres.trans (if_neg (by simpa using hsym)))
  rw [hl] at ht hcl
  exact ⟨t, hex, ht.succeeds, ⟨c, hc, hcl, fun v hv => Nat.le_of_lt_succ (hclt v hv), ht.holds⟩, hcl ▸ ht.outside, ht.bits,
    ht.out⟩

end Sys2Proof.Machine
end

section
/-! What access detection (O52) and trailer stripping (O54) can answer. -/

namespace Sys2Proof.Machine

open Sys2Proof.Claims

variable {p : Params} {x y : Bits}

/-- The nearest element of a list in the order `R`: every other is farther, or as far and not
earlier. -/
theorem nearest_map_some {α : Type} {R : α → α → Prop} {l : List α} (hl : l.Pairwise R) {d : α → Nat} {n : Nat} {a : α}
    (ha : nearest (l.map fun b => (d b, b)) = some (n, a)) :
    a ∈ l ∧ n = d a ∧ ∀ b ∈ l, d a < d b ∨ d a = d b ∧ (b = a ∨ R a b) := by
  obtain ⟨m1, m2, hm, hbefore, hafter⟩ := nearest_some ha
  obtain ⟨l1, l2, rfl, rfl, h2⟩ := List.map_eq_append_iff.1 hm
  obtain ⟨b, l2, rfl, hb, rfl⟩ := List.map_eq_cons_iff.1 h2
  cases hb
  have hR := (List.pairwise_cons.1 (List.pairwise_append.1 hl).2.1).1
  refine ⟨by simp, rfl, fun b hb => ?_⟩
  rcases List.mem_append.1 hb with hb | hb
  · exact .inl (hbefore _ (List.mem_map_of_mem hb))
  · rcases List.mem_cons.1 hb with rfl | hb
    · exact .inr ⟨rfl, .inl rfl⟩
    · exact (Nat.lt_or_eq_of_le (hafter _ (List.mem_map_of_mem hb))).imp id fun he => ⟨he, .inr (hR b hb)⟩

/-! ### Access detection (44_dispatch.md rule R241) -/

theorem mem_accessKinds (k : AccessKind) : k ∈ accessKinds := by cases k <;> decide

theorem accessKinds_pairwise : accessKinds.Pairwise fun k k' => kindNumber k < kindNumber k' := by decide

/-- The access kinds whose pattern is no longer than the burst. -/
def fittingKinds (p : Params) (x : Bits) : List AccessKind :=
  accessKinds.filter fun k => (accessPattern p k).length ≤ x.length

/-- The distance of the burst's first bits from the pattern of a kind. -/
def accessDist (p : Params) (x : Bits) (k : AccessKind) : Nat :=
  hd (x.take (accessPattern p k).length) (accessPattern p k)

theorem mem_fittingKinds {k : AccessKind} : k ∈ fittingKinds p x ↔ (accessPattern p k).length ≤ x.length := by
  simp [fittingKinds, mem_accessKinds]

theorem fittingKinds_pairwise (p : Params) (x : Bits) :
    (fittingKinds p x).Pairwise fun k k' => kindNumber k < kindNumber k' :=
  accessKinds_pairwise.filter _

/-- The kind of the first pattern that the burst begins with. -/
def exactKind (p : Params) (x : Bits) : Option AccessKind :=
  (fittingKinds p x).find? fun k => x.take (accessPattern p k).length = accessPattern p k

theorem exactKind_some {k : AccessKind} (hk : exactKind p x = some k) :
    accessPattern p k <+: x ∧ ∀ k', kindNumber k' < kindNumber k → ¬ accessPattern p k' <+: x := by
  refine ⟨List.prefix_iff_eq_take.2 (by simpa [eq_comm] using List.find?_some hk), fun k' hlt hp => ?_⟩
  rcases find?_le_of_pairwise (fittingKinds_pairwise p x) hk (mem_fittingKinds.2 hp.length_le)
    (by simpa using (List.prefix_iff_eq_take.1 hp).symm) with rfl | hgt <;> omega

theorem exactKind_none (hn : exactKind p x = none) (k : AccessKind) : ¬ accessPattern p k <+: x := fun hp =>
  List.find?_eq_none.1 hn k (mem_fittingKinds.2 hp.length_le) (by simpa using (List.prefix_iff_eq_take.1 hp).symm)

/-- `k` fits the burst, and every other kind that fits is farther, or as far and not earlier. -/
def ClosestKind (p : Params) (x : Bits) (k : AccessKind) : Prop :=
  k ∈ fittingKinds p x ∧ ∀ k' ∈ fittingKinds p x, accessDist p x k < accessDist p x k' ∨
    accessDist p x k = accessDist p x k' ∧ kindNumber k ≤ kindNumber k'

/-- Everything access detection can answer: the first exact pattern, the closest one within 3 in harder mode, or none. -/
theorem accessDetect_cases (p : Params) (x : Bits) (h : Bool) :
    (∃ k, exactKind p x = some k ∧
      accessDetect p x h = some { kind := k, dist := 0, off := (accessPattern p k).length }) ∨
    (exactKind p x = none ∧ h = true ∧ ∃ k, ClosestKind p x k ∧ accessDist p x k ≤ 3 ∧
      accessDetect p x h = some { kind := k, dist := accessDist p x k, off := (accessPattern p k).length }) ∨
    (exactKind p x = none ∧ (h = true → ∀ k ∈ fittingKinds p x, 3 < accessDist p x k) ∧ accessDetect p x h = none) := by
  generalize hr : accessDetect p x h = r
  unfold accessDetect at hr
  dsimp only at hr
  split at hr
  case h_1 k hex => exact .inl ⟨k, hex, hr.symm⟩
  case h_2 hex =>
    refine .inr ?_
    split at hr
    case isFalse hh => exact .inr ⟨hex, fun ht => absurd ht hh, hr.symm⟩
    case isTrue hh =>
      split at hr
      case h_2 hn =>
        have hnil : fittingKinds p x = [] := List.map_eq_nil_iff.1 (nearest_none hn)
        exact .inr ⟨hex, by simp [hnil], hr.symm⟩
      case h_1 n k hn =>
        obtain ⟨hk, rfl, hbest⟩ := nearest_map_some (fittingKinds_pairwise p x) hn
        have hclosest : ClosestKind p x k := ⟨hk, fun k' hk' => (hbest k' hk').imp id fun ⟨hd, hle⟩ =>
          ⟨hd, hle.elim (fun he => he ▸ Nat.le_refl _) Nat.le_of_lt⟩⟩
        split at hr
        case isTrue hle => exact .inl ⟨hex, hh, k, hclosest, hle, hr.symm⟩
        case isFalse hle =>
          refine .inr ⟨hex, fun _ k' hk' => ?_, hr.symm⟩
          have hd : accessDist p x k ≤ accessDist p x k' := (hclosest.2 k' hk').elim Nat.le_of_lt fun h => h.1.le
          exact (Nat.lt_of_not_le hle).trans_le hd

/-- Settles O52. -/
theorem accessDetectionRule : Obligations.AccessDetectionRule := by
  intro p x h
  rcases accessDetect_cases p x h with ⟨k, hex, ha⟩ | ⟨hex, hh, k, ⟨hk, hbest⟩, hle, ha⟩ | ⟨hex, hfar, ha⟩ <;> rw [ha]
  · refine ⟨?_, nofun⟩
    rintro _ ⟨⟩
    obtain ⟨hp, hfirst⟩ := exactKind_some hex
    have htake := (List.prefix_iff_eq_take.1 hp).symm
    exact ⟨rfl, hp.length_le, by rw [htake, hd_self], .inl ⟨rfl, htake, hfirst⟩⟩
  · refine ⟨?_, nofun⟩
    rintro _ ⟨⟩
    exact ⟨rfl, mem_fittingKinds.1 hk, rfl, .inr ⟨hh, hle, exactKind_none hex, fun k' hk' =>
      hbest k' (mem_fittingKinds.2 hk')⟩⟩
  · exact ⟨nofun, fun _ => ⟨exactKind_none hex, fun hh k hk => hfar hh k (mem_fittingKinds.2 hk)⟩⟩

/-! ### Trailing patterns (44_dispatch.md rule R243) -/

theorem mem_trailers {t : Trailer × Bits} :
    t ∈ trailers p ↔ (t = (.leadout, p.leadout) ∨ t = (.filler, p.filler)) ∧ 0 < t.2.length := by
  simp [trailers]

theorem trailers_pairwise (p : Params) : (trailers p).Pairwise fun t _ => t.1 = .leadout :=
  List.Pairwise.filter _ (by simp)

/-- The trailing patterns that are present and no longer than the payload. -/
def fittingTrailers (p : Params) (y : Bits) : List (Trailer × Bits) := (trailers p).filter fun t => t.2.length ≤ y.length

/-- The distance of the payload's last bits from a pattern. -/
def trailDist (y t : Bits) : Nat := hd (y.drop (y.length - t.length)) t

theorem mem_fittingTrailers {t : Trailer × Bits} :
    t ∈ fittingTrailers p y ↔
      (t = (.leadout, p.leadout) ∨ t = (.filler, p.filler)) ∧ 0 < t.2.length ∧ t.2.length ≤ y.length := by
  simp [fittingTrailers, mem_trailers, and_assoc]

theorem fittingTrailers_pairwise (p : Params) (y : Bits) : (fittingTrailers p y).Pairwise fun t _ => t.1 = .leadout :=
  (trailers_pairwise p).filter _

/-- `t` fits the payload's end, and every other pattern that fits is farther, or as far when `t` is the lead-out. -/
def ClosestTrailer (p : Params) (y : Bits) (t : Trailer × Bits) : Prop :=
  t ∈ fittingTrailers p y ∧ ∀ t' ∈ fittingTrailers p y, trailDist y t.2 < trailDist y t'.2 ∨
    trailDist y t.2 = trailDist y t'.2 ∧ (t' = t ∨ t.1 = .leadout)

theorem trailDist_eq_zero {t : Bits} (hl : t.length ≤ y.length) :
    trailDist y t = 0 ↔ y.drop (y.length - t.length) = t := by
  refine ⟨fun h => hd_eq_zero (by simp; omega) h, fun h => ?_⟩
  rw [trailDist, h, hd_self]

/-- An exact match is a closest pattern: every other pattern that fits is at a positive distance or comes later. -/
theorem closestTrailer_of_exact {t : Trailer × Bits}
    (ht : (fittingTrailers p y).find? (fun t => decide (y.drop (y.length - t.2.length) = t.2)) = some t) :
    ClosestTrailer p y t ∧ trailDist y t.2 = 0 := by
  have hm := List.mem_of_find?_eq_some ht
  have h0 : trailDist y t.2 = 0 :=
    (trailDist_eq_zero (mem_fittingTrailers.1 hm).2.2).2 (by simpa using List.find?_some ht)
  refine ⟨⟨hm, fun t' ht' => ?_⟩, h0⟩
  rw [h0]
  refine (Nat.eq_zero_or_pos (trailDist y t'.2)).symm.imp id fun h0' => ⟨h0'.symm, ?_⟩
  exact find?_le_of_pairwise (fittingTrailers_pairwise p y) ht ht'
    (decide_eq_true ((trailDist_eq_zero (mem_fittingTrailers.1 ht').2.2).1 h0'))

/-- Everything stripping can answer: one closest pattern within 2 is taken, or none is. -/
theorem stripTrailer_cases (p : Params) (y : Bits) :
    (∃ t, ClosestTrailer p y t ∧ trailDist y t.2 ≤ 2 ∧
      stripTrailer p y = { len := y.length - t.2.length, kind := t.1, dist := trailDist y t.2 }) ∨
    ((∀ t ∈ fittingTrailers p y, 2 < trailDist y t.2) ∧
      stripTrailer p y = { len := y.length, kind := .none, dist := 0 }) := by
  generalize hr : stripTrailer p y = r
  unfold stripTrailer at hr
  dsimp only at hr
  split at hr
  case h_1 t ht =>
    obtain ⟨hclosest, h0⟩ := closestTrailer_of_exact ht
    exact .inl ⟨t, hclosest, by omega, by rw [h0, hr]⟩
  case h_2 =>
    split at hr
    case h_2 hn =>
      have hnil : fittingTrailers p y = [] := List.map_eq_nil_iff.1 (nearest_none hn)
      exact .inr ⟨by simp [hnil], hr.symm⟩
    case h_1 n t hn =>
      obtain ⟨ht, rfl, hbest⟩ := nearest_map_some (fittingTrailers_pairwise p y) hn
      split at hr
      case isTrue hle => exact .inl ⟨t, ⟨ht, hbest⟩, hle, hr.symm⟩
      case isFalse hle =>
        refine .inr ⟨fun t' ht' => ?_, hr.symm⟩
        have hd : trailDist y t.2 ≤ trailDist y t'.2 := (hbest t' ht').elim Nat.le_of_lt fun h => h.1.le
        exact (Nat.lt_of_not_le hle).trans_le hd

/-- Settles O54. -/
theorem stripRule : Obligations.StripRule := by
  rintro p y _ rfl
  rcases stripTrailer_cases p y with ⟨⟨kind, t⟩, ⟨ht, hbest⟩, hle, hs⟩ | ⟨hfar, hs⟩ <;> rw [hs]
  · obtain ⟨hkind, hpos, hfit⟩ := mem_fittingTrailers.1 ht
    refine ⟨?_, fun t0 t' hts => ?_⟩
    · rintro rfl
      simp at hkind
    · obtain ⟨rfl, kind', hne, ht'⟩ : t0 = t ∧ ∃ kind', kind' ≠ kind ∧
          ((kind', t') = (.leadout, p.leadout) ∨ (kind', t') = (.filler, p.filler)) := by
        rcases hts with ⟨rfl, rfl, rfl⟩ | ⟨rfl, rfl, rfl⟩
        · exact ⟨Eq.symm (by simpa using hkind), .filler, nofun, .inr rfl⟩
        · exact ⟨Eq.symm (by simpa using hkind), .leadout, nofun, .inl rfl⟩
      refine ⟨hpos, hfit, rfl, rfl, hle, fun hpos' hfit' => ?_⟩
      exact (hbest (kind', t') (mem_fittingTrailers.2 ⟨ht', hpos', hfit'⟩)).imp id fun ⟨hd, h⟩ =>
        ⟨hd, h.resolve_left fun he => hne (congrArg Prod.fst he)⟩
  · refine ⟨fun _ => ⟨rfl, rfl, fun t ht hpos hfit => ?_⟩, by simp⟩
    rcases ht with rfl | rfl
    · exact hfar (.leadout, p.leadout) (mem_fittingTrailers.2 ⟨.inl rfl, hpos, hfit⟩)
    · exact hfar (.filler, p.filler) (mem_fittingTrailers.2 ⟨.inr rfl, hpos, hfit⟩)

end Sys2Proof.Machine
end

section
/-! The commands ACCESS, STRIP and CLASSIFY (O53, O55, O56), and what their outcomes depend on (O60). -/

namespace Sys2Proof.Machine

open Sys2Proof.Claims

variable {i : Instr} {s u : State} {x : Bits}

/-! ### What the commands share -/

/-- A command that checks its region, then its parameters, then reads its region. -/
def dispatchRead (s : State) (badParam : Prop) [Decidable badParam] (k : Bits → CmdResult) : CmdResult :=
  if ¬ s.operand 0 + s.operand 1 ≤ 2048 then .error .range
  else if badParam then .error .param
  else readBits s (s.operand 0) (s.operand 1) k

section
variable {badParam : Prop} [Decidable badParam] {k : Bits → CmdResult} (hc : resultOf i s = dispatchRead s badParam k)
include hc

theorem exec_of_dispatchRange (h : 2048 < s.operand 0 + s.operand 1) : exec i s = .next (failedWith s 0x03) :=
  exec_of_error (hc.trans (if_pos (Nat.not_le.2 h))) rfl

theorem exec_of_badParam (hr : s.operand 0 + s.operand 1 ≤ 2048) (h : badParam) :
    exec i s = .next (failedWith s 0x09) :=
  exec_of_error (hc.trans ((if_neg (not_not_intro hr)).trans (if_pos h))) rfl

theorem resultOf_of_dispatchRead (hr : s.operand 0 + s.operand 1 ≤ 2048) (hp : ¬ badParam)
    (hl : x.length = s.operand 1) (hx : Holds s.bitmem (s.operand 0) x) : resultOf i s = k x :=
  hc.trans ((if_neg (not_not_intro hr)).trans ((if_neg hp).trans (readBits_of_holds k hl hx)))

end

theorem resultOf_access (s : State) : resultOf .access s =
    dispatchRead s False fun x => .success { res := accessWords (accessDetect params x s.lCtrl.harder) } := rfl

theorem resultOf_strip (s : State) : resultOf .strip s =
    dispatchRead s False fun x => .success { res := stripWords (stripTrailer params x) } := rfl

/-- The forced tag and sub-kind in force: those of the latch when FORCE_EN is set (44_dispatch.md rule R259). -/
def forceOf (l : CtrlLatch) : Option (Variant × SubKind) := if l.forceEn then forced l else none

theorem resultOf_classify (s : State) : resultOf .classify s =
    dispatchRead s (s.lCtrl.forceEn = true ∧ forced s.lCtrl = none) fun x =>
      .success { res := classifyWords (classifyBurst params .coeff x s.lCtrl.harder (forceOf s.lCtrl)) } := rfl

/-! ### ACCESS and STRIP (44_dispatch.md rules R242, R244) -/

theorem accessWords_some (r : AccessMatch) :
    accessWords (some r) =
      [wordOf (kindNumber r.kind), wordOf r.dist, wordOf r.off, if r.kind = .dl ∨ r.kind = .nxdl then 0 else 1] := by
  obtain ⟨kind, dist, off⟩ := r
  cases kind <;> rfl

/-- Settles O53. -/
theorem accessCommandResults : Obligations.AccessCommandResults := by
  rintro s _ _ rfl rfl
  refine ⟨exec_of_dispatchRange (resultOf_access s), fun hr x hl hx => ?_⟩
  obtain ⟨t, hex, hsucc, hb, hs, ho⟩ := exec_of_res (resultOf_of_dispatchRead (resultOf_access s) hr not_false hl hx)
  refine ⟨t, hex, hb, hs, ho, fun hn => ?_, fun r hr => ?_⟩
  · rwa [hn] at hsucc
  · rwa [hr, accessWords_some] at hsucc

theorem stripWords_eq (r : Stripped) :
    stripWords r = [wordOf r.len, wordOf (trailerNumber r.kind), wordOf r.dist] := rfl

/-- Settles O55. -/
theorem stripCommandResults : Obligations.StripCommandResults := by
  rintro s _ _ rfl rfl
  refine ⟨exec_of_dispatchRange (resultOf_strip s), ?_⟩
  rintro hr x _ hl hx rfl
  exact stripWords_eq _ ▸ exec_of_res (resultOf_of_dispatchRead (resultOf_strip s) hr not_false hl hx)

/-! ### CLASSIFY (44_dispatch.md rule R261) -/

theorem classifyWords_eq (c : Classified) :
    classifyWords c =
      [wordOf (tagNumber c.tag), wordOf (reasonNumber c.reason), wordOf c.errs, optWord c.off, optWord c.len,
        optWord (c.kind.map kindNumber), wordOf (subKindNumber c.subKind), wordOf c.flags] := rfl

/-- The bits of RES7 are the flags of the classification. -/
theorem flagsWord_fields (c : Classified) :
    (wordOf c.flags).getLsbD 0 = c.corrected ∧ (wordOf c.flags).getLsbD 1 = c.forced ∧
      (wordOf c.flags).getLsbD 4 = c.fuzzy ∧ (wordOf c.flags).toNat / 4 % 4 = trailerNumber c.trailer ∧
      (wordOf c.flags).toNat < 32 := by
  unfold Classified.flags
  generalize c.corrected = corrected, c.forced = forced, c.trailer = trailer, c.fuzzy = fuzzy
  revert corrected forced fuzzy
  cases trailer <;> decide

theorem forceOf_eq_none {l : CtrlLatch} (h : l.forceEn = false) : forceOf l = none := by
  simp [forceOf, h]

theorem forceOf_eq_some {l : CtrlLatch} (he : l.forceEn = true) (hf : forced l ≠ none) :
    ∃ v k, forceOf l = some (v, k) ∧ tagNumber v = l.forceTag.toNat ∧ subKindNumber k = l.forceSub.toNat := by
  obtain ⟨⟨v, k⟩, hvk⟩ := Option.ne_none_iff_exists'.1 hf
  exact ⟨v, k, by rw [forceOf, if_pos he, hvk], forced_eq_some hvk⟩

/-- Settles O56. -/
theorem classifyCommandResults : Obligations.ClassifyCommandResults := by
  rintro s _ _ _ _ rfl rfl rfl rfl
  refine ⟨exec_of_dispatchRange (resultOf_classify s),
    fun hr he hbad => exec_of_badParam (resultOf_classify s) hr ⟨he, forced_eq_none.2 hbad⟩, fun hr hlegal x hl hx => ?_⟩
  have hp := forced_passes hlegal
  obtain ⟨t, hex, hsucc, hkeeps⟩ := exec_of_res (resultOf_of_dispatchRead (resultOf_classify s) hr hp hl hx)
  generalize hc : classifyBurst params .coeff x s.lCtrl.harder (forceOf s.lCtrl) = c at hsucc
  have h7 : t.res[7] = wordOf c.flags := hsucc.res 7
  obtain ⟨h0, h1, h4, h23, hlt⟩ := flagsWord_fields c
  refine ⟨t, forceOf s.lCtrl, c, hex, forceOf_eq_none, fun he => forceOf_eq_some he fun hn => hp ⟨he, hn⟩, hc.symm, ?_⟩
  rw [h7]
  exact ⟨classifyWords_eq c ▸ hsucc, h0, h1, h4, h23, hlt, hkeeps⟩

/-! ### What the outcomes depend on (44_dispatch.md rule R263) -/

theorem dispatchRead_congr {badParam : Prop} [Decidable badParam] {k : Bits → CmdResult} (ha : s.lArg = u.lArg)
    (hm : ∀ j, j < s.operand 1 → Memory.read s.bitmem (s.operand 0 + j) = Memory.read u.bitmem (s.operand 0 + j)) :
    dispatchRead s badParam k = dispatchRead u badParam k := by
  have hop : ∀ j, u.operand j = s.operand j := fun j => by simp only [State.operand, ha]
  simp only [dispatchRead, readBits, hop, Memory.readSeq_congr hm]

/-- The outcome is a function of the region's bits and the latches. -/
theorem resultOf_congr (hi : i = .access ∨ i = .strip ∨ i = .classify) (ha : s.lArg = u.lArg) (hc : s.lCtrl = u.lCtrl)
    (hm : ∀ j, j < s.operand 1 → Memory.read s.bitmem (s.operand 0 + j) = Memory.read u.bitmem (s.operand 0 + j)) :
    resultOf i s = resultOf i u := by
  rcases hi with rfl | rfl | rfl
  · rw [resultOf_access, resultOf_access, ← hc, dispatchRead_congr ha hm]
  · rw [resultOf_strip, resultOf_strip, dispatchRead_congr ha hm]
  · rw [resultOf_classify, resultOf_classify, ← hc, dispatchRead_congr ha hm]

/-- Settles O60: a success writes the same words, as many as the command lists; an error has the same code. -/
theorem dispatchIsAFunctionOfItsBits : Obligations.DispatchIsAFunctionOfItsBits := by
  intro i s u t hi ha hc hm hex
  have hres := resultOf_congr hi ha hc hm
  rcases exec_next hex with ⟨e, he, rfl⟩ | ⟨c, hce, rfl⟩
  · refine ⟨_, exec_of_success (hres ▸ he), rfl, fun _ k hk => ?_⟩
    have hlen : k.val < e.res.length := (success_fits he).1.symm ▸ hk
    rw [finish_res_get, finish_res_get, List.getD_eq_getElem _ _ hlen, List.getD_eq_getElem _ _ hlen]
  · exact ⟨u.fail c, by rw [exec_eq_complete, ← hres, hce, complete_error], rfl, fun h0 => absurd h0 (errorCode_ne_zero c)⟩

end Sys2Proof.Machine
end

section
/-! What a classification is (O57). -/

namespace Sys2Proof.Machine

variable {p : Params} {ord : FlipOrder} {x y : Bits} {h : Bool} {force : Option (Variant × SubKind)} {r : AccessMatch}

/-- The classification of a burst after access detection and stripping, before its tag is known. -/
def classifiedAfter (r : AccessMatch) (st : Stripped) : Classified :=
  { tag := .rejected, reason := .ok, errs := 0, off := some r.off, len := some st.len, kind := some r.kind
    subKind := .none, corrected := false, forced := false, trailer := st.kind, fuzzy := decide (0 < r.dist) }

/-! ### An equation per branch (44_dispatch.md rule R261) -/

theorem classifyBurst_of_noAccess (ha : accessDetect p x h = none) :
    classifyBurst p ord x h force =
      { tag := .rejected, reason := .noAccess, errs := 0, off := none, len := none, kind := none, subKind := .none
        corrected := false, forced := false, trailer := .none, fuzzy := false } := by
  simp only [classifyBurst, ha]

section
variable (ha : accessDetect p x h = some r)
include ha

theorem classifyBurst_of_nx (hk : r.kind = .nxdl ∨ r.kind = .nxul) :
    classifyBurst p ord x h force = { classifiedAfter r (stripTrailer p (x.drop r.off)) with tag := .nx } := by
  rcases hk with hk | hk <;> simp only [classifyBurst, ha, hk, classifiedAfter]

theorem classifyBurst_of_forced (hk : r.kind = .dl ∨ r.kind = .ul) (v : Variant) (k : SubKind) :
    classifyBurst p ord x h (some (v, k)) =
      { classifiedAfter r (stripTrailer p (x.drop r.off)) with tag := v, subKind := k, forced := true } := by
  rcases hk with hk | hk <;> simp only [classifyBurst, ha, hk, classifiedAfter]

theorem classifyBurst_of_winner (hk : r.kind = .dl ∨ r.kind = .ul) {q : Pass} {w : Cand} {e : CheckPassed}
    (hw : winner p ord (sub x r.off (stripTrailer p (x.drop r.off)).len) r.kind.direction h = some (q, w, e)) :
    classifyBurst p ord x h none =
      { classifiedAfter r (stripTrailer p (x.drop r.off)) with
        tag := (refine p w e).1, subKind := (refine p w e).2, errs := e.errs, corrected := decide (q = .corrected) } := by
  rcases hk with hk | hk <;> rw [hk] at hw <;> simp only [classifyBurst, ha, hk, hw, classifiedAfter]

theorem classifyBurst_of_noWinner (hk : r.kind = .dl ∨ r.kind = .ul)
    (hw : winner p ord (sub x r.off (stripTrailer p (x.drop r.off)).len) r.kind.direction h = none) :
    classifyBurst p ord x h none =
      { classifiedAfter r (stripTrailer p (x.drop r.off)) with
        reason := rejectReason p (sub x r.off (stripTrailer p (x.drop r.off)).len) r.kind.direction } := by
  rcases hk with hk | hk <;> rw [hk] at hw <;> simp only [classifyBurst, ha, hk, hw, classifiedAfter]

/-- Whatever the tag, these fields are those of detection and stripping. -/
theorem classifyBurst_keeps_access {c : Classified} (hc : classifyBurst p ord x h force = c) :
    c.off = some r.off ∧ c.len = some (stripTrailer p (x.drop r.off)).len ∧ c.kind = some r.kind ∧
      c.trailer = (stripTrailer p (x.drop r.off)).kind ∧ (c.fuzzy = true ↔ 0 < r.dist) := by
  have hkind : (r.kind = .nxdl ∨ r.kind = .nxul) ∨ (r.kind = .dl ∨ r.kind = .ul) := by cases r.kind <;> decide
  subst hc
  rcases hkind with hk | hk
  · rw [classifyBurst_of_nx ha hk]
    exact ⟨rfl, rfl, rfl, rfl, decide_eq_true_iff⟩
  · cases force with
    | some f =>
      rw [classifyBurst_of_forced ha hk]
      exact ⟨rfl, rfl, rfl, rfl, decide_eq_true_iff⟩
    | none =>
      cases hw : winner p ord (sub x r.off (stripTrailer p (x.drop r.off)).len) r.kind.direction h with
      | none =>
        rw [classifyBurst_of_noWinner ha hk hw]
        exact ⟨rfl, rfl, rfl, rfl, decide_eq_true_iff⟩
      | some f =>
        rw [classifyBurst_of_winner ha hk hw]
        exact ⟨rfl, rfl, rfl, rfl, decide_eq_true_iff⟩

end

/-! ### The reason of a rejection (44_dispatch.md rule R262) -/

theorem rejectReason_of_tooShort {dir : Direction}
    (hs : ∀ w, dir ∈ (candidate p w).dirs → y.length < (candidate p w).minLen) : rejectReason p y dir = .tooShort := by
  refine if_pos (List.all_eq_true.2 fun c hc => ?_)
  obtain ⟨w, -, rfl⟩ := List.mem_map.1 hc
  by_cases hd : dir ∈ (candidate p w).dirs <;> simp [hd, hs w]

theorem rejectReason_of_longEnough {dir : Direction} {w : Cand} (hd : dir ∈ (candidate p w).dirs)
    (hl : (candidate p w).minLen ≤ y.length) : rejectReason p y dir = .noCandidate := by
  refine if_neg fun hall => ?_
  have := List.all_eq_true.1 hall _ (List.mem_map_of_mem (mem_precedence w))
  simp [hd, Nat.not_lt.2 hl] at this

/-- Settles O57. -/
theorem classificationCases : Obligations.ClassificationCases := by
  intro p ord x h force c hc
  refine ⟨fun ha => ?_, ?_⟩
  · rw [classifyBurst_of_noAccess ha] at hc
    subst hc
    exact ⟨rfl, rfl, rfl, rfl, rfl, rfl, rfl, rfl⟩
  rintro r _ _ ha rfl rfl
  obtain ⟨hoff, hlen, hkind, htrailer, hfuzzy⟩ := classifyBurst_keeps_access ha hc
  refine ⟨hoff, hlen, hkind, htrailer, hfuzzy, fun hk => ?_, fun hk => ⟨?_, ?_⟩⟩
  · rw [classifyBurst_of_nx ha hk] at hc
    subst hc
    exact ⟨rfl, rfl, rfl, rfl, rfl, rfl⟩
  · rintro v k rfl
    rw [classifyBurst_of_forced ha hk] at hc
    subst hc
    exact ⟨rfl, rfl, rfl, rfl, rfl, rfl⟩
  rintro rfl
  cases hw : winner p ord (sub x r.off (stripTrailer p (x.drop r.off)).len) r.kind.direction h with
  | none =>
    rw [classifyBurst_of_noWinner ha hk hw] at hc
    subst hc
    refine ⟨rfl, fun q w e hqw => absurd (hw.symm.trans hqw) nofun, fun _ => ⟨rfl, rfl, rfl, rfl, ?_, ?_⟩⟩
    · exact rejectReason_of_tooShort
    · rintro ⟨w, hd, hl⟩
      exact rejectReason_of_longEnough hd hl
  | some f =>
    rw [classifyBurst_of_winner ha hk hw] at hc
    subst hc
    refine ⟨rfl, fun q w e hqw => ?_, fun hn => absurd (hw.symm.trans hn) nofun⟩
    cases hw.symm.trans hqw
    refine ⟨?_, ?_, ?_, ?_, ?_, fun hl => hl ▸ rfl, rfl, rfl, decide_eq_true_iff⟩ <;> (rintro rfl; exact ⟨rfl, rfl⟩)

end Sys2Proof.Machine
end

section
/-! When a candidate passes, and which one wins (O58); the sub-dispatch of link-control words (O59). -/

namespace Sys2Proof.Machine

open Sys2Proof.Claims

variable {p : Params} {ord : FlipOrder} {q : Pass} {x y z : Bits} {dir : Direction}

/-! ### Blocks and regions (44_dispatch.md rules R245, R247) -/

theorem deinterleave_range (x : Bits) : deinterleave (List.range x.length) x = x := by
  refine List.ext_getElem (by simp) fun i hi hx => ?_
  simp [deinterleave, hx]

theorem padDecode_word_of_le {g k : Nat}
    (h : rank (bchDecode ord g (padded x k false)).errs ≤ rank (bchDecode ord g (padded x k true)).errs) :
    (padDecode ord g x k).1 = bchDecode ord g (padded x k false) := congrArg Prod.fst (if_pos h)

theorem padDecode_word_of_lt {g k : Nat}
    (h : rank (bchDecode ord g (padded x k true)).errs < rank (bchDecode ord g (padded x k false)).errs) :
    (padDecode ord g x k).1 = bchDecode ord g (padded x k true) := congrArg Prod.fst (if_neg (Nat.not_le.2 h))

theorem decodesTo_iff {b : Block} {r : BchDecoded} : DecodesTo p ord z b r ↔ r = decodeBlock p ord z b := by
  unfold DecodesTo decodeBlock
  cases b.pad with
  | none => rfl
  | some k =>
    simp only [append_singleton_append_eq_padded]
    constructor
    · rintro ⟨x, r0, r1, rfl, rfl, rfl, ⟨rfl, hle⟩ | ⟨rfl, hlt⟩⟩
      · exact (padDecode_word_of_le hle).symm
      · exact (padDecode_word_of_lt hlt).symm
    · rintro rfl
      exact ⟨_, _, _, rfl, rfl, rfl, (Nat.lt_or_ge _ _).symm.imp (fun hle => ⟨padDecode_word_of_le hle, hle⟩)
        fun hlt => ⟨padDecode_word_of_lt hlt, hlt⟩⟩

theorem forall₂_decodesTo_iff {bs : List Block} {rs : List BchDecoded} :
    List.Forall₂ (DecodesTo p ord z) bs rs ↔ rs = bs.map (decodeBlock p ord z) := by
  induction bs generalizing rs with
  | nil => simp
  | cons b bs ih => cases rs <;> simp [decodesTo_iff, ih]

theorem regionIs_iff {perm : Perm} :
    RegionIs p perm x z ↔ ∃ tbl, permFor p perm x.length = some tbl ∧ z = deinterleave tbl x := by
  cases perm <;> simp [RegionIs, permFor, deinterleave_range]

/-! ### Checks (44_dispatch.md rules R246 to R248) -/

theorem runCheck_bch_eq_some {perm : Perm} {roff rlen : Nat} {bs : List Block} {e : CheckPassed} :
    runCheck p ord q y (.bch perm roff rlen bs) = some e ↔
      roff + rlen ≤ y.length ∧
        ∃ z, RegionIs p perm (sub y roff rlen) z ∧ decodeBlocks p ord q z bs = some e := by
  rw [runCheck, Option.ite_none_right_eq_some]
  refine and_congr_right fun hle => ?_
  have hlen : (sub y roff rlen).length = rlen := by simp [sub]; omega
  simp only [regionIs_iff, hlen]
  cases permFor p perm rlen <;> simp

/-- The corrected data of the decodes of the blocks, in order. -/
theorem zipWith_corrected_data (bs : List Block) :
    List.zipWith (fun (b : Block) (r : BchDecoded) => r.word.take (b.n - deg (polyOf p b.slot))) bs
        (bs.map (decodeBlock p ord z)) =
      bs.map fun b => (decodeBlock p ord z b).word.take (b.n - deg (generator p b.slot)) := by
  rw [List.zipWith_map_right, List.zipWith_self]
  rfl

theorem checkPasses_iff {c : Check} {e : CheckPassed} :
    CheckPasses p ord q y c e.errs e.data ↔ runCheck p ord q y c = some e := by
  obtain ⟨errs, data⟩ := e
  cases c with
  | pat off t => simp [CheckPasses, runCheck, sub, and_assoc, eq_comm]
  | len lo hi => simp [CheckPasses, runCheck, and_assoc, eq_comm]
  | bch perm roff rlen bs =>
    rw [runCheck_bch_eq_some]
    refine and_congr_right fun _ => exists_congr fun z => ?_
    simp only [forall₂_decodesTo_iff, decodeBlocks_some]
    constructor
    · rintro ⟨_, es, hz, rfl, hes, hq, rfl, rfl⟩
      exact ⟨hz, es, List.map_map.symm.trans hes, hq, by rw [zipWith_corrected_data]⟩
    · rintro ⟨hz, es, hes, hq, he⟩
      cases he
      exact ⟨_, es, hz, rfl, List.map_map.trans hes, hq, rfl, (zipWith_corrected_data bs).symm⟩

/-- In the exact pass a check that passes has no errors (44_dispatch.md rule R248). -/
theorem runCheck_exact {c : Check} {e : CheckPassed} (h : runCheck p ord .exact y c = some e) : e.errs = 0 := by
  cases c with
  | pat off t => exact (checkPasses_iff.2 h).2.2.1
  | len lo hi => exact (checkPasses_iff.2 h).2.2.1
  | bch perm roff rlen bs =>
    obtain ⟨-, z, -, hd⟩ := runCheck_bch_eq_some.1 h
    exact decodeBlocks_exact hd

/-! ### Candidates (44_dispatch.md rule R249) -/

theorem passes_eq_some {w : Cand} {e : CheckPassed} :
    passes p ord w y dir q = some e ↔
      dir ∈ (candidate p w).dirs ∧ (candidate p w).minLen ≤ y.length ∧
        runChecks p ord q y (candidate p w).checks = some e := by
  rw [passes, Option.ite_none_right_eq_some, and_assoc]

theorem runChecks_singleton {c : Check} : runChecks p ord q y [c] = runCheck p ord q y c := by
  cases hr : runCheck p ord q y c <;> simp [runChecks, hr]

/-- A list of checks passes, in the words of the claims: each check as a pair of its total and its data. -/
theorem runChecks_iff_checkPasses {cs : List Check} {e : CheckPassed} :
    runChecks p ord q y cs = some e ↔
      ∃ rs : List (Nat × List Bits), List.Forall₂ (fun c r => CheckPasses p ord q y c r.1 r.2) cs rs ∧
        e.errs = (rs.map fun r => r.1).sum ∧ e.data = (rs.map fun r => r.2).flatten := by
  obtain ⟨errs, data⟩ := e
  rw [runChecks_some]
  constructor
  · rintro ⟨rs, hrs, he⟩
    cases he
    refine ⟨rs.map fun r => (r.errs, r.data), ?_, by simp [Function.comp_def], by simp [Function.comp_def]⟩
    exact List.forall₂_map_right_iff.2 (hrs.imp fun _ _ => checkPasses_iff.2)
  · rintro ⟨rs, hrs, rfl, rfl⟩
    refine ⟨rs.map fun r => { errs := r.1, data := r.2 }, ?_, by simp [Function.comp_def]⟩
    exact List.forall₂_map_right_iff.2 (hrs.imp fun c (r : Nat × List Bits) => (checkPasses_iff (e := ⟨r.1, r.2⟩)).1)

theorem sum_errs_of_exact {cs : List Check} {rs : List CheckPassed}
    (h : List.Forall₂ (fun c r => runCheck p ord .exact y c = some r) cs rs) : (rs.map fun r => r.errs).sum = 0 := by
  induction h with
  | nil => rfl
  | cons hc _ ih => simp [runCheck_exact hc, ih]

theorem runChecks_exact {cs : List Check} {e : CheckPassed} (h : runChecks p ord .exact y cs = some e) : e.errs = 0 := by
  obtain ⟨rs, hrs, rfl⟩ := runChecks_some.1 h
  exact sum_errs_of_exact hrs

/-! ### The winner (44_dispatch.md rules R256, R257) -/

/-- The first passing candidate, by places in the precedence order. -/
theorem firstPassing_first {w w' : Cand} {e : CheckPassed} (h : firstPassing p ord y dir q = some (w, e)) {i j : Nat}
    (hi : precedence[i]? = some w') (hj : precedence[j]? = some w) (hij : i < j) : passes p ord w' y dir q = none := by
  obtain ⟨l1, l2, hl, -, hbefore⟩ := firstPassing_some h
  have hnodup : precedence.Nodup := by decide
  have hw : precedence[l1.length]? = some w := by simp [hl]
  have hjl : j = l1.length :=
    (List.getElem?_inj (List.getElem?_eq_some_iff.1 hj).1 hnodup).1 (hj.trans hw.symm)
  refine hbefore w' (List.mem_of_getElem? (i := i) ?_)
  rwa [hl, List.getElem?_append_left (by omega)] at hi

/-- What a winner is: the first passing candidate of pass 1, or of pass 2 in harder mode when pass 1 has none. -/
theorem winner_some {h : Bool} {w : Cand} {e : CheckPassed} (hw : winner p ord y dir h = some (q, w, e)) :
    firstPassing p ord y dir q = some (w, e) ∧
      (q = .corrected → h = true ∧ firstPassing p ord y dir .exact = none) := by
  unfold winner at hw
  cases hf : firstPassing p ord y dir .exact with
  | some f =>
    rw [hf] at hw
    cases hw
    exact ⟨hf, nofun⟩
  | none =>
    simp only [hf, Option.ite_none_right_eq_some, Option.map_eq_some_iff] at hw
    obtain ⟨hh, f, hc, hw⟩ := hw
    cases hw
    exact ⟨hc, fun _ => ⟨hh, rfl⟩⟩

theorem winner_none {h : Bool} (hw : winner p ord y dir h = none) :
    firstPassing p ord y dir .exact = none ∧ (h = true → firstPassing p ord y dir .corrected = none) := by
  unfold winner at hw
  cases hf : firstPassing p ord y dir .exact with
  | some f =>
    rw [hf] at hw
    cases hw
  | none =>
    simp only [hf] at hw
    exact ⟨rfl, fun hh => by simpa [hh] using hw⟩

/-- Settles O58. -/
theorem firstPassingCandidateWins : Obligations.FirstPassingCandidateWins := by
  intro p ord y dir h
  refine ⟨fun w q e => ?_, fun q w e hw => ?_, fun hw w => ?_⟩
  · rw [passes_eq_some, runChecks_iff_checkPasses]
  · obtain ⟨hf, hcorr⟩ := winner_some hw
    obtain ⟨-, -, -, hpass, -⟩ := firstPassing_some hf
    refine ⟨hpass, fun i j w' hi hj hij => firstPassing_first hf hi hj hij, ?_,
      fun hq => ⟨(hcorr hq).1, firstPassing_none (hcorr hq).2⟩⟩
    rintro rfl
    exact runChecks_exact (passes_eq_some.1 hpass).2.2
  · obtain ⟨hexact, hcorr⟩ := winner_none hw
    exact ⟨firstPassing_none hexact w, fun hh => firstPassing_none (hcorr hh) w⟩

/-! ### Link-control words (44_dispatch.md rules R253, R260) -/

theorem passes_lw {e : CheckPassed} (h : passes p ord .lw y dir q = some e) :
    decodeBlocks p ord q (deinterleave p.permLcw (sub y p.lwOff 46)) (lcwBlocks p) = some e := by
  obtain ⟨-, -, hc⟩ := passes_eq_some.1 h
  have hr : runCheck p ord q y (.bch .lcw p.lwOff 46 (lcwBlocks p)) = some e := runChecks_singleton.symm.trans hc
  obtain ⟨-, z, ⟨-, rfl⟩, hd⟩ := runCheck_bch_eq_some.1 hr
  exact hd

/-- Two bits of a string, as a number, first bit most significant. -/
theorem val_sub_two {d : Bits} {k : Nat} (h : k + 2 ≤ d.length) :
    ∃ b0 b1 : Bool, d[k]? = some b0 ∧ d[k + 1]? = some b1 ∧ val (sub d k 2) = 2 * b0.toNat + b1.toNat := by
  refine ⟨d[k], d[k + 1], List.getElem?_eq_getElem _, List.getElem?_eq_getElem _, ?_⟩
  have : sub d k 2 = [d[k], d[k + 1]] := by
    rw [sub, List.drop_eq_getElem_cons (by omega), List.drop_eq_getElem_cons (by omega)]
    rfl
  rw [this]
  simp [val]

theorem deinterleave_lcw_length (hv : Valid p) (x : Bits) : (deinterleave p.permLcw x).length = 46 := by
  rw [deinterleave_length, hv.lcwLength]

/-- In a valid configuration the frame-type field lies in the data kept of one of the three blocks. -/
theorem frameType_data (hv : Valid p) {e : CheckPassed} (hz : z.length = 46)
    (he : decodeBlocks p ord q z (lcwBlocks p) = some e) :
    ∃ d : Bits, e.data[p.ftField.val]? = some d ∧ p.ftOff + 2 ≤ d.length := by
  have hblocks : ∀ b ∈ lcwBlocks p, blockOk p z.length b = true := by
    have := hv.check .lw (c := .bch .lcw p.lwOff 46 (lcwBlocks p)) (List.mem_singleton.2 rfl)
    simp only [checkOk, Bool.and_eq_true, List.all_eq_true] at this
    rw [hz]
    exact this.2
  obtain ⟨b, hb⟩ : ∃ b, (lcwBlocks p)[p.ftField.val]? = some b :=
    ⟨_, List.getElem?_eq_getElem (show p.ftField.val < 3 from p.ftField.isLt)⟩
  obtain ⟨d, hd, hlen⟩ := (decodeBlocks_data hblocks he).2 _ b hb
  have hft := hv.frameType
  simp only [frameTypeOk, hb, decide_eq_true_eq] at hft
  exact ⟨d, hd, by omega⟩

theorem refine_lw {e : CheckPassed} {d : Bits} (hd : e.data[p.ftField.val]? = some d) {ft : Fin 4}
    (hft : val (sub d p.ftOff 2) = ft.val) :
    refine p .lw e = if p.ftMap[ft] = .sy then (.sy, .sy) else (.lw, p.ftMap[ft]) := by
  have hmap : p.ftMap.toList.getD ft.val .none = p.ftMap[ft] := by simp [List.getD_eq_getElem?_getD]
  simp only [refine, List.getD_eq_getElem?_getD, hd, Option.getD_some, hft, ← hmap]

/-- Settles O59. -/
theorem lcwSubDispatch : Obligations.LcwSubDispatch := by
  intro p ord y dir q e hp h
  have hv := valid_of hp
  have hd := passes_lw h
  obtain ⟨d, hdata, hlen⟩ := frameType_data hv (deinterleave_lcw_length hv _) hd
  obtain ⟨b0, b1, h0, h1, hval⟩ := val_sub_two hlen
  have hlt : 2 * b0.toNat + b1.toNat < 4 := by
    have := b0.toNat_le
    have := b1.toNat_le
    omega
  have href := refine_lw hdata (ft := ⟨_, hlt⟩) hval
  refine ⟨?_, d, b0, b1, ⟨_, hlt⟩, hdata, h0, h1, rfl, fun hs => ?_, fun hs => ?_⟩
  · obtain ⟨es, -, -, rfl⟩ := decodeBlocks_some.1 hd
    exact ⟨_, _, _, _, rfl, decodesTo_iff.2 rfl, decodesTo_iff.2 rfl, decodesTo_iff.2 rfl, rfl⟩
  · rw [href, if_pos hs]
  · rw [href, if_neg hs]

end Sys2Proof.Machine
end

section
/-! An error completion changes STATUS and ENG only (O26); ERR, OVR and BUSERR are sticky (O25). -/

namespace Sys2Proof.Machine

open Sys2Proof.Claims

variable {s t : State}

/-! ### Completions with an error (60_exceptions.md rules R291, R292, R294) -/

/-- Of the two ways to complete, only a failure leaves a code other than 0. -/
theorem failedWith_of_errCode (h : (∃ e, t = s.finish e) ∨ ∃ c, t = s.fail c) (hc : t.status.errCode ≠ 0) :
    t.status.errCode ≤ 9 ∧ t = failedWith s t.status.errCode := by
  rcases h with ⟨e, rfl⟩ | ⟨c, rfl⟩
  · exact absurd rfl hc
  · exact ⟨errorCode_le c, fail_eq_failedWith s c⟩

/-- Settles O26. -/
theorem errorsChangeOnlyStatus : Obligations.ErrorsChangeOnlyStatus := by
  refine ⟨fun i s t h => failedWith_of_errCode ?_, fun s t h => failedWith_of_errCode ?_⟩
  · exact (exec_next h).imp (fun ⟨e, _, ht⟩ => ⟨e, ht⟩) (fun ⟨c, _, ht⟩ => ⟨c, ht⟩)
  · exact (engineMove_outcome h).imp_left fun ⟨_, e, _, ht⟩ => ⟨e, ht⟩

/-! ### The sticky bits of STATUS (60_exceptions.md rule R297) -/

/-- Each of ERR, OVR and BUSERR that was 1 is still 1. -/
structure Status.KeepsSticky (old new : Status) : Prop where
  err : old.err = true → new.err = true
  ovr : old.ovr = true → new.ovr = true
  busErr : old.busErr = true → new.busErr = true

theorem Status.KeepsSticky.refl (st : Status) : st.KeepsSticky st := ⟨id, id, id⟩

theorem Status.complete_keepsSticky (st : Status) (c : BitVec 8) : st.KeepsSticky (st.complete c) :=
  ⟨fun h => by simp [h], id, id⟩

theorem State.drop_keepsSticky (s : State) : s.status.KeepsSticky s.drop.status := ⟨id, fun _ => rfl, id⟩

theorem State.refuse_keepsSticky (s : State) : s.status.KeepsSticky s.refuse.status := ⟨id, id, fun _ => rfl⟩

/-- A bit under W1C stays 1 unless the host writes 1 to it. -/
theorem w1c_stays_or_written {b : Bool} (w : Bool) (h : b = true) : (b && !w) = true ∨ w = true := by
  cases w <;> simp [h]

theorem engineMove_keepsSticky (h : engineMove s = .next t) : s.status.KeepsSticky t.status := by
  rcases engineMove_outcome h with ⟨-, e, -, rfl⟩ | ⟨c, rfl⟩
  · exact s.status.complete_keepsSticky 0
  · exact s.status.complete_keepsSticky (errorCode c)

theorem hostRead_keepsSticky {p : Params} {off : Offset} {size : Nat} {v : Word}
    (h : hostRead p s off size = .ok (v, t)) : s.status.KeepsSticky t.status := by
  rcases hostRead_ok h with rfl | ⟨-, rfl⟩
  · exact .refl _
  · exact s.refuse_keepsSticky

/-- The writes that can lower a sticky bit are the soft reset while IDLE and the W1C write of STATUS. -/
theorem hostWrite_sticky (s : State) (off : Offset) (size : Nat) (v : Word) :
    s.status.KeepsSticky (hostWrite s off size v).status ∨
    (s.eng = .idle ∧ off = 0x004 ∧ size = 4 ∧ v.getLsbD 31 = true) ∨
    (off = 0x008 ∧ size = 4 ∧ (hostWrite s off size v).status = s.status.clearW1C v) := by
  rcases hostWrite_cases s off size v with hw | hw | ⟨ho, hz, hw⟩ | ⟨-, hw⟩ |
    ⟨hi, ⟨ho, hz, hw⟩ | ⟨-, -, hw⟩ | ⟨i, hw⟩ | ⟨j, -, hw⟩ | ⟨j, -, hw⟩⟩ <;> rw [hw]
  · exact .inl s.refuse_keepsSticky
  · exact .inl (.refl _)
  · exact .inr (.inr ⟨ho, hz, rfl⟩)
  · exact .inl s.drop_keepsSticky
  · cases hv : v.getLsbD 31 with
    | true => exact .inr (.inl ⟨hi, ho, hz, rfl⟩)
    | false => exact .inl (writeCtrl_fields (s := s) hv ▸ .refl _)
  · exact .inl ⟨id, id, id⟩
  · exact .inl (.refl _)
  · exact .inl (.refl _)
  · exact .inl (.refl _)

/-- The host actions that can lower a sticky bit are these writes and the hard reset. -/
theorem perform_sticky {p : Params} {a : HostAction} (h : perform p s a = .next t) :
    a = .hardReset ∨ (s.eng = .idle ∧ ∃ v, a = .write 0x004 4 v ∧ v.getLsbD 31 = true) ∨
    s.status.KeepsSticky t.status ∨ ∃ v, a = .write 0x008 4 v ∧ t.status = s.status.clearW1C v := by
  rcases perform_next h with ⟨off, size, v, rfl, rfl⟩ | ⟨off, size, v, u, -, hr, rfl⟩ | ⟨-, rfl | rfl⟩ | ⟨rfl, -⟩
  · rcases hostWrite_sticky s off size v with hk | ⟨hi, rfl, rfl, hv⟩ | ⟨rfl, rfl, hw⟩
    · exact .inr (.inr (.inl hk))
    · exact .inr (.inl ⟨hi, v, rfl, hv⟩)
    · exact .inr (.inr (.inr ⟨v, rfl, hw⟩))
  · have hk := hostRead_keepsSticky hr
    exact .inr (.inr (.inl hk))
  · exact .inr (.inr (.inl (.refl _)))
  · exact .inr (.inr (.inl (.refl _)))
  · exact .inl rfl

/-- One step, as far as the sticky bits are concerned. -/
theorem step_sticky (h : step s = .next t) :
    Performs s .hardReset ∨ (s.eng = .idle ∧ ∃ v, Performs s (.write 0x004 4 v) ∧ v.getLsbD 31 = true) ∨
    s.status.KeepsSticky t.status ∨ ∃ v, Performs s (.write 0x008 4 v) ∧ t.status = s.status.clearW1C v := by
  rcases step_cases s with ⟨-, -, hn⟩ | ⟨-, -, hm⟩ | ⟨a, rest, hh, ht, hp⟩
  · cases hn.symm.trans h
    exact .inr (.inr (.inl (.refl _)))
  · exact .inr (.inr (.inl (s.takeTurn_status ▸ engineMove_keepsSticky (hm.symm.trans h))))
  · have performs : Performs s a := ⟨rest, hh, ht⟩
    have hs := perform_sticky (hp.symm.trans h)
    simp only [State.takeTurn_eng, State.takeTurn_status] at hs
    rcases hs with rfl | ⟨hi, v, rfl, hv⟩ | hk | ⟨v, rfl, hw⟩
    · exact .inl performs
    · exact .inr (.inl ⟨hi, v, performs, hv⟩)
    · exact .inr (.inr (.inl hk))
    · exact .inr (.inr (.inr ⟨v, performs, hw⟩))

/-- Settles O25. -/
theorem stickyBitsStay : Obligations.StickyBitsStay := by
  intro s t h
  rcases step_sticky h with hr | hr | hk | ⟨v, hp, hw⟩
  · exact .inl hr
  · exact .inr (.inl hr)
  · exact .inr (.inr ⟨fun hb => .inl (hk.err hb), fun hb => .inl (hk.ovr hb), fun hb => .inl (hk.busErr hb)⟩)
  · have stays {b : Bool} {i : Nat} (hb : b = true) :
        (b && !v.getLsbD i) = true ∨ ∃ w, Performs s (.write 0x008 4 w) ∧ w.getLsbD i = true :=
      (w1c_stays_or_written _ hb).imp_right fun hv => ⟨v, hp, hv⟩
    rw [hw]
    exact .inr (.inr ⟨stays, stays, stays⟩)

end Sys2Proof.Machine
end

section
/-! Reset, and that a command in flight completes (O7, O9, O10, O11). -/

namespace Sys2Proof.Machine

open Sys2Proof.Claims

variable {s t : State}

/-! ### The two resets (70_reset_and_hazards.md rules R320, R321) -/

theorem Ctrl.toWord_zero : Ctrl.zero.toWord = 0 := by decide

theorem Status.toWord_zero : Status.zero.toWord false = 0 := by decide

theorem State.statusWord_of_idle (hi : s.eng = .idle) : s.statusWord = s.status.toWord false := by
  simp [State.statusWord, State.busy, hi]

/-- Settles O7: the reset state is what a hard reset leaves of itself. -/
theorem invariantHoldsAtReset : Obligations.InvariantHoldsAtReset := Inv.hardReset State.reset

theorem hostRead_caps (p : Params) (s : State) : hostRead p s 0x060 4 = .ok (capsWord p, s) :=
  hostRead_value (port := .caps) (by decide) rfl nofun rfl

/-- Settles O9: the read-only ports read the same in every state. -/
theorem hardResetValues : Obligations.HardResetValues := by
  intro s
  obtain ⟨hid, -, -, -, hpoly, -⟩ := readOnlyPortsRead s.hardReset 0
  have hstatus : s.hardReset.statusWord = 0 :=
    (State.statusWord_of_idle s.hardReset_eng).trans Status.toWord_zero
  have hpolyOff (i : Fin 8) : (BitVec.ofNat 10 (0x040 + 4 * i.val)).toNat = 0x040 + 4 * i.val := by
    rw [BitVec.toNat_ofNat]; omega
  exact ⟨s.hardReset, rfl, Ctrl.toWord_zero, hstatus, fun _ => by simp, fun _ => by simp, Memory.read_nil, Memory.read_nil,
    Memory.read_nil, rfl, rfl, hid, fun i => (hpoly i _ (hpolyOff i)).1, capsWord params, hostRead_caps _ _,
    hostRead_caps _ _⟩

/-- Settles O10: while IDLE the write is the soft reset, while BUSY it is dropped. -/
theorem softResetKeepsMemories : Obligations.SoftResetKeepsMemories := by
  intro s v hv
  rw [hostWrite_ctrl, writeCtrl_reset hv]
  refine ⟨fun hi => ?_, fun hb => whenIdle_busy hb⟩
  rw [whenIdle_idle hi]
  have hstatus : s.softReset.statusWord = 0 :=
    (State.statusWord_of_idle (s.softReset_eng.trans hi)).trans Status.toWord_zero
  exact ⟨Ctrl.toWord_zero, hstatus, fun _ => by simp, fun _ => by simp, rfl, rfl, rfl, hi⟩

/-! ### One host action while BUSY (10_state.md rule R33, 20_memory.md rule R98) -/

/-- A write while BUSY changes STATUS at most. -/
theorem hostWrite_of_busy (hb : s.eng = .busy) (off : Offset) (size : Nat) (v : Word) :
    ∃ st, hostWrite s off size v = { s with status := st } := by
  rcases hostWrite_cases s off size v with hw | hw | ⟨-, -, hw⟩ | ⟨-, hw⟩ | ⟨hi, -⟩
  · exact ⟨_, hw⟩
  · exact ⟨_, hw⟩
  · exact ⟨_, hw⟩
  · exact ⟨_, hw⟩
  · cases hi.symm.trans hb

/-- A host action while BUSY is the hard reset, or leaves the command in flight and brings no new action into the list:
WAIT at most stays there. -/
theorem perform_of_busy {p : Params} {a : HostAction} (hb : s.eng = .busy) (h : perform p s a = .next t) :
    (a = .hardReset ∧ t.eng = .idle) ∨ (t.eng = .busy ∧ t.sched = s.sched ∧ t.host ⊆ a :: s.host) := by
  have keeps : s.host ⊆ a :: s.host := List.subset_cons_self a s.host
  rcases perform_next h with ⟨off, size, v, -, rfl⟩ | ⟨off, size, v, u, -, hr, rfl⟩ | ⟨rfl, rfl | rfl⟩ | ⟨ha, rfl⟩
  · obtain ⟨st, hw⟩ := hostWrite_of_busy hb off size v
    rw [hw]
    exact .inr ⟨hb, rfl, keeps⟩
  · rcases hostRead_ok hr with rfl | ⟨-, rfl⟩ <;> exact .inr ⟨hb, rfl, keeps⟩
  · exact .inr ⟨hb, rfl, List.Subset.refl _⟩
  · exact .inr ⟨hb, rfl, keeps⟩
  · exact .inl ⟨ha, rfl⟩

theorem perform_ne_refused (p : Params) (s : State) (a : HostAction) (r : Refusal) : perform p s a ≠ .refused r := by
  cases a with
  | write off size v => exact nofun
  | read off size =>
    rw [perform]
    split <;> simp
  | wait =>
    rw [perform]
    split <;> simp
  | hardReset => exact nofun

/-! ### A BUSY engine completes (70_reset_and_hazards.md rules R322, R328; log entry 1) -/

theorem step_ne_refused (s : State) (r : Refusal) : step s ≠ .refused r := by
  rcases step_cases s with ⟨-, -, hn⟩ | ⟨-, -, hm⟩ | ⟨a, rest, -, -, hp⟩
  · exact hn ▸ nofun
  · exact hm ▸ engineMove_ne_refused _ r
  · exact hp ▸ perform_ne_refused _ _ a r

/-- One step of a BUSY block: the engine completes, or the host resets, or the command stays in flight and the step has
used up an entry of the schedule. -/
theorem step_of_busy (hb : s.eng = .busy) (h : step s = .next t) :
    (t.eng = .idle ∧ t.status.done = true ∧ (s.host = [] ∨ s.sched.head? ≠ some .host)) ∨
    (t.eng = .idle ∧ Performs s .hardReset) ∨
    (t.eng = .busy ∧ t.sched.length < s.sched.length ∧ t.host ⊆ s.host) := by
  rcases step_cases s with ⟨hi, -⟩ | ⟨-, hturn, hm⟩ | ⟨a, rest, hh, hi | hc, hp⟩
  · cases hi.symm.trans hb
  · obtain ⟨he, hd⟩ := engineMove_done (hm.symm.trans h)
    exact .inl ⟨he, hd, hturn⟩
  · cases hi.symm.trans hb
  · rw [State.takeTurn_of_contested s a rest hb hh] at hp
    rcases perform_of_busy (s := { s with host := rest, sched := s.sched.tail }) hb (hp.symm.trans h) with
      ⟨rfl, he⟩ | ⟨he, hs, hsub⟩
    · exact .inr (.inl ⟨he, rest, hh, .inr hc⟩)
    · obtain ⟨tail, htail⟩ := List.head?_eq_some_iff.1 hc
      exact .inr (.inr ⟨he, by simp [hs, htail], hh ▸ hsub⟩)

theorem run_succ_of_next (h : step s = .next t) (n : Nat) : core.run (n + 1) s = core.run n t := by
  simp only [Host.Core.run, show core.step s = .next t from h]

theorem run_one_of_fault {f : Fault} (h : step s = .fault f) : core.run 1 s = .fault f := by
  simp only [Host.Core.run, show core.step s = .fault f from h]

/-- The run from `s` has faulted after `n` steps, or the engine is IDLE, with DONE set unless the host resets the block. -/
def CompletedAfter (s : State) (n : Nat) : Prop :=
  (∃ f, core.run n s = .fault f) ∨
  ∃ t : State, core.run n s = .next t ∧ t.eng = .idle ∧ (HostAction.hardReset ∉ s.host → t.status.done = true)

/-- A step that keeps the command in flight only puts the completion off. -/
theorem CompletedAfter.succ {n : Nat} (h : step s = .next t) (hsub : t.host ⊆ s.host) (hc : CompletedAfter t n) :
    CompletedAfter s (n + 1) := by
  unfold CompletedAfter
  rw [run_succ_of_next h]
  exact hc.imp_right fun ⟨u, hu, hi, hd⟩ => ⟨u, hu, hi, fun hr => hd fun ht => hr (hsub ht)⟩

theorem CompletedAfter.one_of_idle (h : step s = .next t) (hi : t.eng = .idle)
    (hd : HostAction.hardReset ∉ s.host → t.status.done = true) : CompletedAfter s 1 :=
  .inr ⟨t, run_succ_of_next h 0, hi, hd⟩

/-- Every step that does not end BUSY shortens the schedule. -/
theorem exists_completedAfter (s : State) (hb : s.eng = .busy) : ∃ n ≤ s.sched.length + 1, CompletedAfter s n := by
  have one_le : 1 ≤ s.sched.length + 1 := Nat.le_add_left 1 _
  match hs : step s with
  | .fault f => exact ⟨1, one_le, .inl ⟨f, run_one_of_fault hs⟩⟩
  | .refused r => exact absurd hs (step_ne_refused s r)
  | .next t =>
    rcases step_of_busy hb hs with ⟨hi, hd, -⟩ | ⟨hi, rest, hh, -⟩ | ⟨hb', hlt, hsub⟩
    · exact ⟨1, one_le, .one_of_idle hs hi fun _ => hd⟩
    · exact ⟨1, one_le, .one_of_idle hs hi fun hr => absurd (hh ▸ List.mem_cons_self) hr⟩
    · obtain ⟨n, hn, hc⟩ := exists_completedAfter t hb'
      exact ⟨n + 1, by omega, hc.succ hs hsub⟩
termination_by s.sched.length

/-- Settles O11: by the length of the schedule, and by what one step of a BUSY block can do. -/
theorem busyEngineCompletes : Obligations.BusyEngineCompletes := by
  refine fun s hb => ⟨exists_completedAfter s hb, fun t hs hi => ?_⟩
  rcases step_of_busy hb hs with ⟨-, hd, hturn⟩ | ⟨-, hr⟩ | ⟨hb', -⟩
  · exact .inr ⟨hturn, hd⟩
  · exact .inl hr
  · cases hi.symm.trans hb'

end Sys2Proof.Machine
end
